-- ==== Sys2Proof/Word.lean ====
section
/-! DEFINITION. The word types of UF-XFER (spec/00_scope.md R5, R6): every value is an unsigned integer on a stated width. -/

namespace Sys2Proof

/-- A link byte, a buffer byte, an 8-bit register field. -/
abbrev Byte := BitVec 8

/-- A 16-bit register field: the CRC accumulator, a trailer, a timeout, the H operand. -/
abbrev Half := BitVec 16

/-- A 32-bit register value or command word. -/
abbrev Word := BitVec 32

end Sys2Proof
end

