-- ==== Sys2Proof/Syntax.lean ====
section
/-! DEFINITION. The 13 commands of spec/30_encoding.md R152 and R153, with the operands each one uses. A field a command does
not use is ignored (R151, R155) and so is no part of its syntax. -/

namespace Sys2Proof

/-- A UF-XFER command. Each constructor is one row of spec/opcode_table.json. -/
inductive Instr where
  /-- ENG.CLR (40_integrity.md R208). -/
  | engClr
  /-- ENG.LDCRC (R209): `h` is the prior CRC. -/
  | engLdcrc (h : Half)
  /-- ENG.LDSUM (R210): `b` is the prior checksum. -/
  | engLdsum (b : Byte)
  /-- ENG.FEED (R211): `b` is the data byte. -/
  | engFeed (b : Byte)
  /-- ENG.FEEDBUF (R212): `n` is the byte count. -/
  | engFeedbuf (n : Half)
  /-- FRM.HDR (41_framing.md R259): packet size and sequence number. -/
  | frmHdr (size : Half) (seq : Byte)
  /-- FRM.TRL (R260): packet size and useCrc, bit 0 of B. -/
  | frmTrl (size : Half) (useCrc : Bool)
  /-- FRM.CHK (R261): packet size and useCrc, bit 0 of B. -/
  | frmChk (size : Half) (useCrc : Bool)
  /-- TX.NEG (43_sender.md R351). -/
  | txNeg
  /-- TX.BLK (R353, R354). -/
  | txBlk
  /-- TX.EOT (R355). -/
  | txEot
  /-- RX.NEG (44_receiver.md R401). -/
  | rxNeg
  /-- RX.BLK (R403). -/
  | rxBlk
  deriving DecidableEq, Repr

end Sys2Proof
end

