-- ==== Sys2Proof/WellFormed.lean ====
section
/-! DEFINITION. Which commands carry legal operand values, the "legal operand values" column of spec/30_encoding.md R152.
A command outside it still decodes and runs: it completes with the code of R152's last column. -/

namespace Sys2Proof

/-- H ∈ {128, 1024} (30_encoding.md R152, FRM rows). -/
def legalSize (size : Half) : Bool := size == 128#16 || size == 1024#16

/-- The operands in the command word are legal (30_encoding.md R152). -/
def Instr.wellFormed : Instr → Bool
  | .engClr => true
  | .engLdcrc _ => true
  | .engLdsum _ => true
  | .engFeed _ => true
  | .engFeedbuf n => decide (n.toNat ≤ 1024)
  | .frmHdr size _ => legalSize size
  | .frmTrl size _ => legalSize size
  | .frmChk size _ => legalSize size
  | .txNeg => true
  | .txBlk => true
  | .txEot => true
  | .rxNeg => true
  | .rxBlk => true

end Sys2Proof
end

