-- ==== Sys2Proof/Decode.lean ====
section
/-! DEFINITION. Decoding a command word and encoding a command (spec/30_encoding.md R150 to R157). -/

namespace Sys2Proof

/-- Why a word is no command. -/
inductive DecodeError where
  /-- The opcode is reserved (30_encoding.md R154): the machine completes the command with BAD_CMD. -/
  | reservedOp (op : Byte)
  deriving DecidableEq, Repr

/-- OP, bits 7 to 0 (R150). -/
def fieldOp (w : Word) : Byte := w.extractLsb' 0 8

/-- B, bits 15 to 8 (R150). -/
def fieldB (w : Word) : Byte := w.extractLsb' 8 8

/-- H, bits 31 to 16 (R150). -/
def fieldH (w : Word) : Half := w.extractLsb' 16 16

/-- The command word with the given fields (R150). -/
def packWord (h : Half) (b op : Byte) : Word := h ++ b ++ op

/-- The opcode map of R153: the command a word stands for, or the name of why it stands for none. -/
def decode (w : Word) : Except DecodeError Instr :=
  match fieldOp w with
  | 0x01#8 => .ok .engClr
  | 0x02#8 => .ok (.engLdcrc (fieldH w))
  | 0x03#8 => .ok (.engLdsum (fieldB w))
  | 0x04#8 => .ok (.engFeed (fieldB w))
  | 0x05#8 => .ok (.engFeedbuf (fieldH w))
  | 0x10#8 => .ok (.frmHdr (fieldH w) (fieldB w))
  | 0x11#8 => .ok (.frmTrl (fieldH w) ((fieldB w).getLsbD 0))
  | 0x12#8 => .ok (.frmChk (fieldH w) ((fieldB w).getLsbD 0))
  | 0x20#8 => .ok .txNeg
  | 0x21#8 => .ok .txBlk
  | 0x22#8 => .ok .txEot
  | 0x28#8 => .ok .rxNeg
  | 0x29#8 => .ok .rxBlk
  | op => .error (.reservedOp op)

/-- The useCrc operand as the assembler writes it into B (R157): bit 0, the other bits 0. -/
def useCrcByte (u : Bool) : Byte := if u then 0x01#8 else 0x00#8

/-- The opcode of a command (R153). -/
def Instr.opcode : Instr → Byte
  | .engClr => 0x01#8
  | .engLdcrc _ => 0x02#8
  | .engLdsum _ => 0x03#8
  | .engFeed _ => 0x04#8
  | .engFeedbuf _ => 0x05#8
  | .frmHdr _ _ => 0x10#8
  | .frmTrl _ _ => 0x11#8
  | .frmChk _ _ => 0x12#8
  | .txNeg => 0x20#8
  | .txBlk => 0x21#8
  | .txEot => 0x22#8
  | .rxNeg => 0x28#8
  | .rxBlk => 0x29#8

/-- The word of a command as R157 writes it, unused fields 0. -/
def encode : Instr → Word
  | .engClr => packWord 0 0 0x01#8
  | .engLdcrc h => packWord h 0 0x02#8
  | .engLdsum b => packWord 0 b 0x03#8
  | .engFeed b => packWord 0 b 0x04#8
  | .engFeedbuf n => packWord n 0 0x05#8
  | .frmHdr size seq => packWord size seq 0x10#8
  | .frmTrl size u => packWord size (useCrcByte u) 0x11#8
  | .frmChk size u => packWord size (useCrcByte u) 0x12#8
  | .txNeg => packWord 0 0 0x20#8
  | .txBlk => packWord 0 0 0x21#8
  | .txEot => packWord 0 0 0x22#8
  | .rxNeg => packWord 0 0 0x28#8
  | .rxBlk => packWord 0 0 0x29#8

/-- The bits of its word that a command reads: OP and the operands R152 lists for it (R151). -/
def Instr.usedBits : Instr → Word
  | .engClr => packWord 0 0 0xFF#8
  | .engLdcrc _ => packWord 0xFFFF#16 0 0xFF#8
  | .engLdsum _ => packWord 0 0xFF#8 0xFF#8
  | .engFeed _ => packWord 0 0xFF#8 0xFF#8
  | .engFeedbuf _ => packWord 0xFFFF#16 0 0xFF#8
  | .frmHdr _ _ => packWord 0xFFFF#16 0xFF#8 0xFF#8
  | .frmTrl _ _ => packWord 0xFFFF#16 0x01#8 0xFF#8
  | .frmChk _ _ => packWord 0xFFFF#16 0x01#8 0xFF#8
  | .txNeg => packWord 0 0 0xFF#8
  | .txBlk => packWord 0 0 0xFF#8
  | .txEot => packWord 0 0 0xFF#8
  | .rxNeg => packWord 0 0 0xFF#8
  | .rxBlk => packWord 0 0 0xFF#8

/-- The command word whose low `nbits` bits are those of `w` and whose other bits are 0. The command word is a number on the
host port (20_memory.md R103), bit 0 least significant, as the opcode table numbers it. -/
def tableWord (nbits w : Nat) : Word := BitVec.ofNat 32 (w % 2 ^ nbits)

/-- What `decode` reads from the opcode table's word. -/
def decodeTableWord (nbits w : Nat) : Option Instr :=
  match decode (tableWord nbits w) with
  | .ok i => some i
  | .error _ => none

end Sys2Proof
end

