-- ==== Sys2Proof/Config.lean ====
section
/-! DEFINITION. What an implementation fixes and the spec leaves open. None of these has a value in Lean: a claim holds whatever they are. -/

namespace Sys2Proof

/-- FREE VALUE (10_state.md R53, 70_reset_and_hazards.md R600, 92 D7, 93 I4; log entry 1): the byte that buffer index `i`
of instance `unit` reads as while nothing has written it since the reset numbered `draw`. Each byte is drawn once and kept until it
is written, and instances share none (60_exceptions.md R524). -/
opaque Config.freeBufByte (unit draw i : Nat) : Byte

/-- FREE VALUE (log entry 21): whether a purge of instance `unit` whose read times out on a tick ends there, although it discarded a byte since the
tick before. 20_memory.md R123's pseudocode ends it; its prose, 70_reset_and_hazards.md R610, 90 C4 and 93 I6 let it go on. -/
opaque Config.purgeEnds (unit draw : Nat) : Bool

/-- OPEN parameter BLOCK_BASE (92_eei_decisions.md D3): the bus address of register offset 0x00 of the instance numbered `unit`,
each of a platform's instances at its own (60_exceptions.md R524). Every rule uses offsets only. -/
opaque Config.blockBase (unit : Nat) : Nat

/-- OPEN parameter TICK_PERIOD (92_eei_decisions.md D18): the real time between two ticks. No rule depends on it. -/
opaque Config.tickPeriod : Nat

/-- The bus address a platform reaches instance `unit`'s register at offset `off` under (20_memory.md R100). -/
def Config.busAddress (unit : Nat) (off : Byte) : Nat := Config.blockBase unit + off.toNat

end Sys2Proof
end

