-- ==== Sys2Proof/Machine/Crc.lean ====
section
/-! DEFINITION. The integrity functions (spec/40_integrity.md R200 to R205), independent of any state. -/

namespace Sys2Proof.Machine

/-- One shift of the MSB-first CRC with polynomial 0x1021 (the loop body of R202 and R204). -/
def crcShift (v : Half) : Half := if v.msb then (v <<< 1) ^^^ 0x1021#16 else v <<< 1

/-- Eight shifts, one byte's worth (R202, R204). -/
def crcShift8 (v : Half) : Half :=
  crcShift (crcShift (crcShift (crcShift (crcShift (crcShift (crcShift (crcShift v)))))))

/-- CRCT[i], generated as R202 says (the table R203 writes out; log entry 12). -/
def crct (i : Byte) : Half := crcShift8 (i.setWidth 16 <<< 8)

/-- The CRC-16 update of one byte (R200). -/
def crcStep (c : Half) (b : Byte) : Half := (c <<< 8) ^^^ crct ((c >>> 8).setWidth 8 ^^^ b)

/-- CRC-16 over a byte sequence, chained from `prior` (R201). -/
def crc16 (s : List Byte) (prior : Half) : Half := s.foldl crcStep prior

/-- The additive checksum's update of one byte, modulo 256 (R205). -/
def sumStep (a b : Byte) : Byte := a + b

/-- The checksum of a byte sequence, chained from `prior` (R205). -/
def checksum (s : List Byte) (prior : Byte) : Byte := s.foldl sumStep prior

/-- The bit-serial form of R204, a cross-check of `crcStep`. -/
def crcStepSerial (c : Half) (b : Byte) : Half := crcShift8 (c ^^^ (b.setWidth 16 <<< 8))

end Sys2Proof.Machine
end

