-- ==== Sys2Proof/Machine/State.lean ====
section
/-! DEFINITION. The state of UF-XFER as plain data (spec/10_state.md R30 to R57) and its reset value (spec/70_reset_and_hazards.md R600). -/

namespace Sys2Proof.Machine

/-- Why the machine stops. The hardware has no fault at all (60_exceptions.md R500); the two reasons here stand for hidden
states that no run from reset reaches (log entry 6). -/
inductive Fault where
  /-- Raised by `txtake` at a LinkWrite with no byte left to present (WJ outside WS). Safe: no such state is reached. -/
  | nothingToPresent
  /-- Raised by `rx` when the receiver's data read returns with a number of bytes other than P + T. Safe: no such state is reached. -/
  | wrongDataLength
  deriving DecidableEq, Repr

/-- Why a command has no meaning. -/
inductive Refusal where
  /-- Raised by an arm of `exec` whose command has no meaning yet; no arm is left so. Safe. -/
  | notModelled (mnemonic : String)
  deriving DecidableEq, Repr

/-- STATUS.PHASE (42_sequencer_common.md R301); the value 3 never occurs and is not representable. -/
inductive Phase where
  | idle
  | tx
  | rx
  deriving DecidableEq, Repr

/-- STATUS.RESULT (60_exceptions.md R501); codes 14 and 15 are never produced and are not representable. -/
inductive ResultCode where
  | none
  | ok
  | negotiated
  | acked
  | succeeded
  | block
  | negTimeout
  | cancelled
  | declined
  | ackTimeout
  | integrity
  | invalidMode
  | badCmd
  | badLength
  deriving DecidableEq, Repr

/-- The blocking points of 42_sequencer_common.md R312. `canWr` carries the code that AbortWithCancel (R306) completes with. -/
inductive Point where
  | idle
  | txnRd
  | txbWr
  | txbRd
  | txeWr
  | txeRd
  | rxnWr
  | rxnRd
  | rxaRd
  | rxsRd
  | rxcRd
  | rxdRd
  | rxxRd
  | rxpRd
  | rxkWr
  | rxn2Wr
  | rxeWr
  | canWr (code : ResultCode)
  deriving DecidableEq, Repr

/-- The link commands (42_sequencer_common.md R300), the ones that wait. -/
inductive LinkCmd where
  | txNeg
  | txBlk
  | txEot
  | rxNeg
  | rxBlk
  deriving DecidableEq, Repr

/-- A packet's payload size P (41_framing.md R251): 128 or 1024 bytes. -/
inductive BlockSize where
  | classic
  | extended
  deriving DecidableEq, Repr

/-- A packet's trailer length T (41_framing.md R262): 1 byte (checksum) or 2 bytes (CRC). -/
inductive TrailerLen where
  | one
  | two
  deriving DecidableEq, Repr

/-- CTRL's fields (10_state.md R33); its reserved bits hold nothing. -/
structure Ctrl where
  mode : BitVec 2
  crcPref : Bool
  ie : Bool
  pad : Byte
  retry : Byte
  deriving DecidableEq, Repr

/-- SESSCFG's fields (10_state.md R37): CTRL's layout without IE. -/
structure SessCfg where
  mode : BitVec 2
  crcPref : Bool
  pad : Byte
  retry : Byte
  deriving DecidableEq, Repr

/-- STATUS's stored fields (10_state.md R35). STATE is a view of the blocking point (R56). -/
structure Status where
  busy : Bool
  done : Bool
  ovr : Bool
  txto : Bool
  valid : Bool
  useCrc : Bool
  canSeen : Bool
  phase : Phase
  result : ResultCode
  deriving DecidableEq, Repr

/-- The sequencer's hidden state (10_state.md R54); it has no meaning while BUSY = 0. `pt` and `cmd` together are PT. -/
structure Hidden where
  pt : Point
  cmd : Option LinkCmd
  opb : Byte
  oph : Half
  tmr : Half
  ws : List Byte
  wj : Nat
  rn : Nat
  rk : Nat
  rb : List Byte
  fr : List Byte
  p : BlockSize
  t : TrailerLen
  q1 : Byte
  lastProbe : Byte
  deriving DecidableEq, Repr

/-- A progress event `progress(TOTCNT, SUCCNT, ERRCNT)` (43_sender.md R358). -/
structure Progress where
  totCnt : Word
  succCnt : Word
  errCnt : Byte
  deriving DecidableEq, Repr

/-- The input events (00_scope.md R9; reset: 70_reset_and_hazards.md R600). A host access carries its width in bits, since a
width other than 32 is an access too (20_memory.md R101), and its offset in the 256-byte window. -/
inductive Event where
  | hostWr (width : Nat) (off : Byte) (v : Word)
  | hostRd (width : Nat) (off : Byte)
  | rx (b : Byte)
  | txtake
  | tick
  | reset
  deriving DecidableEq, Repr

/-- The block buffer as the bytes written since reset, (index, byte) pairs in rising order (10_state.md R53; log entry 1). -/
abbrev Memory := List Host.Cell

/-- The machine's state (10_state.md R30). -/
structure State where
  /-- CTRL (R33). -/
  ctrl : Ctrl
  /-- TIMEOUT (R34). -/
  timeout : Half
  /-- SESSCFG (R37). -/
  sessCfg : SessCfg
  /-- SESSTMO (R38). -/
  sessTmo : Half
  /-- STATUS (R35). -/
  status : Status
  /-- SEQ (R39). -/
  seq : Byte
  /-- ERRCNT (R40). -/
  errCnt : Byte
  /-- SUCCNT (R41). -/
  succCnt : Word
  /-- TOTCNT (R42). -/
  totCnt : Word
  /-- BYTECNT (R43). -/
  byteCnt : Word
  /-- CRC (R44). -/
  crc : Half
  /-- CSUM (R45). -/
  csum : Byte
  /-- HDR bits 23 to 0 (R46). -/
  hdr : BitVec 24
  /-- TRL (R47). -/
  trl : Half
  /-- RXTRL (R48). -/
  rxTrl : Half
  /-- TXLEN (R49). -/
  txLen : BitVec 11
  /-- RXLEN (R50). -/
  rxLen : BitVec 11
  /-- BUFADDR (R51). -/
  bufAddr : BitVec 10
  /-- Buf (R53). -/
  buf : Memory
  /-- The model's own counter of reset events, which selects the free values of unwritten buffer bytes (log entry 1). -/
  bufDraw : Nat
  /-- The model's own number of this instance among a platform's: it selects the instance's own base address and free values, and
  nothing changes it (60_exceptions.md R524; log entry 13). -/
  unit : Nat
  /-- The model's own flag: the running purge has discarded a byte since its start or the last tick (log entry 21). -/
  purgeHeard : Bool
  /-- The model's own counter of free choices taken by purges, which selects the next one (log entry 21). -/
  purgeDraw : Nat
  /-- The hidden state (R54). -/
  hid : Hidden
  /-- The transmit trace, oldest byte first (R55). -/
  trace : List Byte
  /-- The progress events, oldest first (R55). -/
  progress : List Progress
  /-- The values returned to host reads, oldest first (R55). -/
  reads : List Word
  /-- The model's own list of input events the environment has waiting, next one first (log entry 2). -/
  inputs : List Event
  deriving DecidableEq, Repr

/-- CTRL after reset, 0x00101A04 (70_reset_and_hazards.md R600). -/
def Ctrl.reset : Ctrl := ⟨0, true, false, 0x1A#8, 16#8⟩

/-- SESSCFG after reset, 0x00101A04 (R600). -/
def SessCfg.reset : SessCfg := ⟨0, true, 0x1A#8, 16#8⟩

/-- STATUS after reset, 0x00000000 (R600). -/
def Status.reset : Status := ⟨false, false, false, false, false, false, false, .idle, .none⟩

/-- The hidden state after reset: at the idle point; DESIGN CHOICE for the rest, which R54 calls irrelevant (log entry 4). -/
def Hidden.reset : Hidden where
  pt := .idle
  cmd := none
  opb := 0
  oph := 0
  tmr := 0
  ws := []
  wj := 0
  rn := 0
  rk := 0
  rb := []
  fr := []
  p := .classic
  t := .one
  q1 := 0
  lastProbe := 0

/-- The machine right after reset (70_reset_and_hazards.md R600). -/
def State.reset : State where
  ctrl := Ctrl.reset
  timeout := 60#16
  sessCfg := SessCfg.reset
  sessTmo := 60#16
  status := Status.reset
  seq := 1#8
  errCnt := 0
  succCnt := 0
  totCnt := 0
  byteCnt := 0
  crc := 0
  csum := 0
  hdr := 0
  trl := 0
  rxTrl := 0
  txLen := 0
  rxLen := 0
  bufAddr := 0
  buf := []
  bufDraw := 0
  unit := 0
  purgeHeard := false
  purgeDraw := 0
  hid := Hidden.reset
  trace := []
  progress := []
  reads := []
  inputs := []

end Sys2Proof.Machine
end

