-- ==== Sys2Proof/Machine/Framing.lean ====
section
/-! DEFINITION. The wire constants and the framing functions (spec/41_framing.md R250 to R258, R262). -/

namespace Sys2Proof.Machine

/-- Start of a 128-byte block (R250). -/
def SOH : Byte := 0x01#8
/-- Start of a 1024-byte block (R250). -/
def STX : Byte := 0x02#8
/-- End of transmission (R250). -/
def EOT : Byte := 0x04#8
/-- Acknowledge (R250). -/
def ACK : Byte := 0x06#8
/-- Negative acknowledge (R250). -/
def NAK : Byte := 0x15#8
/-- Cancel (R250). -/
def CAN : Byte := 0x18#8
/-- The CRC-request byte 'C' (R250). -/
def CRQ : Byte := 0x43#8

/-- P in bytes (R251). -/
def BlockSize.bytes : BlockSize → Nat
  | .classic => 128
  | .extended => 1024

/-- The start byte of a block size, startOf (R251). -/
def BlockSize.start : BlockSize → Byte
  | .classic => SOH
  | .extended => STX

/-- The block size a start byte announces, sizeOf (R251); no other byte is a start byte. -/
def sizeOfStart (b : Byte) : Option BlockSize :=
  if b = SOH then some .classic else if b = STX then some .extended else none

/-- T in bytes (R262). -/
def TrailerLen.bytes : TrailerLen → Nat
  | .one => 1
  | .two => 2

/-- T as a function of useCrc (R262). -/
def trailerLen (useCrc : Bool) : TrailerLen := if useCrc then .two else .one

/-- The sequence complement 0xFF - s (R252). -/
def complement (q : Byte) : Byte := 0xFF#8 - q

/-- The three header bytes in wire order (R252). -/
def header (p : BlockSize) (q : Byte) : List Byte := [p.start, q, complement q]

/-- The header as HDR holds it, first wire byte most significant (10_state.md R46, 41_framing.md R259). -/
def headerReg (p : BlockSize) (q : Byte) : BitVec 24 := p.start ++ q ++ complement q

/-- The chunk right-padded with `c` to P bytes (R253). -/
def pad (chunk : List Byte) (p : BlockSize) (c : Byte) : List Byte :=
  chunk ++ List.replicate (p.bytes - chunk.length) c

/-- A 16-bit trailer value's two wire bytes, high byte first (R254, 20_memory.md R115). -/
def bigEndian (v : Half) : List Byte := [v.extractLsb' 8 8, v.extractLsb' 0 8]

/-- The trailer value of a payload as TRL and RXTRL hold it (R254; 10_state.md R47). -/
def trailerReg (useCrc : Bool) (payload : List Byte) : Half :=
  if useCrc then crc16 payload 0 else (checksum payload 0).setWidth 16

/-- The trailer's wire bytes (R254). -/
def trailer (useCrc : Bool) (payload : List Byte) : List Byte :=
  if useCrc then bigEndian (crc16 payload 0) else [checksum payload 0]

/-- Verifying a received tail of P + T bytes: the validity flag and the payload (R255). -/
def verify (useCrc : Bool) (d : List Byte) (p : BlockSize) : Bool × List Byte :=
  (decide (d.drop p.bytes = trailer useCrc (d.take p.bytes)), d.take p.bytes)

/-- The frame the sender transmits (R256). -/
def frame (p : BlockSize) (q : Byte) (useCrc : Bool) (chunk : List Byte) (c : Byte) : List Byte :=
  header p q ++ pad chunk p c ++ trailer useCrc (pad chunk p c)

end Sys2Proof.Machine
end

