-- ==== Sys2Proof/Machine/Flags.lean ====
section
/-! DEFINITION. The STATUS flags and the register words made of fields: codes, packing, write-1-to-clear, irq, and the cancel
memory CANSEEN (spec/10_state.md R33, R35, R37, R57; spec/42_sequencer_common.md R301, R309, R312; spec/60_exceptions.md R501,
R506, R507). -/

namespace Sys2Proof.Machine

/-- PHASE's value (42_sequencer_common.md R301). -/
def Phase.code : Phase → BitVec 2
  | .idle => 0
  | .tx => 1
  | .rx => 2

/-- RESULT's value (60_exceptions.md R501). -/
def ResultCode.code : ResultCode → BitVec 4
  | .none => 0
  | .ok => 1
  | .negotiated => 2
  | .acked => 3
  | .succeeded => 4
  | .block => 5
  | .negTimeout => 6
  | .cancelled => 7
  | .declined => 8
  | .ackTimeout => 9
  | .integrity => 10
  | .invalidMode => 11
  | .badCmd => 12
  | .badLength => 13

/-- STATE's value (42_sequencer_common.md R312). -/
def Point.code : Point → Byte
  | .idle => 0x00#8
  | .txnRd => 0x10#8
  | .txbWr => 0x11#8
  | .txbRd => 0x12#8
  | .txeWr => 0x13#8
  | .txeRd => 0x14#8
  | .rxnWr => 0x20#8
  | .rxnRd => 0x21#8
  | .rxaRd => 0x22#8
  | .rxsRd => 0x23#8
  | .rxcRd => 0x24#8
  | .rxdRd => 0x25#8
  | .rxxRd => 0x26#8
  | .rxpRd => 0x27#8
  | .rxkWr => 0x28#8
  | .rxn2Wr => 0x29#8
  | .rxeWr => 0x2A#8
  | .canWr _ => 0x30#8

/-- The point waits in a LinkRead (42_sequencer_common.md R312, column "primitive"). -/
def Point.isRead : Point → Bool
  | .txnRd => true
  | .txbRd => true
  | .txeRd => true
  | .rxnRd => true
  | .rxaRd => true
  | .rxsRd => true
  | .rxcRd => true
  | .rxdRd => true
  | .rxxRd => true
  | .rxpRd => true
  | .idle => false
  | .txbWr => false
  | .txeWr => false
  | .rxnWr => false
  | .rxkWr => false
  | .rxn2Wr => false
  | .rxeWr => false
  | .canWr _ => false

/-- The point waits in a LinkWrite (42_sequencer_common.md R312). -/
def Point.isWrite : Point → Bool
  | .txbWr => true
  | .txeWr => true
  | .rxnWr => true
  | .rxkWr => true
  | .rxn2Wr => true
  | .rxeWr => true
  | .canWr _ => true
  | .idle => false
  | .txnRd => false
  | .txbRd => false
  | .txeRd => false
  | .rxnRd => false
  | .rxaRd => false
  | .rxsRd => false
  | .rxcRd => false
  | .rxdRd => false
  | .rxxRd => false
  | .rxpRd => false

/-- The five control positions (42_sequencer_common.md R309). -/
def Point.isControl : Point → Bool
  | .txnRd => true
  | .txbRd => true
  | .txeRd => true
  | .rxnRd => true
  | .rxaRd => true
  | .rxsRd => false
  | .rxcRd => false
  | .rxdRd => false
  | .rxxRd => false
  | .rxpRd => false
  | .idle => false
  | .txbWr => false
  | .txeWr => false
  | .rxnWr => false
  | .rxkWr => false
  | .rxn2Wr => false
  | .rxeWr => false
  | .canWr _ => false

/-- A one-bit field. -/
def bit (b : Bool) : BitVec 1 := BitVec.ofBool b

/-- STATUS as the host reads it (10_state.md R35). -/
def statusWord (s : State) : Word :=
  0#8 ++ s.hid.pt.code ++ s.status.result.code ++ 0#2 ++ s.status.phase.code ++ 0#1 ++ bit s.status.canSeen ++
    bit s.status.useCrc ++ bit s.status.valid ++ bit s.status.txto ++ bit s.status.ovr ++ bit s.status.done ++ bit s.status.busy

/-- CTRL as the host reads it (10_state.md R33). -/
def Ctrl.word (c : Ctrl) : Word := 0#8 ++ c.retry ++ c.pad ++ 0#4 ++ bit c.ie ++ bit c.crcPref ++ c.mode

/-- The fields of a value written to CTRL; its reserved bits are dropped (10_state.md R31, R33). -/
def Ctrl.ofWord (v : Word) : Ctrl where
  mode := v.extractLsb' 0 2
  crcPref := v.getLsbD 2
  ie := v.getLsbD 3
  pad := v.extractLsb' 8 8
  retry := v.extractLsb' 16 8

/-- SESSCFG as the host reads it: CTRL's layout, bit 3 zero (10_state.md R37). -/
def SessCfg.word (c : SessCfg) : Word := 0#8 ++ c.retry ++ c.pad ++ 0#4 ++ 0#1 ++ bit c.crcPref ++ c.mode

/-- A host write of `v` to STATUS: bit 1 clears DONE, bit 2 clears OVR, every other bit is ignored (60_exceptions.md R507). -/
def Status.write (v : Word) (st : Status) : Status :=
  { st with done := st.done && !v.getLsbD 1, ovr := st.ovr && !v.getLsbD 2 }

/-- The completion interrupt, a level (60_exceptions.md R506). -/
def irq (s : State) : Bool := s.status.done && s.ctrl.ie

/-- What CancelCheck answers (42_sequencer_common.md R309). -/
inductive Cancel where
  | peerCancel
  | firstCan
  | other
  deriving DecidableEq, Repr

/-- CancelCheck's answer for a byte at a control position (42_sequencer_common.md R309). -/
def cancelKind (b : Byte) (canSeen : Bool) : Cancel :=
  if b = CAN then (if canSeen then .peerCancel else .firstCan) else .other

/-- CANSEEN after the byte (42_sequencer_common.md R309): set by a CAN, cleared by any other byte. -/
def noteCan (b : Byte) (s : State) : State :=
  { s with status := { s.status with canSeen := decide (b = CAN) } }

end Sys2Proof.Machine
end

