-- ==== Sys2Proof/Machine/Operands.lean ====
section
/-! DEFINITION. The operand forms of the commands and their legality (spec/30_encoding.md R152; spec/42_sequencer_common.md R302). -/

namespace Sys2Proof.Machine

/-- The packetSize operand H: 128 or 1024, else the command is rejected (R152, FRM rows). -/
def sizeOperand (size : Half) : Option BlockSize :=
  if size = 128#16 then some .classic else if size = 1024#16 then some .extended else none

/-- A MODE field that opens a session: 0 or 1 (R152, TX.NEG and RX.NEG rows; 10_state.md R33). -/
def modeLegal (m : BitVec 2) : Bool := decide (m = 0#2) || decide (m = 1#2)

/-- P_tx: the sender's block size, from the latched mode (R302, 41_framing.md R251). -/
def txSize (c : SessCfg) : BlockSize := if c.mode = 0#2 then .classic else .extended

/-- TXLEN in 1..P (R152, TX.BLK row). -/
def txLenLegal (len : BitVec 11) (p : BlockSize) : Bool := decide (1 ≤ len.toNat ∧ len.toNat ≤ p.bytes)

/-- The ENG.FEEDBUF count is at most 1024 (R152). -/
def feedCountLegal (n : Half) : Bool := decide (n.toNat ≤ 1024)

end Sys2Proof.Machine
end

