-- ==== Sys2Proof/Machine/Ops.lean ====
section
/-! DEFINITION. The named operations over the buffer, the accumulators and the sequencer's state that every meaning shares
(spec/10_state.md R53; spec/20_memory.md R106 to R109, R120, R121; spec/40_integrity.md R207; spec/42_sequencer_common.md R302 to
R308; spec/43_sender.md R358). The hardware takes no exception (60_exceptions.md R500): `complete` is the one way a command ends. -/

namespace Sys2Proof.Machine

/-! ## The block buffer -/

/-- The byte written at index `i` since reset, if any. -/
def Memory.get? : Memory → Nat → Option Byte
  | [], _ => none
  | (k, b) :: m, i => if k = i then some b else Memory.get? m i

/-- Writing one byte, keeping the indices strictly rising. -/
def Memory.store : Memory → Nat → Byte → Memory
  | [], i, v => [(i, v)]
  | (k, b) :: m, i, v =>
    if i < k then (i, v) :: (k, b) :: m
    else if i = k then (i, v) :: m
    else (k, b) :: Memory.store m i v

/-- Writing `d` at indices 0 to `d.length - 1` (44_receiver.md R408). -/
def Memory.storePrefix (m : Memory) (d : List Byte) : Memory :=
  (d.zipIdx.map fun c => (c.2, c.1)) ++ m.filter fun c => decide (d.length ≤ c.1)

/-- The cells from index `lo` on are strictly rising and inside the buffer. -/
def Memory.wfFrom (lo : Nat) : Memory → Bool
  | [] => true
  | (k, _) :: m => decide (lo ≤ k) && decide (k < 1024) && Memory.wfFrom (k + 1) m

/-- The canonical form: indices strictly rising and below 1024. An unlisted index has nothing written. -/
def Memory.wf (m : Memory) : Bool := Memory.wfFrom 0 m

/-- Buf[i]: the byte written there, or the free value of a byte nothing has written since reset (10_state.md R53; log entry 1). -/
def bufByte (s : State) (i : Nat) : Byte := (s.buf.get? i).getD (Config.freeBufByte s.unit s.bufDraw i)

/-- Buf[0 .. n-1]. -/
def bufRun (s : State) (n : Nat) : List Byte := (List.range n).map (bufByte s)

/-- BUFADDR advanced by one, modulo 1024 (20_memory.md R106, R107). -/
def advanceBufAddr (s : State) : State := { s with bufAddr := s.bufAddr + 1 }

/-- The host's store through BUFDATA: Buf[BUFADDR] <- v[7:0], then BUFADDR advances (20_memory.md R107). -/
def bufStore (v : Word) (s : State) : State :=
  advanceBufAddr { s with buf := s.buf.store s.bufAddr.toNat (v.setWidth 8) }

/-- The receiver's data read: Buf[i] <- d[i] for i below min(len(d), P) (44_receiver.md R408). -/
def bufReceive (d : List Byte) (s : State) : State :=
  { s with buf := s.buf.storePrefix (d.take s.hid.p.bytes) }

/-! ## The integrity engine -/

/-- Feed each byte of `d` in turn: both accumulators advance (40_integrity.md R207). -/
def feedAll (d : List Byte) (s : State) : State :=
  { s with crc := crc16 d s.crc, csum := checksum d s.csum }

/-- CRC <- 0; CSUM <- 0 (40_integrity.md R208). -/
def clearEngine (s : State) : State := { s with crc := 0, csum := 0 }

/-! ## The end of a command -/

/-- Complete(code) (42_sequencer_common.md R305): the command ends, the sequencer is idle. -/
def complete (code : ResultCode) (s : State) : State :=
  { s with
    status := { s.status with result := code, busy := false, done := true }
    hid := { s.hid with pt := .idle, cmd := none } }

/-- STATUS.PHASE <- p (42_sequencer_common.md R301). -/
def setPhase (p : Phase) (s : State) : State := { s with status := { s.status with phase := p } }

/-- STATUS.USECRC <- u. -/
def setUseCrc (u : Bool) (s : State) : State := { s with status := { s.status with useCrc := u } }

/-- EndPeerCancel() (42_sequencer_common.md R307): no link byte is sent. -/
def endPeerCancel (s : State) : State := complete .cancelled (setPhase .idle s)

/-! ## Link primitives -/

/-- The start of LinkRead(n, t) at point `pt` (20_memory.md R120, 60_exceptions.md R521). -/
def beginRead (pt : Point) (n : Nat) (t : Half) (s : State) : State :=
  { s with hid := { s.hid with pt := pt, rn := n, rk := 0, rb := [], tmr := t } }

/-- The start of LinkWrite(ws) at point `pt` (20_memory.md R121, R122). -/
def beginWrite (pt : Point) (ws : List Byte) (s : State) : State :=
  { s with hid := { s.hid with pt := pt, ws := ws, wj := 0, tmr := s.sessTmo } }

/-- A LinkRead(1, STMO), the read of every control and header byte (20_memory.md R122). -/
def readOne (pt : Point) (s : State) : State := beginRead pt 1 s.sessTmo s

/-- AbortWithCancel(code) up to its blocking point S_CAN_WR (42_sequencer_common.md R306). -/
def abortWithCancel (code : ResultCode) (s : State) : State := beginWrite (.canWr code) [CAN, CAN] s

/-- The rest of AbortWithCancel, once the cancel pair is taken or its write has timed out (42_sequencer_common.md R306). -/
def finishAbort (code : ResultCode) (s : State) : State := complete code (setPhase .idle s)

/-! ## Retry accounting -/

/-- Limit = max(SESSCFG.RETRY, 1) (42_sequencer_common.md R308). -/
def limit (s : State) : Nat := max s.sessCfg.retry.toNat 1

/-- One more failure brings ERRCNT to the limit: what Fail returns (42_sequencer_common.md R308). -/
def exhausted (s : State) : Bool := decide (limit s ≤ s.errCnt.toNat + 1)

/-- ERRCNT <- ERRCNT + 1 (42_sequencer_common.md R308). -/
def countFailure (s : State) : State := { s with errCnt := s.errCnt + 1 }

/-- Fail(), then abort with `code` if it returns true, else go on as `retry` says (42_sequencer_common.md R308). -/
def failThen (code : ResultCode) (retry : State → State) (s : State) : State :=
  if exhausted s then abortWithCancel code (countFailure s) else retry (countFailure s)

/-- ERRCNT <- 0 (42_sequencer_common.md R310). -/
def clearErrors (s : State) : State := { s with errCnt := 0 }

/-- Whether the purge has discarded a byte since its start or the last tick (log entry 21). -/
def notePurge (heard : Bool) (s : State) : State := { s with purgeHeard := heard }

/-- One more free choice of a purge is taken (log entry 21). -/
def drawPurge (s : State) : State := { s with purgeDraw := s.purgeDraw + 1 }

/-- Progress(): one event with the counters as they stand (43_sender.md R358). -/
def emitProgress (s : State) : State :=
  { s with progress := s.progress ++ [⟨s.totCnt, s.succCnt, s.errCnt⟩] }

/-- SEQ <- (SEQ + 1) mod 256 (41_framing.md R258). -/
def advanceSeq (s : State) : State := { s with seq := s.seq + 1 }

/-! ## Session open and acceptance -/

/-- SessionOpen() (42_sequencer_common.md R304). -/
def sessionOpen (s : State) : State :=
  { s with
    sessCfg := ⟨s.ctrl.mode, s.ctrl.crcPref, s.ctrl.pad, s.ctrl.retry⟩
    sessTmo := s.timeout
    seq := 1
    errCnt := 0
    succCnt := 0
    totCnt := 0
    byteCnt := 0
    rxLen := 0
    status := { s.status with canSeen := false, useCrc := false, phase := .idle } }

/-- What accepting a command word with operands B = `b` and H = `h` writes before its checks (42_sequencer_common.md R302). -/
def accept (b : Byte) (h : Half) (s : State) : State :=
  { s with
    status := { s.status with done := false, result := .none, txto := false, busy := true }
    hid := { s.hid with opb := b, oph := h } }

/-- A CMD write while BUSY = 1 is dropped and recorded in OVR (42_sequencer_common.md R302, 60_exceptions.md R508). -/
def overrun (s : State) : State := { s with status := { s.status with ovr := true } }

/-- The command whose link activity starts: part of PT (10_state.md R54). -/
def startCmd (c : LinkCmd) (s : State) : State := { s with hid := { s.hid with cmd := some c } }

/-- A reset event (70_reset_and_hazards.md R600, R601): every register at its reset value, the buffer's bytes unspecified anew;
the outputs already made are not undone and what waits in the environment stays there. -/
def resetBlock (s : State) : State :=
  { State.reset with
    bufDraw := s.bufDraw + 1
    unit := s.unit
    purgeDraw := s.purgeDraw
    trace := s.trace
    progress := s.progress
    reads := s.reads
    inputs := s.inputs }

end Sys2Proof.Machine
end

