-- ==== Sys2Proof/Machine/Engine.lean ====
section
/-! DEFINITION. The integrity engine's commands (spec/40_integrity.md R208 to R212). Each completes in the accepting step (R311). -/

namespace Sys2Proof.Machine

/-- ENG.CLR (R208). -/
def execEngClr (s : State) : Host.Outcome State Fault Refusal :=
  .next (complete .ok (clearEngine s))

/-- ENG.LDCRC (R209). -/
def execEngLdcrc (h : Half) (s : State) : Host.Outcome State Fault Refusal :=
  .next (complete .ok { s with crc := h })

/-- ENG.LDSUM (R210). -/
def execEngLdsum (b : Byte) (s : State) : Host.Outcome State Fault Refusal :=
  .next (complete .ok { s with csum := b })

/-- ENG.FEED (R211). -/
def execEngFeed (b : Byte) (s : State) : Host.Outcome State Fault Refusal :=
  .next (complete .ok (feedAll [b] s))

/-- ENG.FEEDBUF (R212): BAD_LENGTH above 1024, else feed Buf[0..n-1]. -/
def execEngFeedbuf (n : Half) (s : State) : Host.Outcome State Fault Refusal :=
  .next (if feedCountLegal n then complete .ok (feedAll (bufRun s n.toNat) s) else complete .badLength s)

end Sys2Proof.Machine
end

