-- ==== Sys2Proof/Machine/Frame.lean ====
section
/-! DEFINITION. The framing commands (spec/41_framing.md R259 to R261). Each completes in the accepting step (R311). -/

namespace Sys2Proof.Machine

/-- CRC <- 0; CSUM <- 0; Feed Buf[0..P-1] (the common part of R260 and R261). -/
def feedBlock (p : BlockSize) (s : State) : State := feedAll (bufRun s p.bytes) (clearEngine s)

/-- FRM.HDR (R259). -/
def execFrmHdr (size : Half) (seq : Byte) (s : State) : Host.Outcome State Fault Refusal :=
  match sizeOperand size with
  | none => .next (complete .invalidMode s)
  | some p => .next (complete .ok { s with hdr := headerReg p seq })

/-- TRL <- CRC, or CSUM zero-extended (R260, 43_sender.md R353). -/
def latchTrailer (useCrc : Bool) (s : State) : State :=
  { s with trl := if useCrc then s.crc else s.csum.setWidth 16 }

/-- FRM.TRL (R260). -/
def execFrmTrl (size : Half) (useCrc : Bool) (s : State) : Host.Outcome State Fault Refusal :=
  match sizeOperand size with
  | none => .next (complete .invalidMode s)
  | some p => .next (complete .ok (latchTrailer useCrc (feedBlock p s)))

/-- VALID <- the accumulator agrees with TRL; in checksum mode TRL[15:8] is ignored (R261). -/
def checkTrailer (useCrc : Bool) (s : State) : State :=
  { s with status := { s.status with
      valid := if useCrc then decide (s.crc = s.trl) else decide (s.csum = s.trl.extractLsb' 0 8) } }

/-- FRM.CHK (R261). -/
def execFrmChk (size : Half) (useCrc : Bool) (s : State) : Host.Outcome State Fault Refusal :=
  match sizeOperand size with
  | none => .next (complete .invalidMode s)
  | some p => .next (complete .ok (checkTrailer useCrc (feedBlock p s)))

end Sys2Proof.Machine
end

