-- ==== Sys2Proof/Machine/Receiver.lean ====
section
/-! DEFINITION. The receiver commands (spec/44_receiver.md R401 to R411): the accepting step of each, and what each does when
the LinkRead or LinkWrite it waits in returns. The labels AwaitStart, BlockBody, Drain, Data, Accept, FailPurge and EotEnd are
the functions named after them. -/

namespace Sys2Proof.Machine

/-! ## Shared labels -/

/-- AwaitStart up to its read (R404). -/
def awaitStart (s : State) : State := readOne .rxaRd s

/-- The NAK of a failed block (R404, R410). -/
def sendNak (s : State) : State := beginWrite .rxn2Wr [NAK] s

/-- EotEnd up to its write (R411). -/
def eotEnd (s : State) : State := beginWrite .rxeWr [ACK] s

/-- The purge's next read, LinkRead(1, 1) (20_memory.md R122, R123). -/
def purgeRead (s : State) : State := beginRead .rxpRd 1 1#16 s

/-- Purge() up to its first read (20_memory.md R123). -/
def startPurge (s : State) : State := purgeRead (notePurge false s)

/-- The purge read returned a byte, which is discarded: the loop reads on (20_memory.md R123). -/
def purgeByte (s : State) : State := purgeRead (notePurge true s)

/-- The purge read timed out. With no byte discarded since the purge's start or the last tick the purge returns. With one, the
spec conflicts: R123's loop returns, while R123's prose, 70_reset_and_hazards.md R610, 90 C4 and 93 I6 end a purge only after a
whole tick with no byte; which of the two happens is a free value (DESIGN CHOICE, log entry 21). -/
def purgeTimeout (s : State) : State :=
  if s.purgeHeard then
    (if Config.purgeEnds s.unit s.purgeDraw then sendNak (drawPurge s) else startPurge (drawPurge s))
  else sendNak s

/-- FailPurge up to its first blocking point (R410): no purge on the failure that exhausts the budget. -/
def failPurge (s : State) : State := failThen .integrity startPurge s

/-- P + T for the block at hand (R405). -/
def tailLength (s : State) : Nat := s.hid.p.bytes + s.hid.t.bytes

/-- BlockBody(P) up to its first read (R405). -/
def blockBody (p : BlockSize) (s : State) : State :=
  readOne .rxsRd { s with hid := { s.hid with p := p, t := trailerLen s.status.useCrc } }

/-- Drain up to its read (R407). -/
def drain (s : State) : State := beginRead .rxxRd (tailLength s) s.sessTmo s

/-- Data up to its read (R408). -/
def readData (s : State) : State := beginRead .rxdRd (tailLength s) s.sessTmo s

/-! ## RX.NEG (R401) -/

/-- The probe of the next negotiation round: 'C' in the first half of the budget when CRC is preferred, else NAK (R401). -/
def probeByte (s : State) : Byte :=
  if s.sessCfg.crcPref && decide (s.errCnt.toNat < s.sessCfg.retry.toNat / 2) then CRQ else NAK

/-- One negotiation round up to the write of its probe (R401). -/
def sendProbe (s : State) : State :=
  beginWrite .rxnWr [probeByte s] { s with hid := { s.hid with lastProbe := probeByte s } }

/-- RX.NEG's accepting step (R401). -/
def execRxNeg (s : State) : Host.Outcome State Fault Refusal :=
  if modeLegal s.ctrl.mode then .next (sendProbe (sessionOpen (startCmd .rxNeg s)))
  else .next (complete .invalidMode s)

/-- The reply read timed out (R401). -/
def rxNegTimeout (s : State) : State := failThen .negTimeout sendProbe s

/-- Negotiation ends with a start byte: the mode is that of the last probe (R401). -/
def rxNegotiated (p : BlockSize) (s : State) : State :=
  blockBody p (setPhase .rx (clearErrors (setUseCrc (decide (s.hid.lastProbe = CRQ)) s)))

/-- The reply read returned byte `b` (R401). -/
def rxNegByte (b : Byte) (s : State) : State :=
  match cancelKind b s.status.canSeen with
  | .peerCancel => endPeerCancel s
  | .firstCan => sendProbe (noteCan b s)
  | .other =>
    match sizeOfStart b with
    | some p => rxNegotiated p (noteCan b s)
    | none =>
      if b = EOT then eotEnd (noteCan b s) else failThen .negTimeout sendProbe (noteCan b s)

/-! ## RX.BLK and block reception (R403 to R410) -/

/-- RX.BLK's accepting step (R403). -/
def execRxBlk (s : State) : Host.Outcome State Fault Refusal :=
  if s.status.phase ≠ .rx then .next (complete .badCmd s) else .next (awaitStart (startCmd .rxBlk s))

/-- The start-byte read timed out: a failure, then NAK with no purge (R404). -/
def rxStartTimeout (s : State) : State := failThen .integrity sendNak s

/-- The start-byte read returned byte `b` (R404). -/
def rxStartByte (b : Byte) (s : State) : State :=
  match cancelKind b s.status.canSeen with
  | .peerCancel => endPeerCancel s
  | .firstCan => awaitStart (noteCan b s)
  | .other =>
    if b = EOT then eotEnd (noteCan b s)
    else match sizeOfStart b with
      | some p => blockBody p (noteCan b s)
      | none => failPurge (noteCan b s)

/-- The sequence read returned byte `b` (R405). -/
def rxSeqByte (b : Byte) (s : State) : State :=
  readOne .rxcRd { s with hid := { s.hid with q1 := b } }

/-- The header's two sequence bytes match: Q1 + Q2 = 0xFF as integers and Q1 = SEQ (R406, 41_framing.md R257). -/
def headerMatches (q2 : Byte) (s : State) : Bool :=
  decide (s.hid.q1.toNat + q2.toNat = 0xFF) && decide (s.hid.q1 = s.seq)

/-- The complement read returned byte `b` (R405). -/
def rxCompByte (b : Byte) (s : State) : State := if headerMatches b s then readData s else drain s

/-- RXTRL for a complete tail `d` (R408; 10_state.md R48): first trailer byte most significant. -/
def tailTrailer (p : BlockSize) (t : TrailerLen) (d : List Byte) : Half :=
  match t with
  | .two => d.getD p.bytes 0 ++ d.getD (p.bytes + 1) 0
  | .one => (d.getD p.bytes 0).setWidth 16

/-- What a complete data read leaves: the payload in the buffer, RXTRL, and both accumulators over the payload (R408). -/
def takeTail (d : List Byte) (s : State) : State :=
  feedAll (d.take s.hid.p.bytes)
    (clearEngine { bufReceive d s with rxTrl := tailTrailer s.hid.p s.hid.t d })

/-- The payload agrees with the trailer received (R408). -/
def tailValid (s : State) : Bool :=
  match s.hid.t with
  | .two => decide (s.crc = s.rxTrl)
  | .one => decide (s.csum = s.rxTrl.extractLsb' 0 8)

/-- Accept up to its write (R409). -/
def acceptBlock (s : State) : State :=
  beginWrite .rxkWr [ACK]
    { s with
      rxLen := BitVec.ofNat 11 s.hid.p.bytes
      byteCnt := s.byteCnt + BitVec.ofNat 32 s.hid.p.bytes
      succCnt := s.succCnt + 1
      errCnt := 0 }

/-- The data read returned all P + T bytes `d` (R408). -/
def rxDataComplete (d : List Byte) (s : State) : State :=
  if tailValid (takeTail d s) then acceptBlock (takeTail d s) else failPurge (takeTail d s)

/-- The data read timed out with the bytes `d` (R408). -/
def rxDataTimeout (d : List Byte) (s : State) : State := failPurge (bufReceive d s)

/-! ## The ends (R409, R411) -/

/-- Accept after its ACK: SEQ advances and the command completes (R409). -/
def blockTaken (s : State) : State := complete .block (advanceSeq s)

/-- EotEnd after its ACK (R411). -/
def transferEnded (s : State) : State := complete .succeeded (setPhase .idle s)

end Sys2Proof.Machine
end

