-- ==== Sys2Proof/Machine/Sender.lean ====
section
/-! DEFINITION. The sender commands (spec/43_sender.md R351 to R358): the accepting step of each, and what each does when the
LinkRead or LinkWrite it waits in returns. -/

namespace Sys2Proof.Machine

/-! ## TX.NEG (R351, R352) -/

/-- TX.NEG's accepting step: the mode check, SessionOpen, then the first negotiation read (R351). -/
def execTxNeg (s : State) : Host.Outcome State Fault Refusal :=
  if modeLegal s.ctrl.mode then .next (readOne .txnRd (sessionOpen (startCmd .txNeg s)))
  else .next (complete .invalidMode s)

/-- The negotiation read timed out: one failure, CANSEEN unchanged (R351). -/
def txNegTimeout (s : State) : State := failThen .negTimeout (readOne .txnRd) s

/-- The sender adopts the receiver's mode (R351). -/
def txNegotiated (useCrc : Bool) (s : State) : State :=
  complete .negotiated (setPhase .tx (setUseCrc useCrc s))

/-- The negotiation read returned byte `b` (R351, R352). -/
def txNegByte (b : Byte) (s : State) : State :=
  match cancelKind b s.status.canSeen with
  | .peerCancel => endPeerCancel s
  | .firstCan => readOne .txnRd (noteCan b s)
  | .other =>
    if b = NAK then txNegotiated false (noteCan b s)
    else if b = CRQ then txNegotiated true (noteCan b s)
    else if b = EOT then abortWithCancel .declined (noteCan b s)
    else failThen .negTimeout (readOne .txnRd) (noteCan b s)

/-! ## TX.BLK (R353, R354) -/

/-- The padded payload pl = Buf[0..TXLEN-1] ++ PAD to P bytes (R353). -/
def txPayload (s : State) : List Byte :=
  pad (bufRun s s.txLen.toNat) (txSize s.sessCfg) s.sessCfg.pad

/-- The frame build of TX.BLK's accepting step (R353). -/
def buildFrame (s : State) : State :=
  let p := txSize s.sessCfg
  let fed := latchTrailer s.status.useCrc (feedAll (txPayload s) (clearEngine s))
  { fed with
    totCnt := s.totCnt + 1
    errCnt := 0
    hdr := headerReg p s.seq
    hid := { fed.hid with
      fr := header p s.seq ++ txPayload s ++ trailer s.status.useCrc (txPayload s) } }

/-- One transmission of the frame, LinkWrite(FR) (R354). -/
def sendFrame (s : State) : State := beginWrite .txbWr s.hid.fr s

/-- TX.BLK's accepting step (R353). -/
def execTxBlk (s : State) : Host.Outcome State Fault Refusal :=
  if s.status.phase ≠ .tx then .next (complete .badCmd s)
  else if txLenLegal s.txLen (txSize s.sessCfg) then .next (sendFrame (buildFrame (startCmd .txBlk s)))
  else .next (complete .badLength s)

/-- A failed attempt: Fail, Progress, then abort or resend the same frame (R354). -/
def txBlkFailed (s : State) : State :=
  if exhausted s then abortWithCancel .ackTimeout (emitProgress (countFailure s))
  else sendFrame (emitProgress (countFailure s))

/-- The block was acknowledged (R354). -/
def txBlkAcked (s : State) : State :=
  complete .acked (advanceSeq (emitProgress (clearErrors { s with succCnt := s.succCnt + 1 })))

/-- The reply read returned byte `b` (R354). -/
def txBlkByte (b : Byte) (s : State) : State :=
  match cancelKind b s.status.canSeen with
  | .peerCancel => endPeerCancel s
  | .firstCan => txBlkFailed (noteCan b s)
  | .other => if b = ACK then txBlkAcked (noteCan b s) else txBlkFailed (noteCan b s)

/-! ## TX.EOT (R355) -/

/-- One transmission of EOT (R355). -/
def sendEot (s : State) : State := beginWrite .txeWr [EOT] s

/-- TX.EOT's accepting step (R355). -/
def execTxEot (s : State) : Host.Outcome State Fault Refusal :=
  if s.status.phase ≠ .tx then .next (complete .badCmd s)
  else .next (sendEot (clearErrors (startCmd .txEot s)))

/-- A failed attempt: no progress event (R355). -/
def txEotFailed (s : State) : State := failThen .ackTimeout sendEot s

/-- The reply read returned byte `b` (R355). -/
def txEotByte (b : Byte) (s : State) : State :=
  match cancelKind b s.status.canSeen with
  | .peerCancel => endPeerCancel s
  | .firstCan => txEotFailed (noteCan b s)
  | .other =>
    if b = ACK then complete .succeeded (setPhase .idle (noteCan b s)) else txEotFailed (noteCan b s)

end Sys2Proof.Machine
end

