-- ==== Sys2Proof/Machine/Dispatch.lean ====
section
/-! DEFINITION. One arm per command: the meaning of an accepted command word, from its first check to its first blocking point or
its end (spec/42_sequencer_common.md R302, spec/00_scope.md R8). -/

namespace Sys2Proof.Machine

def exec (i : Instr) (s : State) : Host.Outcome State Fault Refusal :=
  match i with
  | .engClr => Sys2Proof.Machine.execEngClr s
  | .engLdcrc h => Sys2Proof.Machine.execEngLdcrc h s
  | .engLdsum b => Sys2Proof.Machine.execEngLdsum b s
  | .engFeed b => Sys2Proof.Machine.execEngFeed b s
  | .engFeedbuf n => Sys2Proof.Machine.execEngFeedbuf n s
  | .frmHdr size seq => Sys2Proof.Machine.execFrmHdr size seq s
  | .frmTrl size useCrc => Sys2Proof.Machine.execFrmTrl size useCrc s
  | .frmChk size useCrc => Sys2Proof.Machine.execFrmChk size useCrc s
  | .txNeg => Sys2Proof.Machine.execTxNeg s
  | .txBlk => Sys2Proof.Machine.execTxBlk s
  | .txEot => Sys2Proof.Machine.execTxEot s
  | .rxNeg => Sys2Proof.Machine.execRxNeg s
  | .rxBlk => Sys2Proof.Machine.execRxBlk s

end Sys2Proof.Machine
end

