-- ==== Sys2Proof/Machine/HostPort.lean ====
section
/-! DEFINITION. The host register port (spec/10_state.md R31 to R52; spec/20_memory.md R101 to R108) and the submission of a
command word (spec/42_sequencer_common.md R302). -/

namespace Sys2Proof.Machine

/-- The registers of the window (10_state.md R31). -/
inductive Reg where
  | id
  | ctrl
  | timeout
  | cmd
  | status
  | sessCfg
  | sessTmo
  | seq
  | errCnt
  | succCnt
  | totCnt
  | byteCnt
  | crc
  | csum
  | hdr
  | trl
  | rxTrl
  | txLen
  | rxLen
  | bufAddr
  | bufData
  deriving DecidableEq, Repr

/-- The register at a byte offset, by whole words (10_state.md R31); none in the unmapped range. -/
def regAt (off : Byte) : Option Reg :=
  match off with
  | 0x00#8 => some .id
  | 0x04#8 => some .ctrl
  | 0x08#8 => some .timeout
  | 0x0C#8 => some .cmd
  | 0x10#8 => some .status
  | 0x14#8 => some .sessCfg
  | 0x18#8 => some .sessTmo
  | 0x1C#8 => some .seq
  | 0x20#8 => some .errCnt
  | 0x24#8 => some .succCnt
  | 0x28#8 => some .totCnt
  | 0x2C#8 => some .byteCnt
  | 0x30#8 => some .crc
  | 0x34#8 => some .csum
  | 0x38#8 => some .hdr
  | 0x3C#8 => some .trl
  | 0x40#8 => some .rxTrl
  | 0x44#8 => some .txLen
  | 0x48#8 => some .rxLen
  | 0x4C#8 => some .bufAddr
  | 0x50#8 => some .bufData
  | _ => none

/-- The register an access of `width` bits at `off` reaches: only 32 bits wide at an offset with bits [1:0] = 0 (20_memory.md
R101), and only where a register is mapped (R102). -/
def target (width : Nat) (off : Byte) : Option Reg :=
  if width = 32 ∧ off.extractLsb' 0 2 = 0#2 then regAt off else none

/-- ID's constant (10_state.md R32). -/
def idConst : Word := 0x55465831#32

/-- The value a read of a register returns (10_state.md R32 to R52). While BUSY = 1 CRC, CSUM and BUFDATA read 0 (20_memory.md
R105); CMD always does (R102). -/
def regValue (r : Reg) (s : State) : Word :=
  match r with
  | .id => idConst
  | .ctrl => s.ctrl.word
  | .timeout => s.timeout.setWidth 32
  | .cmd => 0
  | .status => statusWord s
  | .sessCfg => s.sessCfg.word
  | .sessTmo => s.sessTmo.setWidth 32
  | .seq => s.seq.setWidth 32
  | .errCnt => s.errCnt.setWidth 32
  | .succCnt => s.succCnt
  | .totCnt => s.totCnt
  | .byteCnt => s.byteCnt
  | .crc => if s.status.busy then 0 else s.crc.setWidth 32
  | .csum => if s.status.busy then 0 else s.csum.setWidth 32
  | .hdr => s.hdr.setWidth 32
  | .trl => s.trl.setWidth 32
  | .rxTrl => s.rxTrl.setWidth 32
  | .txLen => s.txLen.setWidth 32
  | .rxLen => s.rxLen.setWidth 32
  | .bufAddr => s.bufAddr.setWidth 32
  | .bufData => if s.status.busy then 0 else (bufByte s s.bufAddr.toNat).setWidth 32

/-- The side effect of a read: BUFDATA advances BUFADDR while BUSY = 0; no other read has one (20_memory.md R106, R110). -/
def readEffect (r : Reg) (s : State) : State :=
  match r with
  | .bufData => if s.status.busy then s else advanceBufAddr s
  | .id => s
  | .ctrl => s
  | .timeout => s
  | .cmd => s
  | .status => s
  | .sessCfg => s
  | .sessTmo => s
  | .seq => s
  | .errCnt => s
  | .succCnt => s
  | .totCnt => s
  | .byteCnt => s
  | .crc => s
  | .csum => s
  | .hdr => s
  | .trl => s
  | .rxTrl => s
  | .txLen => s
  | .rxLen => s
  | .bufAddr => s

/-- The value goes to the host (10_state.md R55). -/
def answerRead (v : Word) (s : State) : State := { s with reads := s.reads ++ [v] }

/-- A host read (20_memory.md R101, R102, R104). -/
def hostRead (width : Nat) (off : Byte) (s : State) : State :=
  match target width off with
  | none => answerRead 0 s
  | some r => answerRead (regValue r s) (readEffect r s)

/-- A command word accepted: the acceptance effects, then the command it decodes to, or BAD_CMD for a reserved opcode
(42_sequencer_common.md R302, 30_encoding.md R154). -/
def acceptWord (v : Word) (s : State) : Host.Outcome State Fault Refusal :=
  match decode v with
  | .ok i => exec i (accept (fieldB v) (fieldH v) s)
  | .error _ => .next (complete .badCmd (accept (fieldB v) (fieldH v) s))

/-- A write of a command word to CMD (42_sequencer_common.md R302). -/
def submit (v : Word) (s : State) : Host.Outcome State Fault Refusal :=
  if s.status.busy then .next (overrun s) else acceptWord v s

/-- A write that is performed only while BUSY = 0 (20_memory.md R105). -/
def whenIdle (f : State → State) (s : State) : State := if s.status.busy then s else f s

/-- A 32-bit write of `v` to a register (10_state.md R31 to R52; 20_memory.md R102, R105, R107, R108). -/
def writeReg (r : Reg) (v : Word) (s : State) : Host.Outcome State Fault Refusal :=
  match r with
  | .ctrl => .next (whenIdle (fun s => { s with ctrl := Ctrl.ofWord v }) s)
  | .timeout => .next (whenIdle (fun s => { s with timeout := v.setWidth 16 }) s)
  | .cmd => submit v s
  | .status => .next { s with status := Status.write v s.status }
  | .seq => .next (whenIdle (fun s => { s with seq := v.setWidth 8 }) s)
  | .trl => .next (whenIdle (fun s => { s with trl := v.setWidth 16 }) s)
  | .txLen => .next (whenIdle (fun s => { s with txLen := v.setWidth 11 }) s)
  | .bufAddr => .next (whenIdle (fun s => { s with bufAddr := v.setWidth 10 }) s)
  | .bufData => .next (whenIdle (bufStore v) s)
  | .id => .next s
  | .sessCfg => .next s
  | .sessTmo => .next s
  | .errCnt => .next s
  | .succCnt => .next s
  | .totCnt => .next s
  | .byteCnt => .next s
  | .crc => .next s
  | .csum => .next s
  | .hdr => .next s
  | .rxTrl => .next s
  | .rxLen => .next s

/-- A host write (20_memory.md R101, R102, R104). -/
def hostWrite (width : Nat) (off : Byte) (v : Word) (s : State) : Host.Outcome State Fault Refusal :=
  match target width off with
  | none => .next s
  | some r => writeReg r v s

/-- The offset of CMD (10_state.md R31). -/
def cmdOffset : Byte := 0x0C#8

end Sys2Proof.Machine
end

