-- ==== Sys2Proof/Machine/Link.lean ====
section
/-! DEFINITION. What the link and timebase events do at each blocking point (spec/20_memory.md R120, R121, R123, R124;
spec/60_exceptions.md R520, R521): a waiting primitive goes on or returns, and a return runs the command's next atomic step. -/

namespace Sys2Proof.Machine

/-- The running LinkRead returned OK: the caller's next atomic step. `b` is the byte that completed the read and the bytes
received are in RB; a one-byte read's byte is RB[0]. The data read needs exactly P + T bytes (44_receiver.md R408; log entry 6). -/
def readDone (s : State) (b : Byte) : Host.Outcome State Fault Refusal :=
  match s.hid.pt with
  | .txnRd => .next (txNegByte (s.hid.rb.headD b) s)
  | .txbRd => .next (txBlkByte (s.hid.rb.headD b) s)
  | .txeRd => .next (txEotByte (s.hid.rb.headD b) s)
  | .rxnRd => .next (rxNegByte (s.hid.rb.headD b) s)
  | .rxaRd => .next (rxStartByte (s.hid.rb.headD b) s)
  | .rxsRd => .next (rxSeqByte (s.hid.rb.headD b) s)
  | .rxcRd => .next (rxCompByte (s.hid.rb.headD b) s)
  | .rxdRd => if s.hid.rb.length = tailLength s then .next (rxDataComplete s.hid.rb s) else .fault .wrongDataLength
  | .rxxRd => .next (failPurge s)
  | .rxpRd => .next (purgeByte s)
  | .idle => .next s
  | .txbWr => .next s
  | .txeWr => .next s
  | .rxnWr => .next s
  | .rxkWr => .next s
  | .rxn2Wr => .next s
  | .rxeWr => .next s
  | .canWr _ => .next s

/-- The running LinkRead timed out: the caller's next atomic step. -/
def readTimeout (s : State) : State :=
  match s.hid.pt with
  | .txnRd => txNegTimeout s
  | .txbRd => txBlkFailed s
  | .txeRd => txEotFailed s
  | .rxnRd => rxNegTimeout s
  | .rxaRd => rxStartTimeout s
  | .rxsRd => drain s
  | .rxcRd => drain s
  | .rxdRd => rxDataTimeout s.hid.rb s
  | .rxxRd => failPurge s
  | .rxpRd => purgeTimeout s
  | .idle => s
  | .txbWr => s
  | .txeWr => s
  | .rxnWr => s
  | .rxkWr => s
  | .rxn2Wr => s
  | .rxeWr => s
  | .canWr _ => s

/-- The running LinkWrite returned, complete or abandoned alike (20_memory.md R121): the caller's next atomic step. -/
def writeDone (s : State) : State :=
  match s.hid.pt with
  | .txbWr => readOne .txbRd s
  | .txeWr => readOne .txeRd s
  | .rxnWr => readOne .rxnRd s
  | .rxkWr => blockTaken s
  | .rxn2Wr => awaitStart s
  | .rxeWr => transferEnded s
  | .canWr code => finishAbort code s
  | .idle => s
  | .txnRd => s
  | .txbRd => s
  | .txeRd => s
  | .rxnRd => s
  | .rxaRd => s
  | .rxsRd => s
  | .rxcRd => s
  | .rxdRd => s
  | .rxxRd => s
  | .rxpRd => s

/-- RB <- RB ++ [b]; RK <- RK + 1 (20_memory.md R120). -/
def gather (b : Byte) (s : State) : State :=
  { s with hid := { s.hid with rb := s.hid.rb ++ [b], rk := s.hid.rk + 1 } }

/-- rx(b) while a LinkRead waits (20_memory.md R120). -/
def onRx (b : Byte) (s : State) : Host.Outcome State Fault Refusal :=
  if s.hid.rk + 1 = s.hid.rn then readDone (gather b s) b else .next (gather b s)

/-- trace <- trace ++ [WS[WJ]]; WJ <- WJ + 1 (20_memory.md R121). -/
def sendByte (b : Byte) (s : State) : State :=
  { s with trace := s.trace ++ [b], hid := { s.hid with wj := s.hid.wj + 1 } }

/-- txtake while a LinkWrite waits (20_memory.md R121). -/
def onTake (s : State) : Host.Outcome State Fault Refusal :=
  match s.hid.ws[s.hid.wj]? with
  | none => .fault .nothingToPresent
  | some b =>
    if s.hid.wj + 1 = s.hid.ws.length then .next (writeDone (sendByte b s)) else .next (sendByte b s)

/-- TMR <- TMR - 1 (60_exceptions.md R521). -/
def countTick (s : State) : State := { s with hid := { s.hid with tmr := s.hid.tmr - 1 } }

/-- STATUS.TXTO <- 1 (20_memory.md R121). -/
def setTxto (s : State) : State := { s with status := { s.status with txto := true } }

/-- tick (60_exceptions.md R520, R521): the timer step of the waiting primitive; no effect at any other time. -/
def onTick (s : State) : State :=
  if s.hid.pt.isRead then (if s.hid.tmr.toNat ≤ 1 then readTimeout s else countTick s)
  else if s.hid.pt.isWrite then (if s.hid.tmr.toNat ≤ 1 then writeDone (setTxto s) else countTick s)
  else s

end Sys2Proof.Machine
end

