-- ==== Sys2Proof/Machine/Events.lean ====
section
/-! DEFINITION. Which waiting input event the block takes next and what it does with it (spec/00_scope.md R8, R9;
spec/20_memory.md R124, R125; log entries 2 and 3). -/

namespace Sys2Proof.Machine

/-- Whether an event is enabled at a blocking point: `rx` only while a LinkRead waits, `txtake` only while a LinkWrite waits,
the others always (00_scope.md R9, 20_memory.md R124). -/
def Event.enabled (pt : Point) : Event → Bool
  | .rx _ => pt.isRead
  | .txtake => pt.isWrite
  | .hostWr _ _ _ => true
  | .hostRd _ _ => true
  | .tick => true
  | .reset => true

/-- The earliest enabled event of the list and the list without it; a disabled event stays where it is, in order
(20_memory.md R124). -/
def takeInput (pt : Point) : List Event → Option (Event × List Event)
  | [] => none
  | e :: es =>
    if Event.enabled pt e then some (e, es)
    else match takeInput pt es with
      | none => none
      | some (e', rest) => some (e', e :: rest)

/-- One event, one atomic step (00_scope.md R8, R9). -/
def handle (e : Event) (s : State) : Host.Outcome State Fault Refusal :=
  match e with
  | .hostWr width off v => hostWrite width off v s
  | .hostRd width off => .next (hostRead width off s)
  | .rx b => onRx b s
  | .txtake => onTake s
  | .tick => .next (onTick s)
  | .reset => .next (resetBlock s)

/-- The state with its waiting events replaced. -/
def withInputs (es : List Event) (s : State) : State := { s with inputs := es }

/-- Take the next enabled event; with none, nothing happens (60_exceptions.md R526; log entry 3). -/
def advance (s : State) : Host.Outcome State Fault Refusal :=
  match takeInput s.hid.pt s.inputs with
  | none => .next s
  | some (e, rest) => handle e (withInputs rest s)

/-- The sequencer with no command running, which the next command needs. -/
def idleSequencer (s : State) : State :=
  { s with
    status := { s.status with busy := false }
    hid := { s.hid with pt := .idle, cmd := none } }

/-- The machine whose next event is the host's write of `w` to CMD, with the sequencer free to accept it (log entry 3). -/
def placeCommand (w : Word) (s : State) : State :=
  withInputs (.hostWr 32 cmdOffset w :: s.inputs) (idleSequencer s)

end Sys2Proof.Machine
end

