-- ==== Sys2Proof/Machine/Step.lean ====
section
/-! DEFINITION. One step of UF-XFER: one input event (spec/00_scope.md R9). -/

namespace Sys2Proof.Machine

/-- One step: the block takes the next enabled input event and runs one atomic step. -/
def step (s : State) : Host.Outcome State Fault Refusal := advance s

/-- `s` with the command word of the opcode table's number `w` as the very next thing it runs: the host's write to CMD. -/
def State.withFetchWord (s : State) (nbits w : Nat) : State := placeCommand (tableWord nbits w) s

end Sys2Proof.Machine
end

