-- ==== Sys2Proof/Machine/HostProgram.lean ====
section
/-! DEFINITION. Host programs: the accesses and commands a host composes (spec/30_encoding.md R158, R159; spec/43_sender.md R359;
spec/44_receiver.md R413; spec/70_reset_and_hazards.md R603). The host is environment: nothing here is part of the block's step. -/

namespace Sys2Proof.Machine

/-- One line of a host program (R158). -/
inductive HostOp where
  | wr (off : Byte) (v : Word)
  | rd (off : Byte)
  | cmd (i : Instr)
  | wait
  deriving DecidableEq, Repr

/-- The host access a line makes; `wait` makes one poll of STATUS (R158). -/
def HostOp.event : HostOp → Event
  | .wr off v => .hostWr 32 off v
  | .rd off => .hostRd 32 off
  | .cmd i => .hostWr 32 cmdOffset (encode i)
  | .wait => .hostRd 32 0x10#8

/-- The line is over once its access returned `answer`: `wait` polls until BUSY, bit 0, reads 0 (R158). -/
def HostOp.over (answer : Word) : HostOp → Bool
  | .wr _ _ => true
  | .rd _ => true
  | .cmd _ => true
  | .wait => !answer.getLsbD 0

/-- ENG.CALC n (R159). -/
def engCalc (n : Half) : List HostOp := [.cmd .engClr, .cmd (.engFeedbuf n)]

/-- ENG.CHAIN c, s, n (R159). -/
def engChain (c : Half) (s : Byte) (n : Half) : List HostOp :=
  [.cmd (.engLdcrc c), .cmd (.engLdsum s), .cmd (.engFeedbuf n)]

/-- fill s (R159). -/
def fillBuffer (d : List Byte) : List HostOp :=
  .wr 0x4C#8 0 :: d.map fun b => .wr 0x50#8 (b.setWidth 32)

/-- drain n (R159). -/
def drainBuffer (n : Nat) : List HostOp := .wr 0x4C#8 0 :: List.replicate n (.rd 0x50#8)

/-- send s (R159). -/
def sendChunk (d : List Byte) : List HostOp :=
  fillBuffer d ++ [.wr 0x44#8 (BitVec.ofNat 32 d.length), .cmd .txBlk, .wait]

/-- The accesses of a program with no `wait`, in order: what the host puts before the block. -/
def hostEvents (ops : List HostOp) : List Event := ops.map HostOp.event

/-- The optional first lines of either side: `wr CTRL, cfg` and `wr TIMEOUT, t` (70_reset_and_hazards.md R603). -/
def configure (cfg tmo : Option Word) : List HostOp :=
  (cfg.toList.map fun v => .wr 0x04#8 v) ++ tmo.toList.map fun v => .wr 0x08#8 v

/-! ## A host's turn -/

/-- The block takes the event `e` next, its waiting events kept; an event that is not enabled there does not happen
(20_memory.md R124). -/
def stepWith (e : Event) (s : State) : Host.Outcome State Fault Refusal :=
  if Event.enabled s.hid.pt e then step (withInputs (e :: s.inputs) s) else .next s

/-- What the last host read returned. -/
def lastAnswer (s : State) : Word := s.reads.getLastD 0

/-- The lines still to run once the access of the first has left the block in `s`: a `wait` that reads BUSY = 1 stays (R158). -/
def remaining (ops : List HostOp) (s : State) : List HostOp :=
  match ops with
  | [] => []
  | op :: rest => if op.over (lastAnswer s) then rest else op :: rest

/-! ## The whole send (R359) -/

/-- Where the sender's host stands: which RESULT it requires next, or how it ended. -/
inductive SendStage where
  | negotiating
  | streaming (p : BlockSize)
  | ending
  | finished
  | failed
  deriving DecidableEq, Repr

/-- P <- 128 if CTRL.MODE = 0 else 1024, from CTRL as the host reads it (R359). -/
def hostSize (ctrl : Word) : BlockSize := if ctrl.extractLsb' 0 2 = 0#2 then .classic else .extended

/-- `cmd TX.NEG; wait`, the first lines of a whole send (R359). -/
def sendOpening : List HostOp := [.cmd .txNeg, .wait]

/-- The next chunk of the source data, or TX.EOT when none is left (R359). -/
def nextChunk (p : BlockSize) (rest : List Byte) : SendStage × List HostOp × List Byte :=
  if rest = [] then (.ending, [.cmd .txEot, .wait], [])
  else (.streaming p, sendChunk (rest.take p.bytes), rest.drop p.bytes)

/-- The sender's host after the command of `stage` ended with `result`, CTRL reading `ctrl` and `rest` still to send: its stage,
its next lines and what is then left (R359). P is fixed once, when RESULT = NEGOTIATED. -/
def senderHost (ctrl : Word) (stage : SendStage) (result : ResultCode) (rest : List Byte) :
    SendStage × List HostOp × List Byte :=
  match stage with
  | .negotiating => if result = .negotiated then nextChunk (hostSize ctrl) rest else (.failed, [], rest)
  | .streaming p => if result = .acked then nextChunk p rest else (.failed, [], rest)
  | .ending => if result = .succeeded then (.finished, [], rest) else (.failed, [], rest)
  | .finished => (.finished, [], rest)
  | .failed => (.failed, [], rest)

/-- A host that sends, with the block it drives: its stage, the lines it has still to run and the data it has still to send. -/
structure Sending where
  block : State
  stage : SendStage
  ops : List HostOp
  rest : List Byte
  deriving DecidableEq, Repr

/-- A whole send of `d` begins, on a block as it stands, after the optional configuration (R359, R603). -/
def Sending.start (cfg tmo : Option Word) (d : List Byte) (s : State) : Sending :=
  { block := s, stage := .negotiating, ops := configure cfg tmo ++ sendOpening, rest := d }

/-- With no line left the host reads RESULT and goes on as R359 says. -/
def Sending.proceed (h : Sending) : Sending :=
  let (stage, ops, rest) := senderHost (regValue .ctrl h.block) h.stage h.block.status.result h.rest
  { h with stage := stage, ops := ops, rest := rest }

/-- One turn of the host: the access of its next line, or, with none left, its decision (R359). Between turns the block takes
the link's and the timebase's events. -/
def Sending.turn (h : Sending) : Host.Outcome Sending Fault Refusal :=
  match h.ops with
  | [] => .next h.proceed
  | op :: _ => match stepWith op.event h.block with
    | .next t => .next { h with block := t, ops := remaining h.ops t }
    | .fault r => .fault r
    | .refused r => .refused r

/-! ## The whole receive (44_receiver.md R413) -/

/-- Where the receiver's host stands, or how it ended. -/
inductive ReceiveStage where
  | receiving
  | finished
  | failed
  deriving DecidableEq, Repr

/-- `cmd RX.NEG; wait`, the first lines of a whole receive (R413). -/
def receiveOpening : List HostOp := [.cmd .rxNeg, .wait]

/-- The receiver's host after RX.NEG or RX.BLK ended with `result` and RXLEN = `len`: its stage and its next lines (R413). -/
def receiverHost (result : ResultCode) (len : BitVec 11) : ReceiveStage × List HostOp :=
  if result = .block then (.receiving, drainBuffer len.toNat ++ [.cmd .rxBlk, .wait])
  else if result = .succeeded then (.finished, [])
  else (.failed, [])

/-- A host that receives, with the block it drives: its stage, the lines it has still to run and the bytes in its sink. -/
structure Receiving where
  block : State
  stage : ReceiveStage
  ops : List HostOp
  sink : List Byte
  deriving DecidableEq, Repr

/-- A whole receive begins, on a block as it stands, after the optional configuration (R413, R603). -/
def Receiving.start (cfg tmo : Option Word) (s : State) : Receiving :=
  { block := s, stage := .receiving, ops := configure cfg tmo ++ receiveOpening, sink := [] }

/-- With no line left the host reads RESULT and RXLEN and goes on as R413 says; an ended host stays as it is. -/
def Receiving.proceed (h : Receiving) : Receiving :=
  match h.stage with
  | .receiving =>
    let (stage, ops) := receiverHost h.block.status.result h.block.rxLen
    { h with stage := stage, ops := ops }
  | .finished => h
  | .failed => h

/-- The bytes a line's answer adds to the sink: a BUFDATA read appends the byte it returned (R413). -/
def HostOp.drained (answer : Word) : HostOp → List Byte
  | .rd off => if off = 0x50#8 then [answer.setWidth 8] else []
  | .wr _ _ => []
  | .cmd _ => []
  | .wait => []

/-- One turn of the host: the access of its next line, or, with none left, its decision (R413). -/
def Receiving.turn (h : Receiving) : Host.Outcome Receiving Fault Refusal :=
  match h.ops with
  | [] => .next h.proceed
  | op :: _ => match stepWith op.event h.block with
    | .next t => .next { h with block := t, ops := remaining h.ops t, sink := h.sink ++ op.drained (lastAnswer t) }
    | .fault r => .fault r
    | .refused r => .refused r

end Sys2Proof.Machine
end

