-- ==== Sys2Proof/Machine/Pair.lean ====
section
/-! DEFINITION. Two instances wired back to back by two one-way byte pipes (spec/60_exceptions.md R524). They share no state, each
has its own number, and with it its own base address and free values (`Config`), and each one's transmit trace is the other's receive stream. One instance facing a
software peer is a State alone, whose peer is the environment. -/

namespace Sys2Proof.Machine

/-- The two instances of a pair. -/
inductive Side where
  | a
  | b
  deriving DecidableEq, Repr

/-- Instances A and B, with how many bytes of each one's trace the other has received: the rest of a trace is in its pipe. -/
structure Pair where
  a : State
  b : State
  takenByB : Nat
  takenByA : Nat
  deriving DecidableEq, Repr

/-- The events that reach an instance from elsewhere than its peer: every event but `rx`. -/
inductive OwnEvent where
  | hostWr (width : Nat) (off : Byte) (v : Word)
  | hostRd (width : Nat) (off : Byte)
  | txtake
  | tick
  | reset
  deriving DecidableEq, Repr

/-- The input event of the instance it reaches. -/
def OwnEvent.event : OwnEvent → Event
  | .hostWr width off v => .hostWr width off v
  | .hostRd width off => .hostRd width off
  | .txtake => .txtake
  | .tick => .tick
  | .reset => .reset

/-- What can happen next: an event of one instance alone, or the next byte of a pipe reaching its reader. -/
inductive PairEvent where
  | own (side : Side) (e : OwnEvent)
  | deliver (reader : Side)
  deriving DecidableEq, Repr

/-- An instance of the pair. -/
def Pair.inst (w : Pair) : Side → State
  | .a => w.a
  | .b => w.b

/-- The pair with one instance replaced. -/
def Pair.setInst (w : Pair) (side : Side) (s : State) : Pair :=
  match side with
  | .a => { w with a := s }
  | .b => { w with b := s }

/-- The next byte of the pipe an instance reads from: the first byte of the other's trace that has not reached it. -/
def Pair.waiting (w : Pair) : Side → Option Byte
  | .a => w.b.trace[w.takenByA]?
  | .b => w.a.trace[w.takenByB]?

/-- The pair with one byte gone from the pipe an instance reads from. -/
def Pair.consume (w : Pair) : Side → Pair
  | .a => { w with takenByA := w.takenByA + 1 }
  | .b => { w with takenByB := w.takenByB + 1 }

/-- The instance on one side takes the event `e` next, its own waiting events kept; the other is untouched. -/
def Pair.stepSide (side : Side) (e : Event) (w : Pair) : Host.Outcome Pair Fault Refusal :=
  match stepWith e (w.inst side) with
  | .next s => .next (w.setInst side s)
  | .fault r => .fault r
  | .refused r => .refused r

/-- One event of the pair. An instance's `rx` bytes are those of the other's trace, in order and each once; a pipe with no byte
waiting, or whose reader is in no LinkRead, does not move (20_memory.md R124). -/
def Pair.move (e : PairEvent) (w : Pair) : Host.Outcome Pair Fault Refusal :=
  match e with
  | .own side e => w.stepSide side e.event
  | .deliver reader =>
    match w.waiting reader with
    | none => .next w
    | some c => if (w.inst reader).hid.pt.isRead then (w.consume reader).stepSide reader (.rx c) else .next w

/-- The two instances are two: their numbers differ, so neither their base addresses nor their free values are one. -/
abbrev Pair.distinct (w : Pair) : Prop := w.a.unit ≠ w.b.unit

/-- Two instances right after reset, numbered 0 and 1, both pipes empty. -/
def Pair.reset : Pair := { a := State.reset, b := { State.reset with unit := 1 }, takenByB := 0, takenByA := 0 }

end Sys2Proof.Machine
end

