-- ==== Sys2Proof/Safety.lean ====
section
/-! DEFINITION. The terms claims are stated in: taking a given event next, what a waiting command does, and the invariant that
every step keeps. -/

namespace Sys2Proof.Machine

/-! ## One event -/

/-- The block, with `e` put first among its waiting events, takes it and goes to `t` (spec/00_scope.md R8, R9). -/
def Takes (e : Event) (s t : State) : Prop := step (withInputs (e :: s.inputs) s) = .next t

/-- The block takes the events of a list one after another, each put first among its waiting events. -/
def runEvents : List Event → State → Host.Outcome State Fault Refusal
  | [], s => .next s
  | e :: es, s =>
    match step (withInputs (e :: s.inputs) s) with
    | .next t => runEvents es t
    | .fault r => .fault r
    | .refused r => .refused r

/-- The immediate commands (42_sequencer_common.md R311). -/
def isImmediate : Instr → Bool
  | .engClr => true
  | .engLdcrc _ => true
  | .engLdsum _ => true
  | .engFeed _ => true
  | .engFeedbuf _ => true
  | .frmHdr _ _ => true
  | .frmTrl _ _ => true
  | .frmChk _ _ => true
  | .txNeg => false
  | .txBlk => false
  | .txEot => false
  | .rxNeg => false
  | .rxBlk => false

/-- The reserved bits of a register: those 10_state.md R32 to R52 list no field for. CMD has none (30_encoding.md R150). -/
def reservedBits : Reg → Word
  | .id => 0
  | .ctrl => 0xFF0000F0#32
  | .timeout => 0xFFFF0000#32
  | .cmd => 0
  | .status => 0xFF000C80#32
  | .sessCfg => 0xFF0000F8#32
  | .sessTmo => 0xFFFF0000#32
  | .seq => 0xFFFFFF00#32
  | .errCnt => 0xFFFFFF00#32
  | .succCnt => 0
  | .totCnt => 0
  | .byteCnt => 0
  | .crc => 0xFFFF0000#32
  | .csum => 0xFFFFFF00#32
  | .hdr => 0xFF000000#32
  | .trl => 0xFFFF0000#32
  | .rxTrl => 0xFFFF0000#32
  | .txLen => 0xFFFFF800#32
  | .rxLen => 0xFFFFF800#32
  | .bufAddr => 0xFFFFFC00#32
  | .bufData => 0xFFFFFF00#32

/-- The registers the host can only read (10_state.md R31, access RO). -/
def isReadOnly : Reg → Bool
  | .id => true
  | .sessCfg => true
  | .sessTmo => true
  | .errCnt => true
  | .succCnt => true
  | .totCnt => true
  | .byteCnt => true
  | .crc => true
  | .csum => true
  | .hdr => true
  | .rxTrl => true
  | .rxLen => true
  | .ctrl => false
  | .timeout => false
  | .cmd => false
  | .status => false
  | .seq => false
  | .trl => false
  | .txLen => false
  | .bufAddr => false
  | .bufData => false

/-- The command waits at `pt` in a LinkRead(1, ·) that has received nothing (spec/20_memory.md R120). -/
abbrev Awaits (pt : Point) (s : State) : Prop := s.hid.pt = pt ∧ s.hid.rn = 1 ∧ s.hid.rk = 0 ∧ s.hid.rb = []

/-- The command goes from `s` to a fresh LinkRead(n, tmo) at `pt`, still running (20_memory.md R120). -/
abbrev ReadsNext (pt : Point) (n : Nat) (tmo : Half) (s t : State) : Prop :=
  t.hid.pt = pt ∧ t.hid.rn = n ∧ t.hid.rk = 0 ∧ t.hid.rb = [] ∧ t.hid.tmr = tmo ∧ t.hid.cmd = s.hid.cmd ∧
    t.status.busy = s.status.busy ∧ t.status.done = s.status.done ∧ t.status.result = s.status.result

/-- The command goes from `s` to the first read of a purge, LinkRead(1, 1), with no byte purged yet (20_memory.md R122, R123). -/
abbrev PurgeStarts (s t : State) : Prop := ReadsNext .rxpRd 1 1#16 s t ∧ t.purgeHeard = false

/-- The command goes from `s` to a fresh LinkWrite(ws) at `pt`, still running (20_memory.md R121, R122). -/
abbrev WritesNext (pt : Point) (ws : List Byte) (s t : State) : Prop :=
  t.hid.pt = pt ∧ t.hid.ws = ws ∧ t.hid.wj = 0 ∧ t.hid.tmr = s.sessTmo ∧ t.hid.cmd = s.hid.cmd ∧
    t.status.busy = s.status.busy ∧ t.status.done = s.status.done ∧ t.status.result = s.status.result

/-- The command ends with `code` in phase `ph` (42_sequencer_common.md R305). -/
abbrev Ends (code : ResultCode) (ph : Phase) (t : State) : Prop :=
  t.status.result = code ∧ t.status.busy = false ∧ t.status.done = true ∧ t.hid.pt = .idle ∧ t.status.phase = ph

/-- The command starts the abort write of two CANs, to end with `code` (42_sequencer_common.md R306). -/
abbrev Aborts (code : ResultCode) (s t : State) : Prop := WritesNext (.canWr code) [CAN, CAN] s t

/-- One failure is counted, and the budget decides between the abort with `code` and `again` (42_sequencer_common.md R308). -/
abbrev Fails (code : ResultCode) (again : Prop) (s t : State) : Prop :=
  t.errCnt = s.errCnt + 1 ∧
    (max s.sessCfg.retry.toNat 1 ≤ s.errCnt.toNat + 1 → Aborts code s t) ∧
    (s.errCnt.toNat + 1 < max s.sessCfg.retry.toNat 1 → again)

/-! ## The invariant -/

/-- Which command a blocking point belongs to (42_sequencer_common.md R312, column "command"). -/
def cmdFits : Point → Option LinkCmd → Bool
  | .idle, c => c == none
  | .txnRd, c => c == some .txNeg
  | .txbWr, c => c == some .txBlk
  | .txbRd, c => c == some .txBlk
  | .txeWr, c => c == some .txEot
  | .txeRd, c => c == some .txEot
  | .rxnWr, c => c == some .rxNeg
  | .rxnRd, c => c == some .rxNeg
  | .rxaRd, c => c == some .rxNeg || c == some .rxBlk
  | .rxsRd, c => c == some .rxNeg || c == some .rxBlk
  | .rxcRd, c => c == some .rxNeg || c == some .rxBlk
  | .rxdRd, c => c == some .rxNeg || c == some .rxBlk
  | .rxxRd, c => c == some .rxNeg || c == some .rxBlk
  | .rxpRd, c => c == some .rxNeg || c == some .rxBlk
  | .rxkWr, c => c == some .rxNeg || c == some .rxBlk
  | .rxn2Wr, c => c == some .rxNeg || c == some .rxBlk
  | .rxeWr, c => c == some .rxNeg || c == some .rxBlk
  | .canWr .negTimeout, c => c == some .txNeg || c == some .rxNeg
  | .canWr .declined, c => c == some .txNeg
  | .canWr .ackTimeout, c => c == some .txBlk || c == some .txEot
  | .canWr .integrity, c => c == some .rxNeg || c == some .rxBlk
  | .canWr _, _ => false

/-- Which phases a blocking point can be reached in (42_sequencer_common.md R301, R303). -/
def phaseFits : Point → Phase → Bool
  | .idle, _ => true
  | .txnRd, ph => ph == .idle
  | .txbWr, ph => ph == .tx
  | .txbRd, ph => ph == .tx
  | .txeWr, ph => ph == .tx
  | .txeRd, ph => ph == .tx
  | .rxnWr, ph => ph == .idle
  | .rxnRd, ph => ph == .idle
  | .rxaRd, ph => ph == .rx
  | .rxsRd, ph => ph == .rx
  | .rxcRd, ph => ph == .rx
  | .rxdRd, ph => ph == .rx
  | .rxxRd, ph => ph == .rx
  | .rxpRd, ph => ph == .rx
  | .rxkWr, ph => ph == .rx
  | .rxn2Wr, ph => ph == .rx
  | .rxeWr, ph => ph == .idle || ph == .rx
  | .canWr _, _ => true

/-- How many bytes the LinkRead at a point asks for (42_sequencer_common.md R312, column "primitive"). -/
def readCount (s : State) : Point → Nat
  | .rxdRd => s.hid.p.bytes + s.hid.t.bytes
  | .rxxRd => s.hid.p.bytes + s.hid.t.bytes
  | _ => 1

/-- What the LinkWrite at a point sends (42_sequencer_common.md R312, column "primitive"). -/
def writeBytes (s : State) : Point → List Byte
  | .txbWr => s.hid.fr
  | .txeWr => [EOT]
  | .rxnWr => [s.hid.lastProbe]
  | .rxkWr => [ACK]
  | .rxn2Wr => [NAK]
  | .rxeWr => [ACK]
  | .canWr _ => [CAN, CAN]
  | _ => []

/-- The payload inside TX.BLK's frame. -/
def framePayload (s : State) : List Byte := (s.hid.fr.drop 3).take (txSize s.sessCfg).bytes

/-- BUSY, PT, PHASE, DONE and RESULT agree (10_state.md R56; 42_sequencer_common.md R301, R305, R312). -/
abbrev ControlOk (s : State) : Prop :=
  (s.status.busy = true ↔ s.hid.pt ≠ .idle) ∧ cmdFits s.hid.pt s.hid.cmd = true ∧ phaseFits s.hid.pt s.status.phase = true ∧
    (s.status.busy = true → s.status.done = false ∧ s.status.result = .none) ∧
    (s.status.done = true → s.status.result ≠ .none)

/-- ERRCNT never exceeds Limit, and is below it while failures can still be counted (42_sequencer_common.md R308). -/
abbrev BudgetOk (s : State) : Prop :=
  s.errCnt.toNat ≤ limit s ∧
    (s.hid.pt.isRead = true ∨ (s.hid.pt.isWrite = true ∧ s.hid.pt.code ≠ 0x30#8) ∨ s.status.phase ≠ .idle ∧ s.hid.pt = .idle →
      s.errCnt.toNat < limit s)

/-- The running LinkRead or LinkWrite is the one of its blocking point and is not finished (20_memory.md R120, R121). -/
abbrev LinkOk (s : State) : Prop :=
  (s.hid.pt.isRead = true → s.hid.rn = readCount s s.hid.pt ∧ s.hid.rk = s.hid.rb.length ∧ s.hid.rk < s.hid.rn) ∧
    (s.hid.pt.isWrite = true → s.hid.ws = writeBytes s s.hid.pt ∧ s.hid.wj < s.hid.ws.length)

/-- While TX.BLK runs, FR is the frame of SEQ and of a payload of P bytes (43_sender.md R353, 41_framing.md R256). -/
abbrev FrameOk (s : State) : Prop :=
  s.hid.pt = .txbWr ∨ s.hid.pt = .txbRd →
    (framePayload s).length = (txSize s.sessCfg).bytes ∧
      s.hid.fr = header (txSize s.sessCfg) s.seq ++ framePayload s ++ trailer s.status.useCrc (framePayload s)

/-- The receiver's T follows USECRC while a block is read, and the last probe is 'C' or NAK (44_receiver.md R401, R405). -/
abbrev ReceiverOk (s : State) : Prop :=
  (s.hid.pt = .rxsRd ∨ s.hid.pt = .rxcRd ∨ s.hid.pt = .rxdRd ∨ s.hid.pt = .rxxRd → s.hid.t = trailerLen s.status.useCrc) ∧
    (s.hid.pt = .rxnWr ∨ s.hid.pt = .rxnRd → s.hid.lastProbe = CRQ ∨ s.hid.lastProbe = NAK) ∧
    (s.rxLen = 0 ∨ s.rxLen = 128 ∨ s.rxLen = 1024)

/-- The invariant of the block: its buffer is canonical, its control state is one the rules reach, its latched mode is legal. -/
abbrev BlockInv (s : State) : Prop :=
  s.buf.wf = true ∧ modeLegal s.sessCfg.mode = true ∧ ControlOk s ∧ BudgetOk s ∧ LinkOk s ∧ FrameOk s ∧ ReceiverOk s

end Sys2Proof.Machine
end

