-- ==== Sys2Proof/Certificates/Slice0/Obligations.lean ====
section
/-! DEFINITION. The statements for the provers. Each docstring names the rule or the section of spec/ it formalises. -/

open Sys2Proof Sys2Proof.Machine

/-! ## Encoding (30_encoding.md) -/

/-- R150 to R157: decoding the word R157 writes for a command gives the command back, with every operand at every value; and
encoding what a word decodes to gives that word with its unused bits cleared. -/
def Obligations.EncodeDecodeRoundTrip : Prop :=
  (∀ i : Instr, decode (encode i) = .ok i) ∧
    ∀ (w : Word) (i : Instr), decode w = .ok i → encode i = w &&& i.usedBits

/-- R155: only the bits a command uses decide what a word decodes to, and all words with one defined OP are one command. -/
def Obligations.UnusedFieldsAreIgnored : Prop :=
  (∀ (w w' : Word) (i : Instr), decode w = .ok i → w' &&& i.usedBits = w &&& i.usedBits → decode w' = .ok i) ∧
    ∀ (w w' : Word) (i : Instr), decode w = .ok i → fieldOp w' = fieldOp w →
      ∃ i', decode w' = .ok i' ∧ i'.opcode = i.opcode

/-- R154: the reserved OP values; a CMD write with one, when BUSY = 0, changes only what acceptance does and ends BAD_CMD. What
the hidden command label is once BUSY = 0 is the MODEL'S CHOICE (log entry 18). -/
def Obligations.ReservedOpcodesEndBadCmd : Prop :=
  ∀ w : Word,
    let op := (fieldOp w).toNat
    let reserved := op = 0x00 ∨ (0x06 ≤ op ∧ op ≤ 0x0F) ∨ (0x13 ≤ op ∧ op ≤ 0x1F) ∨ (0x23 ≤ op ∧ op ≤ 0x27) ∨ 0x2A ≤ op
    (¬reserved → ∃ i, decode w = .ok i) ∧
      (reserved → ∀ s : State, s.status.busy = false →
        Takes (.hostWr 32 0x0C#8 w) s
          { s with
            status := { s.status with done := true, result := .badCmd, txto := false, busy := false }
            hid := { s.hid with opb := fieldB w, oph := fieldH w, pt := .idle, cmd := none } })

/-- R157: the worked example words, and R153's opcodes, decode to the commands they stand for. -/
def Obligations.ExampleWordsDecode : Prop :=
  decode 0x00000001#32 = .ok .engClr ∧ decode 0x12340002#32 = .ok (.engLdcrc 0x1234#16) ∧
    decode 0x0000F003#32 = .ok (.engLdsum 0xF0#8) ∧ decode 0x00004104#32 = .ok (.engFeed 0x41#8) ∧
    decode 0x00090005#32 = .ok (.engFeedbuf 9#16) ∧ decode 0x0400FF10#32 = .ok (.frmHdr 1024#16 0xFF#8) ∧
    decode 0x00800111#32 = .ok (.frmTrl 128#16 true) ∧ decode 0x00800012#32 = .ok (.frmChk 128#16 false) ∧
    decode 0x00000020#32 = .ok .txNeg ∧ decode 0x00000021#32 = .ok .txBlk ∧ decode 0x00000022#32 = .ok .txEot ∧
    decode 0x00000028#32 = .ok .rxNeg ∧ decode 0x00000029#32 = .ok .rxBlk

/-! ## Steps, events and acceptance (00_scope.md, 20_memory.md, 42_sequencer_common.md) -/

/-- R302: when the host's write of a word to CMD is taken with BUSY = 0 and the word decodes to `i`, the step is `exec i` on the
state that acceptance leaves; `accept` writes DONE, RESULT, TXTO, BUSY, OPB and OPH and nothing else. -/
def Obligations.StepRunsTheDecodedCommand : Prop :=
  (∀ (w : Word) (i : Instr) (rest : List Event) (s : State), s.status.busy = false → decode w = .ok i →
      step (withInputs (.hostWr 32 0x0C#8 w :: rest) s) = exec i (accept (fieldB w) (fieldH w) (withInputs rest s))) ∧
    ∀ (b : Byte) (h : Half) (s : State),
      accept b h s =
        { s with
          status := { s.status with done := false, result := .none, txto := false, busy := true }
          hid := { s.hid with opb := b, oph := h } }

/-- R124, R9: a step takes the earliest enabled event and leaves every other one waiting in order; `rx` is enabled only in a
LinkRead, `txtake` only in a LinkWrite; with nothing enabled the step changes nothing (log entries 2 and 3). -/
def Obligations.StepTakesTheEarliestEnabledEvent : Prop :=
  (∀ (pt : Point) (e : Event), Event.enabled pt e =
      match e with
      | .rx _ => pt.isRead
      | .txtake => pt.isWrite
      | _ => true) ∧
    (∀ s : State, (∀ e ∈ s.inputs, Event.enabled s.hid.pt e = false) → step s = .next s) ∧
    ∀ (s : State) (pre post : List Event) (e : Event), s.inputs = pre ++ e :: post →
      Event.enabled s.hid.pt e = true → (∀ x ∈ pre, Event.enabled s.hid.pt x = false) →
      step s = handle e { s with inputs := pre ++ post }

/-- R305: Complete writes RESULT, BUSY, DONE and STATE, nothing else a host can read, and irq follows DONE at once. That it clears
the command label and keeps every other hidden item is the MODEL'S CHOICE (log entry 18): the hidden items have no meaning while
BUSY = 0 (10_state.md R54). -/
def Obligations.CompleteEndsTheCommand : Prop :=
  ∀ (code : ResultCode) (s : State),
    complete code s =
        { s with
          status := { s.status with result := code, busy := false, done := true }
          hid := { s.hid with pt := .idle, cmd := none } } ∧
      (statusWord (complete code s)).extractLsb' 16 8 = 0x00#8 ∧
      (statusWord (complete code s)).extractLsb' 12 4 = code.code ∧
      irq (complete code s) = s.ctrl.ie

/-- R303, R302: the phase and operand checks, in their order, decide exactly when a command is rejected and with which code. -/
def Obligations.AcceptanceChecksDecide : Prop :=
  ∀ (i : Instr) (s : State), ∃ t, exec i s = .next t ∧
    ((i = .txBlk ∨ i = .txEot) → s.status.phase ≠ .tx → t = complete .badCmd s) ∧
    (i = .rxBlk → s.status.phase ≠ .rx → t = complete .badCmd s) ∧
    ((i = .txNeg ∨ i = .rxNeg) → s.ctrl.mode ≠ 0#2 → s.ctrl.mode ≠ 1#2 → t = complete .invalidMode s) ∧
    (∀ size q u, (i = .frmHdr size q ∨ i = .frmTrl size u ∨ i = .frmChk size u) → size ≠ 128#16 → size ≠ 1024#16 →
      t = complete .invalidMode s) ∧
    (∀ n, i = .engFeedbuf n → 1024 < n.toNat → t = complete .badLength s) ∧
    (i = .txBlk → s.status.phase = .tx →
      ¬(1 ≤ s.txLen.toNat ∧ s.txLen.toNat ≤ if s.sessCfg.mode = 0#2 then 128 else 1024) → t = complete .badLength s)

/-- R304: what session open writes; read as a register, SESSCFG is then CTRL with bit 3, IE, cleared (R37). -/
def Obligations.SessionOpenLatches : Prop :=
  ∀ s : State,
    sessionOpen s =
      { s with
        sessCfg := { mode := s.ctrl.mode, crcPref := s.ctrl.crcPref, pad := s.ctrl.pad, retry := s.ctrl.retry }
        sessTmo := s.timeout
        seq := 1#8
        errCnt := 0#8
        succCnt := 0#32
        totCnt := 0#32
        byteCnt := 0#32
        rxLen := 0#11
        status := { s.status with canSeen := false, useCrc := false, phase := .idle } } ∧
      (sessionOpen s).sessCfg.word = s.ctrl.word &&& 0xFFFFFFF7#32

/-- R311: an immediate command completes in the accepting step and touches only what its own rule names. That its Complete clears
the hidden command label and keeps every other hidden item is the MODEL'S CHOICE (log entry 18). -/
def Obligations.ImmediateCommandsCompleteAtOnce : Prop :=
  ∀ (i : Instr) (s : State), isImmediate i = true →
    ∃ t, exec i s = .next t ∧ t.status.busy = false ∧ t.status.done = true ∧ t.hid.pt = .idle ∧
      t =
        { s with
          crc := t.crc
          csum := t.csum
          hdr := t.hdr
          trl := t.trl
          status := { s.status with valid := t.status.valid, result := t.status.result, busy := false, done := true }
          hid := { s.hid with pt := .idle, cmd := none } } ∧
      ((∀ size q, i ≠ .frmHdr size q) → t.hdr = s.hdr) ∧
      ((∀ size u, i ≠ .frmTrl size u) → t.trl = s.trl) ∧
      ((∀ size u, i ≠ .frmChk size u) → t.status.valid = s.status.valid) ∧
      ((∃ size q, i = .frmHdr size q) → t.crc = s.crc ∧ t.csum = s.csum) ∧
      ∀ a, bufByte t a = bufByte s a

/-- 42 R302, R311; 10 R53: the frame of the accepting step of every command: what no command writes there, what only the named
ones write, and every buffer byte. -/
def Obligations.AcceptingStepFrame : Prop :=
  ∀ (i : Instr) (s t : State), exec i s = .next t →
    t.ctrl = s.ctrl ∧ t.timeout = s.timeout ∧ t.rxTrl = s.rxTrl ∧ t.txLen = s.txLen ∧ t.bufAddr = s.bufAddr ∧
      t.unit = s.unit ∧ t.bufDraw = s.bufDraw ∧ t.purgeHeard = s.purgeHeard ∧ t.purgeDraw = s.purgeDraw ∧
      t.trace = s.trace ∧ t.progress = s.progress ∧ t.reads = s.reads ∧ t.inputs = s.inputs ∧
      t.status.ovr = s.status.ovr ∧ t.status.txto = s.status.txto ∧
      (∀ a, bufByte t a = bufByte s a) ∧
      (i ≠ .txNeg → i ≠ .rxNeg →
        t.sessCfg = s.sessCfg ∧ t.sessTmo = s.sessTmo ∧ t.seq = s.seq ∧ t.succCnt = s.succCnt ∧ t.byteCnt = s.byteCnt ∧
          t.rxLen = s.rxLen ∧ t.status.canSeen = s.status.canSeen ∧ t.status.useCrc = s.status.useCrc ∧
          t.status.phase = s.status.phase ∧ (i ≠ .txBlk → t.totCnt = s.totCnt ∧ (i ≠ .txEot → t.errCnt = s.errCnt))) ∧
      ((i = .txNeg ∨ i = .txEot ∨ i = .rxNeg ∨ i = .rxBlk) →
        t.crc = s.crc ∧ t.csum = s.csum ∧ t.hdr = s.hdr ∧ t.trl = s.trl ∧ t.status.valid = s.status.valid) ∧
      (i = .txBlk → t.status.valid = s.status.valid)

/-! ## Integrity engine (40_integrity.md) -/

/-- R208, R209, R210: ENG.CLR clears both accumulators, ENG.LDCRC loads CRC with H, ENG.LDSUM loads CSUM with B, and each
completes with OK; the fields they do not use are ignored. -/
def Obligations.EngineClearAndLoads : Prop :=
  (∀ (h : Half) (b : Byte), decode (packWord h b 0x01#8) = .ok .engClr ∧ decode (packWord h b 0x02#8) = .ok (.engLdcrc h) ∧
      decode (packWord h b 0x03#8) = .ok (.engLdsum b)) ∧
    ∀ (h : Half) (b : Byte) (s : State),
      exec .engClr s = .next (complete .ok { s with crc := 0#16, csum := 0#8 }) ∧
        exec (.engLdcrc h) s = .next (complete .ok { s with crc := h }) ∧
        exec (.engLdsum b) s = .next (complete .ok { s with csum := b })

/-- R211: one byte fed, the checksum modulo 256, the CRC by R200; a zero byte into CRC 0 leaves it 0. -/
def Obligations.EngFeedAdvancesBothAccumulators : Prop :=
  (∀ (h : Half) (b : Byte), decode (packWord h b 0x04#8) = .ok (.engFeed b)) ∧
    (∀ (b : Byte) (s : State), exec (.engFeed b) s =
      .next (complete .ok { s with crc := crcStep s.crc b, csum := BitVec.ofNat 8 ((s.csum.toNat + b.toNat) % 256) })) ∧
    crcStep 0#16 0#8 = 0#16

/-- R212. -/
def Obligations.EngFeedbufFeedsARun : Prop :=
  (∀ (h : Half) (b : Byte), decode (packWord h b 0x05#8) = .ok (.engFeedbuf h)) ∧
    ∀ (n : Half) (s : State),
      (1024 < n.toNat → exec (.engFeedbuf n) s = .next (complete .badLength s)) ∧
        (n.toNat ≤ 1024 → exec (.engFeedbuf n) s =
          .next (complete .ok
            { s with
              crc := crc16 ((List.range n.toNat).map (bufByte s)) s.crc
              csum := checksum ((List.range n.toNat).map (bufByte s)) s.csum }))

/-- R204: the bit-serial form of the CRC update equals the table-driven one, for every accumulator and byte. -/
def Obligations.TableCrcEqualsBitSerialCrc : Prop :=
  ∀ (c : Half) (b : Byte), crcStep c b = crcStepSerial c b

/-- R206: the chain laws with the rule's worked example, the checksum's commutativity, the CRC's lack of it, and the zero
residue of a message followed by its own big-endian CRC. -/
def Obligations.IntegrityChainLaws : Prop :=
  (∀ (a b : List Byte) (p : Byte), checksum (a ++ b) p = checksum b (checksum a p)) ∧
    (∀ (a b : List Byte) (p : Half), crc16 (a ++ b) p = crc16 b (crc16 a p)) ∧
    (∀ (a b : List Byte) (p : Byte), a.Perm b → checksum a p = checksum b p) ∧
    (∃ a b : List Byte, a.Perm b ∧ crc16 a 0 ≠ crc16 b 0) ∧
    crc16 [0x31#8, 0x32#8, 0x33#8, 0x34#8] 0 = 0xD789#16 ∧
    crc16 [0x35#8, 0x36#8, 0x37#8, 0x38#8, 0x39#8] 0xD789#16 = 0x31C3#16 ∧
    ∀ s : List Byte,
      crc16 (s ++ [(crc16 s 0).extractLsb' 8 8, (crc16 s 0).extractLsb' 0 8]) 0 = 0#16

/-- R255: in CRC mode a tail of P + 2 bytes verifies exactly when the CRC over all of it is 0, and the payload recovered is the
tail without its trailer. -/
def Obligations.VerifyMeansZeroResidue : Prop :=
  ∀ (p : BlockSize) (d : List Byte), d.length = p.bytes + 2 →
    ((verify true d p).1 = true ↔ crc16 d 0 = 0#16) ∧ (verify true d p).2 = d.take p.bytes

/-! ## Framing (41_framing.md) -/

/-- R259. -/
def Obligations.FrmHdrBuildsTheHeader : Prop :=
  (∀ (h : Half) (b : Byte), decode (packWord h b 0x10#8) = .ok (.frmHdr h b)) ∧
    ∀ (size : Half) (q : Byte) (s : State),
      (size ≠ 128#16 → size ≠ 1024#16 → exec (.frmHdr size q) s = .next (complete .invalidMode s)) ∧
        (size = 128#16 → exec (.frmHdr size q) s = .next (complete .ok { s with hdr := 0x01#8 ++ q ++ (0xFF#8 - q) })) ∧
        (size = 1024#16 → exec (.frmHdr size q) s = .next (complete .ok { s with hdr := 0x02#8 ++ q ++ (0xFF#8 - q) }))

/-- R260: the trailer of Buf[0..H-1] as it stands; B[7:1] is ignored. -/
def Obligations.FrmTrlBuildsTheTrailer : Prop :=
  (∀ (h : Half) (b : Byte), decode (packWord h b 0x11#8) = .ok (.frmTrl h (b.getLsbD 0))) ∧
    ∀ (size : Half) (u : Bool) (s : State),
      (size ≠ 128#16 → size ≠ 1024#16 → exec (.frmTrl size u) s = .next (complete .invalidMode s)) ∧
        (size = 128#16 ∨ size = 1024#16 →
          let run := (List.range size.toNat).map (bufByte s)
          exec (.frmTrl size u) s =
            .next (complete .ok
              { s with
                crc := crc16 run 0
                csum := checksum run 0
                trl := if u then crc16 run 0 else (checksum run 0).setWidth 16 }))

/-- R261: the buffer against TRL; in checksum mode TRL[15:8] is ignored. -/
def Obligations.FrmChkVerifiesTheTrailer : Prop :=
  (∀ (h : Half) (b : Byte), decode (packWord h b 0x12#8) = .ok (.frmChk h (b.getLsbD 0))) ∧
    ∀ (size : Half) (u : Bool) (s : State),
      (size ≠ 128#16 → size ≠ 1024#16 → exec (.frmChk size u) s = .next (complete .invalidMode s)) ∧
        (size = 128#16 ∨ size = 1024#16 →
          let run := (List.range size.toNat).map (bufByte s)
          exec (.frmChk size u) s =
            .next (complete .ok
              { s with
                crc := crc16 run 0
                csum := checksum run 0
                status := { s.status with
                  valid := if u then decide (crc16 run 0 = s.trl) else decide (checksum run 0 = s.trl.extractLsb' 0 8) } }))

/-- R260, R261: FRM.CHK after FRM.TRL of the same size and mode sets VALID, and with the low byte of TRL changed in between it
clears VALID. -/
def Obligations.CheckAfterTrailerIsValid : Prop :=
  ∀ (size : Half) (u : Bool) (s : State), size = 128#16 ∨ size = 1024#16 →
    ∃ t t' : State, exec (.frmTrl size u) s = .next t ∧ exec (.frmChk size u) t = .next t' ∧ t'.status.valid = true ∧
      ∀ v : Half, v.extractLsb' 0 8 ≠ t.trl.extractLsb' 0 8 →
        ∃ t'', exec (.frmChk size u) { t with trl := v } = .next t'' ∧ t''.status.valid = false

/-- R256, R252 (with R253's padding, R254's trailer and R257's sum): the frame's length, its three header bytes, the sum of sequence and complement, and the padding. -/
def Obligations.FrameHasTheStatedShape : Prop :=
  ∀ (p : BlockSize) (q : Byte) (u : Bool) (chunk : List Byte) (c : Byte), 1 ≤ chunk.length → chunk.length ≤ p.bytes →
    (frame p q u chunk c).length = 3 + p.bytes + (if u then 2 else 1) ∧
      (frame p q u chunk c).take 3 = [p.start, q, 0xFF#8 - q] ∧ q.toNat + (0xFF#8 - q).toNat = 0xFF ∧
      ((frame p q u chunk c).drop 3).take p.bytes = chunk ++ List.replicate (p.bytes - chunk.length) c ∧
      (frame p q u chunk c).drop (3 + p.bytes) =
        (if u then [(crc16 (pad chunk p c) 0).extractLsb' 8 8, (crc16 (pad chunk p c) 0).extractLsb' 0 8]
         else [checksum (pad chunk p c) 0])

/-! ## Link primitives and timer (20_memory.md, 60_exceptions.md) -/

/-- R120, R121: the two link primitives. A LinkRead that has not all its bytes gathers the next one and leaves TMR alone, and
with the last one the command goes on; a LinkWrite sends WS[WJ] on each txtake and goes on after the last; on a tick with TMR
above 1 both count down, and with TMR at most 1 the read times out, and the write sets TXTO and goes on, the rest unsent. -/
def Obligations.LinkPrimitivesRun : Prop :=
  (∀ (pt : Point) (n : Nat) (tmo : Half) (s : State), beginRead pt n tmo s =
      { s with hid := { s.hid with pt := pt, rn := n, rk := 0, rb := [], tmr := tmo } }) ∧
    (∀ (pt : Point) (ws : List Byte) (s : State), beginWrite pt ws s =
      { s with hid := { s.hid with pt := pt, ws := ws, wj := 0, tmr := s.sessTmo } }) ∧
    (∀ (b : Byte) (s : State), s.hid.pt.isRead = true →
      let got := { s with hid := { s.hid with rb := s.hid.rb ++ [b], rk := s.hid.rk + 1 } }
      (s.hid.rk + 1 ≠ s.hid.rn → Takes (.rx b) s got) ∧
        (s.hid.rk + 1 = s.hid.rn → ∀ t, Takes (.rx b) s t ↔ readDone got b = .next t)) ∧
    (∀ (b : Byte) (s : State), s.hid.pt.isWrite = true → s.hid.ws[s.hid.wj]? = some b →
      let sent := { s with trace := s.trace ++ [b], hid := { s.hid with wj := s.hid.wj + 1 } }
      (s.hid.wj + 1 ≠ s.hid.ws.length → Takes .txtake s sent) ∧
        (s.hid.wj + 1 = s.hid.ws.length → Takes .txtake s (writeDone sent))) ∧
    ∀ s : State, s.hid.pt.isRead = true ∨ s.hid.pt.isWrite = true →
      (1 < s.hid.tmr.toNat → Takes .tick s { s with hid := { s.hid with tmr := s.hid.tmr - 1 } }) ∧
        (s.hid.tmr.toNat ≤ 1 → Takes .tick s
          (if s.hid.pt.isRead then readTimeout s else writeDone { s with status := { s.status with txto := true } }))

/-- R520, R521: ticks while idle do nothing; a primitive whose TMR is t only counts down for max(t, 1) - 1 ticks, and the next
tick ends it. -/
def Obligations.TimerEndsOnTheLastTick : Prop :=
  (∀ s : State, s.hid.pt = .idle → Takes .tick s s) ∧
    ∀ (n : Nat) (s : State), s.hid.pt.isRead = true ∨ s.hid.pt.isWrite = true → n < max s.hid.tmr.toNat 1 →
      runEvents (List.replicate n .tick) s = .next { s with hid := { s.hid with tmr := s.hid.tmr - BitVec.ofNat 16 n } } ∧
        (n + 1 = max s.hid.tmr.toNat 1 →
          let last := { s with hid := { s.hid with tmr := s.hid.tmr - BitVec.ofNat 16 n } }
          Takes .tick last
            (if s.hid.pt.isRead then readTimeout last else writeDone { last with status := { last.status with txto := true } }))

/-- R123: each purged byte is discarded and the purge reads on with a one-tick timeout; a tick with no byte purged since the
purge's start or the last tick ends it. Where a byte was purged in between, the spec conflicts on whether the tick ends it (R123's
pseudocode) or not (R123's prose, R610, C4): MODEL'S CHOICE (log entry 21), a free value, so the statement gives both outcomes. A purge starts with no byte purged. -/
def Obligations.PurgeDiscardsUntilQuiet : Prop :=
  (∀ (e : Event) (s t : State), Event.enabled s.hid.pt e = true → Takes e s t → s.hid.pt ≠ .rxpRd → t.hid.pt = .rxpRd →
    t.hid.rn = 1 ∧ t.hid.rk = 0 ∧ t.hid.rb = [] ∧ t.hid.tmr = 1#16 ∧ t.purgeHeard = false) ∧
  ∀ s : State, Awaits .rxpRd s →
    (∀ b : Byte, ∃ t, Takes (.rx b) s t ∧ ReadsNext .rxpRd 1 1#16 s t ∧ t.purgeHeard = true ∧ t.buf = s.buf ∧
      t.status.canSeen = s.status.canSeen ∧ t.errCnt = s.errCnt ∧ t.trace = s.trace) ∧
    (s.hid.tmr.toNat ≤ 1 → ∃ t, Takes .tick s t ∧ t.errCnt = s.errCnt ∧ t.buf = s.buf ∧ t.trace = s.trace ∧
      t.status.canSeen = s.status.canSeen ∧
      (s.purgeHeard = false → WritesNext .rxn2Wr [NAK] s t) ∧
      (s.purgeHeard = true → WritesNext .rxn2Wr [NAK] s t ∨ PurgeStarts s t))

/-! ## Aborts, failures and cancels (42_sequencer_common.md) -/

/-- R306: the abort starts one write of two CANs; once they leave, the command ends with the abort's code in phase IDLE; if that write times
out TXTO is set and the abort ends all the same. -/
def Obligations.AbortSendsTwoCans : Prop :=
  (∀ (code : ResultCode) (s : State), Aborts code s (abortWithCancel code s)) ∧
    ∀ (code : ResultCode) (s : State), s.hid.pt = .canWr code → s.hid.ws = [CAN, CAN] →
    (s.hid.wj = 0 → ∃ t u, Takes .txtake s t ∧ Takes .txtake t u ∧ u.trace = s.trace ++ [CAN, CAN] ∧ Ends code .idle u ∧
      u.status.txto = s.status.txto) ∧
    (s.hid.tmr.toNat ≤ 1 → ∃ t, Takes .tick s t ∧ t.trace = s.trace ∧ Ends code .idle t ∧ t.status.txto = true)

/-- R307: at every control position a CAN while CANSEEN = 1 ends the command with CANCELLED in phase IDLE, sends nothing and
counts nothing. -/
def Obligations.DoubleCancelEndsTheCommand : Prop :=
  ∀ (pt : Point) (s : State), pt.isControl = true → Awaits pt s → s.status.canSeen = true →
    ∃ t, Takes (.rx CAN) s t ∧ Ends .cancelled .idle t ∧ t.trace = s.trace ∧ t.errCnt = s.errCnt ∧
      t.progress = s.progress ∧ t.hid.ws = s.hid.ws

/-- R308: at each of the five control positions a timeout is one failure; the Limit-th, Limit = max(RETRY, 1), aborts. R310: an
event changes ERRCNT only as one more failure, at a read that can fail, or by setting it to 0 at the points R310 names or at reset. -/
def Obligations.TimeoutSpendsTheBudget : Prop :=
  (∀ (e : Event) (s t : State), Event.enabled s.hid.pt e = true → Takes e s t → t.errCnt ≠ s.errCnt →
    (t.errCnt = s.errCnt + 1 ∧ (e = .tick ∨ ∃ b, e = .rx b) ∧
        s.hid.pt ∈ [Point.txnRd, .txbRd, .txeRd, .rxnRd, .rxaRd, .rxdRd, .rxxRd]) ∨
      (t.errCnt = 0#8 ∧
        (e = .reset ∨
          (∃ v, e = .hostWr 32 0x0C#8 v ∧ s.status.busy = false ∧ t.status.busy = true ∧
            (decode v = .ok .txNeg ∨ decode v = .ok .rxNeg ∨ decode v = .ok .txBlk ∨ decode v = .ok .txEot)) ∨
          (s.hid.pt = .txbRd ∧ t.status.result = .acked) ∨
          (s.hid.pt = .rxnRd ∧ t.hid.pt = .rxsRd) ∨
          (s.hid.pt = .rxdRd ∧ t.hid.pt = .rxkWr)))) ∧
  ∀ s : State, s.hid.tmr.toNat ≤ 1 →
    (s.hid.pt = .txnRd → ∃ t, Takes .tick s t ∧ Fails .negTimeout (ReadsNext .txnRd 1 s.sessTmo s t) s t) ∧
    (s.hid.pt = .txbRd → ∃ t, Takes .tick s t ∧ Fails .ackTimeout (WritesNext .txbWr s.hid.fr s t) s t) ∧
    (s.hid.pt = .txeRd → ∃ t, Takes .tick s t ∧ Fails .ackTimeout (WritesNext .txeWr [EOT] s t) s t) ∧
    (s.hid.pt = .rxnRd → ∃ t, Takes .tick s t ∧ Fails .negTimeout (WritesNext .rxnWr [t.hid.lastProbe] s t) s t) ∧
    (s.hid.pt = .rxaRd → ∃ t, Takes .tick s t ∧ Fails .integrity (WritesNext .rxn2Wr [NAK] s t) s t)

/-- R309: the control positions are the five of the rule; there CANSEEN is set by a CAN and cleared by any other byte; a byte
read elsewhere and a tick leave it alone; acceptance keeps it, session open clears it; and no event changes it but an `rx` at a
control position, the acceptance of TX.NEG or RX.NEG (session open), and reset. -/
def Obligations.CancelMemoryDiscipline : Prop :=
  (∀ pt : Point, pt.isControl = true ↔ pt = .txnRd ∨ pt = .txbRd ∨ pt = .txeRd ∨ pt = .rxnRd ∨ pt = .rxaRd) ∧
    (∀ (b : Byte) (s t : State), Takes (.rx b) s t → s.hid.pt.isRead = true → s.hid.pt.isControl = false →
      t.status.canSeen = s.status.canSeen) ∧
    (∀ (pt : Point) (b : Byte) (s : State), pt.isControl = true → Awaits pt s →
      ∃ t, Takes (.rx b) s t ∧ t.status.canSeen = decide (b = CAN)) ∧
    (∀ (s t : State), Takes .tick s t → t.status.canSeen = s.status.canSeen) ∧
    (∀ (b : Byte) (h : Half) (s : State), (accept b h s).status.canSeen = s.status.canSeen) ∧
    (∀ s : State, (sessionOpen s).status.canSeen = false) ∧
    ∀ (e : Event) (s t : State), Event.enabled s.hid.pt e = true → Takes e s t → t.status.canSeen ≠ s.status.canSeen →
      ((∃ b, e = .rx b) ∧ s.hid.pt.isControl = true) ∨
        (∃ v, e = .hostWr 32 0x0C#8 v ∧ s.status.busy = false ∧ t.status.canSeen = false ∧
          (decode v = .ok .txNeg ∨ decode v = .ok .rxNeg)) ∨
        (e = .reset ∧ t.status.canSeen = false)

/-! ## Sender (43_sender.md) -/

/-- R351: TX.NEG, whole: acceptance, the reply byte in every case, and the timeout. -/
def Obligations.TxNegNegotiates : Prop :=
  (∀ (h : Half) (b : Byte), decode (packWord h b 0x20#8) = .ok .txNeg) ∧
    (∀ s : State,
      (s.ctrl.mode ≠ 0#2 → s.ctrl.mode ≠ 1#2 → exec .txNeg s = .next (complete .invalidMode s)) ∧
        (s.ctrl.mode = 0#2 ∨ s.ctrl.mode = 1#2 → exec .txNeg s =
          .next
            { sessionOpen s with
              hid := { s.hid with pt := .txnRd, cmd := some .txNeg, rn := 1, rk := 0, rb := [], tmr := s.timeout } })) ∧
    (∀ (b : Byte) (s : State), Awaits .txnRd s →
      ∃ t, Takes (.rx b) s t ∧
        (b = CAN → s.status.canSeen = true → Ends .cancelled .idle t ∧ t.errCnt = s.errCnt) ∧
        (b = CAN → s.status.canSeen = false →
          ReadsNext .txnRd 1 s.sessTmo s t ∧ t.status.canSeen = true ∧ t.errCnt = s.errCnt) ∧
        (b = NAK → Ends .negotiated .tx t ∧ t.status.useCrc = false ∧ t.status.canSeen = false ∧ t.errCnt = s.errCnt) ∧
        (b = CRQ → Ends .negotiated .tx t ∧ t.status.useCrc = true ∧ t.status.canSeen = false ∧ t.errCnt = s.errCnt) ∧
        (b = EOT → Aborts .declined s t ∧ t.status.canSeen = false ∧ t.errCnt = s.errCnt) ∧
        (b ≠ CAN → b ≠ NAK → b ≠ CRQ → b ≠ EOT →
          Fails .negTimeout (ReadsNext .txnRd 1 s.sessTmo s t) s t ∧ t.status.canSeen = false)) ∧
    ∀ s : State, s.hid.pt = .txnRd → s.hid.tmr.toNat ≤ 1 →
      ∃ t, Takes .tick s t ∧ Fails .negTimeout (ReadsNext .txnRd 1 s.sessTmo s t) s t ∧
        t.status.canSeen = s.status.canSeen

/-- R353: TX.BLK's accepting step: the checks, the counters, the accumulators over the padded payload, TRL, HDR and the frame,
then its transmission. -/
def Obligations.TxBlkBuildsTheFrame : Prop :=
  (∀ (h : Half) (b : Byte), decode (packWord h b 0x21#8) = .ok .txBlk) ∧
    ∀ s : State,
      let p : BlockSize := if s.sessCfg.mode = 0#2 then .classic else .extended
      let pl := (List.range s.txLen.toNat).map (bufByte s) ++ List.replicate (p.bytes - s.txLen.toNat) s.sessCfg.pad
      let fr := [p.start, s.seq, 0xFF#8 - s.seq] ++ pl ++ trailer s.status.useCrc pl
      (s.status.phase ≠ .tx → exec .txBlk s = .next (complete .badCmd s)) ∧
        (s.status.phase = .tx → ¬(1 ≤ s.txLen.toNat ∧ s.txLen.toNat ≤ p.bytes) →
          exec .txBlk s = .next (complete .badLength s)) ∧
        (s.status.phase = .tx → 1 ≤ s.txLen.toNat → s.txLen.toNat ≤ p.bytes →
          exec .txBlk s =
            .next
              { s with
                totCnt := s.totCnt + 1
                errCnt := 0#8
                crc := crc16 pl 0
                csum := checksum pl 0
                trl := if s.status.useCrc then crc16 pl 0 else (checksum pl 0).setWidth 16
                hdr := p.start ++ s.seq ++ (0xFF#8 - s.seq)
                hid := { s.hid with
                  pt := .txbWr, cmd := some .txBlk, fr := fr, ws := fr, wj := 0, tmr := s.sessTmo } })

/-- R354: TX.BLK's loop: after the frame's write the reply read; ACK, the double cancel, and the failures that resend the same
frame or abort; each outcome but the double cancel emits one progress event. -/
def Obligations.TxBlkAwaitsTheReply : Prop :=
  (∀ s : State, s.hid.pt = .txbWr →
      (∀ b, s.hid.ws[s.hid.wj]? = some b → s.hid.wj + 1 = s.hid.ws.length →
        ∃ t, Takes .txtake s t ∧ ReadsNext .txbRd 1 s.sessTmo s t ∧ t.trace = s.trace ++ [b]) ∧
      (s.hid.tmr.toNat ≤ 1 → ∃ t, Takes .tick s t ∧ ReadsNext .txbRd 1 s.sessTmo s t ∧ t.status.txto = true)) ∧
    (∀ (b : Byte) (s : State), Awaits .txbRd s →
      ∃ t, Takes (.rx b) s t ∧
        (b = CAN → s.status.canSeen = true → Ends .cancelled .idle t ∧ t.errCnt = s.errCnt ∧ t.progress = s.progress) ∧
        (b = ACK → Ends .acked s.status.phase t ∧ t.seq = s.seq + 1 ∧ t.succCnt = s.succCnt + 1 ∧ t.errCnt = 0#8 ∧
          t.status.canSeen = false ∧ t.progress = s.progress ++ [⟨s.totCnt, s.succCnt + 1, 0#8⟩]) ∧
        ((b = CAN ∧ s.status.canSeen = false) ∨ (b ≠ CAN ∧ b ≠ ACK) →
          Fails .ackTimeout (WritesNext .txbWr s.hid.fr s t) s t ∧ t.status.canSeen = decide (b = CAN) ∧ t.seq = s.seq ∧
            t.succCnt = s.succCnt ∧ t.progress = s.progress ++ [⟨s.totCnt, s.succCnt, s.errCnt + 1⟩])) ∧
    ∀ s : State, s.hid.pt = .txbRd → s.hid.tmr.toNat ≤ 1 →
      ∃ t, Takes .tick s t ∧ Fails .ackTimeout (WritesNext .txbWr s.hid.fr s t) s t ∧
        t.status.canSeen = s.status.canSeen ∧ t.seq = s.seq ∧ t.progress = s.progress ++ [⟨s.totCnt, s.succCnt, s.errCnt + 1⟩]

/-- R355: TX.EOT, whole. -/
def Obligations.TxEotEndsTheTransfer : Prop :=
  (∀ (h : Half) (b : Byte), decode (packWord h b 0x22#8) = .ok .txEot) ∧
    (∀ s : State,
      (s.status.phase ≠ .tx → exec .txEot s = .next (complete .badCmd s)) ∧
        (s.status.phase = .tx → exec .txEot s =
          .next
            { s with
              errCnt := 0#8
              hid := { s.hid with pt := .txeWr, cmd := some .txEot, ws := [EOT], wj := 0, tmr := s.sessTmo } })) ∧
    (∀ s : State, s.hid.pt = .txeWr →
      (∀ b, s.hid.ws[s.hid.wj]? = some b → s.hid.wj + 1 = s.hid.ws.length →
        ∃ t, Takes .txtake s t ∧ ReadsNext .txeRd 1 s.sessTmo s t ∧ t.trace = s.trace ++ [b]) ∧
      (s.hid.tmr.toNat ≤ 1 → ∃ t, Takes .tick s t ∧ ReadsNext .txeRd 1 s.sessTmo s t ∧ t.status.txto = true)) ∧
    (∀ (b : Byte) (s : State), Awaits .txeRd s →
      ∃ t, Takes (.rx b) s t ∧ t.progress = s.progress ∧ t.seq = s.seq ∧ t.succCnt = s.succCnt ∧ t.totCnt = s.totCnt ∧
        (b = CAN → s.status.canSeen = true → Ends .cancelled .idle t ∧ t.errCnt = s.errCnt) ∧
        (b = ACK → Ends .succeeded .idle t ∧ t.status.canSeen = false ∧ t.errCnt = s.errCnt) ∧
        ((b = CAN ∧ s.status.canSeen = false) ∨ (b ≠ CAN ∧ b ≠ ACK) →
          Fails .ackTimeout (WritesNext .txeWr [EOT] s t) s t ∧ t.status.canSeen = decide (b = CAN))) ∧
    ∀ s : State, s.hid.pt = .txeRd → s.hid.tmr.toNat ≤ 1 →
      ∃ t, Takes .tick s t ∧ Fails .ackTimeout (WritesNext .txeWr [EOT] s t) s t ∧
        t.status.canSeen = s.status.canSeen ∧ t.progress = s.progress

/-- R313, R308: a sender whose peer is silent aborts its negotiation on tick number Limit × max(TIMEOUT, 1) and not before. -/
def Obligations.SilentPeerEndsNegotiation : Prop :=
  ∀ (n : Nat) (s : State), Awaits .txnRd s → s.errCnt = 0#8 → s.hid.tmr = s.sessTmo →
    let total := max s.sessCfg.retry.toNat 1 * max s.sessTmo.toNat 1
    (n < total → ∃ t, runEvents (List.replicate n .tick) s = .next t ∧ t.hid.pt = .txnRd ∧ t.trace = s.trace) ∧
      (n = total → ∃ t, runEvents (List.replicate n .tick) s = .next t ∧ t.hid.pt = .canWr .negTimeout ∧
        t.hid.ws = [CAN, CAN] ∧ t.errCnt.toNat = max s.sessCfg.retry.toNat 1)

/-! ## Receiver (44_receiver.md) -/

/-- R401: RX.NEG, whole: acceptance with the first probe, the probe's write, the reply byte in every case, and the timeout. -/
def Obligations.RxNegNegotiates : Prop :=
  (∀ (h : Half) (b : Byte), decode (packWord h b 0x28#8) = .ok .rxNeg) ∧
    (∀ s : State,
      (s.ctrl.mode ≠ 0#2 → s.ctrl.mode ≠ 1#2 → exec .rxNeg s = .next (complete .invalidMode s)) ∧
        (s.ctrl.mode = 0#2 ∨ s.ctrl.mode = 1#2 →
          let probe := if s.ctrl.crcPref = true ∧ 0 < s.ctrl.retry.toNat / 2 then CRQ else NAK
          exec .rxNeg s =
            .next
              { sessionOpen s with
                hid := { s.hid with
                  pt := .rxnWr, cmd := some .rxNeg, lastProbe := probe, ws := [probe], wj := 0, tmr := s.timeout } })) ∧
    (∀ s : State, s.hid.pt = .rxnWr →
      (∀ b, s.hid.ws[s.hid.wj]? = some b → s.hid.wj + 1 = s.hid.ws.length →
        ∃ t, Takes .txtake s t ∧ ReadsNext .rxnRd 1 s.sessTmo s t ∧ t.hid.lastProbe = s.hid.lastProbe ∧
          t.trace = s.trace ++ [b]) ∧
      (s.hid.tmr.toNat ≤ 1 → ∃ t, Takes .tick s t ∧ ReadsNext .rxnRd 1 s.sessTmo s t ∧
        t.hid.lastProbe = s.hid.lastProbe ∧ t.status.txto = true)) ∧
    (∀ (b : Byte) (s : State), Awaits .rxnRd s →
      ∃ t, Takes (.rx b) s t ∧
        (let probe := if s.sessCfg.crcPref = true ∧ t.errCnt.toNat < s.sessCfg.retry.toNat / 2 then CRQ else NAK
         (b = CAN → s.status.canSeen = true → Ends .cancelled .idle t ∧ t.errCnt = s.errCnt) ∧
          (b = CAN → s.status.canSeen = false →
            WritesNext .rxnWr [probe] s t ∧ t.hid.lastProbe = probe ∧ t.status.canSeen = true ∧ t.errCnt = s.errCnt) ∧
          (b = SOH ∨ b = STX →
            ReadsNext .rxsRd 1 s.sessTmo s t ∧ t.hid.p = (if b = SOH then .classic else .extended) ∧
              t.status.useCrc = decide (s.hid.lastProbe = CRQ) ∧ t.hid.t = (if t.status.useCrc then .two else .one) ∧
              t.status.phase = .rx ∧ t.errCnt = 0#8 ∧ t.status.canSeen = false) ∧
          (b = EOT → WritesNext .rxeWr [ACK] s t ∧ t.status.canSeen = false ∧ t.errCnt = s.errCnt) ∧
          (b ≠ CAN → b ≠ SOH → b ≠ STX → b ≠ EOT →
            Fails .negTimeout (WritesNext .rxnWr [probe] s t ∧ t.hid.lastProbe = probe) s t ∧ t.status.canSeen = false))) ∧
    ∀ s : State, s.hid.pt = .rxnRd → s.hid.tmr.toNat ≤ 1 →
      ∃ t, Takes .tick s t ∧ t.status.canSeen = s.status.canSeen ∧
        (let probe := if s.sessCfg.crcPref = true ∧ t.errCnt.toNat < s.sessCfg.retry.toNat / 2 then CRQ else NAK
         Fails .negTimeout (WritesNext .rxnWr [probe] s t ∧ t.hid.lastProbe = probe) s t)

/-- R403, R404: RX.BLK and AwaitStart: acceptance, the start byte in every case, and the timeout with its NAK and no purge. -/
def Obligations.RxBlkAwaitsAStartByte : Prop :=
  (∀ (h : Half) (b : Byte), decode (packWord h b 0x29#8) = .ok .rxBlk) ∧
    (∀ s : State,
      (s.status.phase ≠ .rx → exec .rxBlk s = .next (complete .badCmd s)) ∧
        (s.status.phase = .rx → exec .rxBlk s =
          .next
            { s with hid := { s.hid with
                pt := .rxaRd, cmd := some .rxBlk, rn := 1, rk := 0, rb := [], tmr := s.sessTmo } })) ∧
    (∀ (b : Byte) (s : State), Awaits .rxaRd s →
      ∃ t, Takes (.rx b) s t ∧
        (b = CAN → s.status.canSeen = true → Ends .cancelled .idle t ∧ t.errCnt = s.errCnt) ∧
        (b = CAN → s.status.canSeen = false →
          ReadsNext .rxaRd 1 s.sessTmo s t ∧ t.status.canSeen = true ∧ t.errCnt = s.errCnt) ∧
        (b = EOT → WritesNext .rxeWr [ACK] s t ∧ t.status.canSeen = false ∧ t.errCnt = s.errCnt) ∧
        (b = SOH ∨ b = STX →
          ReadsNext .rxsRd 1 s.sessTmo s t ∧ t.hid.p = (if b = SOH then .classic else .extended) ∧
            t.hid.t = (if s.status.useCrc then .two else .one) ∧ t.status.canSeen = false ∧ t.errCnt = s.errCnt) ∧
        (b ≠ CAN → b ≠ EOT → b ≠ SOH → b ≠ STX →
          Fails .integrity (ReadsNext .rxpRd 1 1#16 s t) s t ∧ t.status.canSeen = false)) ∧
    ∀ s : State, s.hid.pt = .rxaRd → s.hid.tmr.toNat ≤ 1 →
      ∃ t, Takes .tick s t ∧ Fails .integrity (WritesNext .rxn2Wr [NAK] s t) s t ∧
        t.status.canSeen = s.status.canSeen

/-- R405, R406, R407: BlockBody fixes P and T and reads the two sequence bytes; a timeout or a pair that does not match SEQ drains
P + T bytes, a match reads P + T bytes as data; the drain's end is one failure, the buffer and CANSEEN untouched. -/
def Obligations.HeaderMismatchDrains : Prop :=
  (∀ (p : BlockSize) (s : State), blockBody p s =
      { s with hid := { s.hid with
          p := p, t := if s.status.useCrc then .two else .one, pt := .rxsRd, rn := 1, rk := 0, rb := [], tmr := s.sessTmo } }) ∧
  (∀ (b : Byte) (s : State), Awaits .rxsRd s →
      ∃ t, Takes (.rx b) s t ∧ ReadsNext .rxcRd 1 s.sessTmo s t ∧ t.hid.q1 = b ∧ t.hid.p = s.hid.p ∧ t.hid.t = s.hid.t) ∧
    (∀ (b : Byte) (s : State), Awaits .rxcRd s →
      ∃ t, Takes (.rx b) s t ∧ t.hid.p = s.hid.p ∧ t.hid.t = s.hid.t ∧
        (s.hid.q1.toNat + b.toNat = 0xFF ∧ s.hid.q1 = s.seq →
          ReadsNext .rxdRd (s.hid.p.bytes + s.hid.t.bytes) s.sessTmo s t) ∧
        (¬(s.hid.q1.toNat + b.toNat = 0xFF ∧ s.hid.q1 = s.seq) →
          ReadsNext .rxxRd (s.hid.p.bytes + s.hid.t.bytes) s.sessTmo s t)) ∧
    (∀ s : State, s.hid.pt = .rxsRd ∨ s.hid.pt = .rxcRd → s.hid.tmr.toNat ≤ 1 →
      ∃ t, Takes .tick s t ∧ ReadsNext .rxxRd (s.hid.p.bytes + s.hid.t.bytes) s.sessTmo s t) ∧
    ∀ s : State, s.hid.pt = .rxxRd →
      (∀ b : Byte, s.hid.rk + 1 = s.hid.rn →
        ∃ t, Takes (.rx b) s t ∧ Fails .integrity (ReadsNext .rxpRd 1 1#16 s t) s t ∧ t.buf = s.buf ∧
          t.status.canSeen = s.status.canSeen) ∧
      (s.hid.tmr.toNat ≤ 1 →
        ∃ t, Takes .tick s t ∧ Fails .integrity (ReadsNext .rxpRd 1 1#16 s t) s t ∧ t.buf = s.buf ∧
          t.status.canSeen = s.status.canSeen)

/-- R408, R409: a complete data read stores the payload, latches RXTRL and feeds both accumulators; a valid block is accepted,
any other is a failure; a timeout stores what came, leaves the accumulators and the counters of accepted blocks, and is a failure.
`d` is RB with the last byte. -/
def Obligations.DataReadVerifiesTheBlock : Prop :=
  (∀ (b : Byte) (s : State), s.hid.pt = .rxdRd → s.hid.rk + 1 = s.hid.rn →
      s.hid.rb.length + 1 = s.hid.p.bytes + s.hid.t.bytes →
      let d := s.hid.rb ++ [b]
      let pl := d.take s.hid.p.bytes
      let valid := (verify (decide (s.hid.t = .two)) d s.hid.p).1
      ∃ t, Takes (.rx b) s t ∧
        t.rxTrl.toNat = (d.drop s.hid.p.bytes).foldl (fun n (x : Byte) => n * 256 + x.toNat) 0 ∧
        t.crc = crc16 pl 0 ∧ t.csum = checksum pl 0 ∧ t.seq = s.seq ∧
        (∀ i, bufByte t i = if i < s.hid.p.bytes then (pl[i]?).getD 0 else bufByte s i) ∧
        (valid = true →
          WritesNext .rxkWr [ACK] s t ∧ t.rxLen.toNat = s.hid.p.bytes ∧
            t.byteCnt = s.byteCnt + BitVec.ofNat 32 s.hid.p.bytes ∧ t.succCnt = s.succCnt + 1 ∧ t.errCnt = 0#8) ∧
        (valid = false →
          Fails .integrity (ReadsNext .rxpRd 1 1#16 s t) s t ∧ t.rxLen = s.rxLen ∧ t.byteCnt = s.byteCnt ∧
            t.succCnt = s.succCnt)) ∧
    ∀ s : State, s.hid.pt = .rxdRd → s.hid.tmr.toNat ≤ 1 →
      ∃ t, Takes .tick s t ∧ Fails .integrity (ReadsNext .rxpRd 1 1#16 s t) s t ∧ t.rxTrl = s.rxTrl ∧
        t.crc = s.crc ∧ t.csum = s.csum ∧ t.rxLen = s.rxLen ∧ t.byteCnt = s.byteCnt ∧ t.succCnt = s.succCnt ∧ t.seq = s.seq ∧
        ∀ i, bufByte t i = ((s.hid.rb.take s.hid.p.bytes)[i]?).getD (bufByte s i)

/-- R409, R410, R411: what follows the receiver's writes, whether taken or timed out: after the ACK of a block SEQ advances and
the command ends BLOCK; after a NAK the start-byte read; after the ACK of EOT the session ends SUCCEEDED. -/
def Obligations.ReceiverWritesLeadOn : Prop :=
  ∀ (e : Event) (s : State),
    (e = .tick ∧ s.hid.tmr.toNat ≤ 1) ∨
      (e = .txtake ∧ (∃ b, s.hid.ws[s.hid.wj]? = some b) ∧ s.hid.wj + 1 = s.hid.ws.length) →
    (s.hid.pt = .rxkWr → ∃ t, Takes e s t ∧ Ends .block s.status.phase t ∧ t.seq.toNat = (s.seq.toNat + 1) % 256) ∧
      (s.hid.pt = .rxn2Wr → ∃ t, Takes e s t ∧ ReadsNext .rxaRd 1 s.sessTmo s t ∧ t.seq = s.seq) ∧
      (s.hid.pt = .rxeWr → ∃ t, Takes e s t ∧ Ends .succeeded .idle t ∧ t.seq = s.seq ∧ t.byteCnt = s.byteCnt)

/-- 41 R256, R257; 44 R404 to R409: a receiver awaiting a start byte that is sent, byte by byte, the frame of its own SEQ and
mode over a payload of P bytes takes the whole frame, holds the payload in Buf[0..P-1], and after its ACK ends with BLOCK and
SEQ advanced. -/
def Obligations.ReceiverAcceptsTheSendersFrame : Prop :=
  ∀ (p : BlockSize) (chunk : List Byte) (c : Byte) (s : State), 1 ≤ chunk.length → chunk.length ≤ p.bytes →
    Awaits .rxaRd s →
    ∃ t, runEvents ((frame p s.seq s.status.useCrc chunk c).map .rx ++ [.txtake]) s = .next t ∧
      Ends .block s.status.phase t ∧ t.seq = s.seq + 1 ∧ t.errCnt = 0#8 ∧ t.trace = s.trace ++ [ACK] ∧
      t.rxLen.toNat = p.bytes ∧ t.byteCnt = s.byteCnt + BitVec.ofNat 32 p.bytes ∧
      bufRun t p.bytes = pad chunk p c

/-! ## Host port and reset (10_state.md, 20_memory.md, 60_exceptions.md, 70_reset_and_hazards.md) -/

/-- R101: an access that is not 32 bits wide, or whose offset has bits [1:0] other than 0: a write is ignored, a read returns 0
with no side effect. -/
def Obligations.UndefinedAccessesDoNothing : Prop :=
  ∀ (width : Nat) (off : Byte) (v : Word) (s : State), width ≠ 32 ∨ off.toNat % 4 ≠ 0 →
    Takes (.hostWr width off v) s s ∧ Takes (.hostRd width off) s { s with reads := s.reads ++ [0#32] }

/-- R102: unmapped offsets, reserved bits, RO registers and CMD's read. -/
def Obligations.ReservedAndReadOnlyAccesses : Prop :=
  (∀ (off : Byte) (v : Word) (s : State), 0x54 ≤ off.toNat → off.toNat ≤ 0xFC →
      Takes (.hostWr 32 off v) s s ∧ Takes (.hostRd 32 off) s { s with reads := s.reads ++ [0#32] }) ∧
    (∀ (r : Reg) (v : Word) (s : State), regValue r s &&& reservedBits r = 0#32 ∧
      (isReadOnly r = true → writeReg r v s = .next s) ∧ writeReg r (v &&& ~~~reservedBits r) s = writeReg r v s) ∧
    ∀ s : State, Takes (.hostRd 32 0x0C#8) s { s with reads := s.reads ++ [0#32] }

/-- R105: host accesses while BUSY = 1. -/
def Obligations.BusyAccesses : Prop :=
  ∀ (v : Word) (s : State), s.status.busy = true →
    (∀ off ∈ [0x04#8, 0x08#8, 0x1C#8, 0x3C#8, 0x44#8, 0x4C#8, 0x50#8], Takes (.hostWr 32 off v) s s) ∧
      Takes (.hostWr 32 0x0C#8 v) s { s with status := { s.status with ovr := true } } ∧
      Takes (.hostWr 32 0x10#8 v) s
        { s with status := { s.status with
            done := s.status.done && !v.getLsbD 1, ovr := s.status.ovr && !v.getLsbD 2 } } ∧
      (∀ off ∈ [0x50#8, 0x30#8, 0x34#8], Takes (.hostRd 32 off) s { s with reads := s.reads ++ [0#32] }) ∧
      ∀ x ∈ [(0x00#8, 0x55465831#32), (0x04#8, s.ctrl.word), (0x08#8, s.timeout.setWidth 32), (0x0C#8, 0#32),
            (0x10#8, statusWord s),
            (0x14#8, s.sessCfg.word), (0x18#8, s.sessTmo.setWidth 32), (0x1C#8, s.seq.setWidth 32),
            (0x20#8, s.errCnt.setWidth 32), (0x24#8, s.succCnt), (0x28#8, s.totCnt), (0x2C#8, s.byteCnt),
            (0x38#8, s.hdr.setWidth 32), (0x3C#8, s.trl.setWidth 32), (0x40#8, s.rxTrl.setWidth 32),
            (0x44#8, s.txLen.setWidth 32), (0x48#8, s.rxLen.setWidth 32), (0x4C#8, s.bufAddr.setWidth 32)],
        Takes (.hostRd 32 x.1) s { s with reads := s.reads ++ [x.2] }

/-- R106, R107, R108: BUFDATA and BUFADDR while BUSY = 0: a read returns Buf[BUFADDR] and advances, a write stores v[7:0] there,
leaves every other byte and advances, modulo 1024. -/
def Obligations.BufferPortReadsAndWrites : Prop :=
  ∀ (v : Word) (s : State), s.status.busy = false →
    (∃ t, Takes (.hostRd 32 0x50#8) s t ∧ t = { s with bufAddr := t.bufAddr, reads := t.reads } ∧
      t.bufAddr.toNat = (s.bufAddr.toNat + 1) % 1024 ∧
      t.reads = s.reads ++ [BitVec.ofNat 32 (bufByte s s.bufAddr.toNat).toNat]) ∧
    (∃ t, Takes (.hostWr 32 0x50#8 v) s t ∧ t = { s with bufAddr := t.bufAddr, buf := t.buf } ∧
      t.bufAddr.toNat = (s.bufAddr.toNat + 1) % 1024 ∧
      ∀ i, bufByte t i = if i = s.bufAddr.toNat then v.extractLsb' 0 8 else bufByte s i) ∧
    Takes (.hostWr 32 0x4C#8 v) s { s with bufAddr := v.extractLsb' 0 10 } ∧
    ∃ t, Takes (.hostRd 32 0x4C#8) s t ∧ t = { s with reads := s.reads ++ [s.bufAddr.setWidth 32] }

/-- R104, R33, R34, R39, R47, R49, R51: while BUSY = 0 a write to a plain RW register changes that register alone, and the next
read of it returns the value written with its reserved bits 0. R110, R31 to R51: while BUSY = 0 a read of any register but BUFDATA
returns its current value, CRC and CSUM among them, and has no side effect. -/
def Obligations.RegisterWritesReadBack : Prop :=
  ∀ (v : Word) (s : State), s.status.busy = false →
    (∀ x ∈ [(0x00#8, 0x55465831#32), (0x04#8, s.ctrl.word), (0x08#8, s.timeout.setWidth 32), (0x0C#8, 0#32),
          (0x10#8, statusWord s), (0x14#8, s.sessCfg.word), (0x18#8, s.sessTmo.setWidth 32), (0x1C#8, s.seq.setWidth 32),
          (0x20#8, s.errCnt.setWidth 32), (0x24#8, s.succCnt), (0x28#8, s.totCnt), (0x2C#8, s.byteCnt),
          (0x30#8, s.crc.setWidth 32), (0x34#8, s.csum.setWidth 32), (0x38#8, s.hdr.setWidth 32),
          (0x3C#8, s.trl.setWidth 32), (0x40#8, s.rxTrl.setWidth 32), (0x44#8, s.txLen.setWidth 32),
          (0x48#8, s.rxLen.setWidth 32), (0x4C#8, s.bufAddr.setWidth 32)],
        Takes (.hostRd 32 x.1) s { s with reads := s.reads ++ [x.2] }) ∧
    ∀ x ∈ [(0x04#8, 0x00FFFF0F#32), (0x08#8, 0x0000FFFF#32), (0x1C#8, 0x000000FF#32), (0x3C#8, 0x0000FFFF#32),
          (0x44#8, 0x000007FF#32), (0x4C#8, 0x000003FF#32)],
      ∃ t u, Takes (.hostWr 32 x.1 v) s t ∧ Takes (.hostRd 32 x.1) t u ∧
        u = { t with reads := s.reads ++ [v &&& x.2] } ∧
        t = { s with
            ctrl := if x.1 = 0x04#8 then t.ctrl else s.ctrl
            timeout := if x.1 = 0x08#8 then t.timeout else s.timeout
            seq := if x.1 = 0x1C#8 then t.seq else s.seq
            trl := if x.1 = 0x3C#8 then t.trl else s.trl
            txLen := if x.1 = 0x44#8 then t.txLen else s.txLen
            bufAddr := if x.1 = 0x4C#8 then t.bufAddr else s.bufAddr }

/-- R35, R301, R312, R501: the layout of STATUS, field by field, with the codes of PHASE, RESULT and STATE as the tables of R301,
R501 and R312 give them. -/
def Obligations.StatusLayout : Prop :=
  ∀ s : State,
    let w := statusWord s
    w.getLsbD 0 = s.status.busy ∧ w.getLsbD 1 = s.status.done ∧ w.getLsbD 2 = s.status.ovr ∧
      w.getLsbD 3 = s.status.txto ∧ w.getLsbD 4 = s.status.valid ∧ w.getLsbD 5 = s.status.useCrc ∧
      w.getLsbD 6 = s.status.canSeen ∧ w.getLsbD 7 = false ∧
      w.extractLsb' 8 2 =
        (match s.status.phase with
          | .idle => 0#2
          | .tx => 1#2
          | .rx => 2#2) ∧
      w.extractLsb' 10 2 = 0#2 ∧
      w.extractLsb' 12 4 =
        (match s.status.result with
          | .none => 0#4
          | .ok => 1#4
          | .negotiated => 2#4
          | .acked => 3#4
          | .succeeded => 4#4
          | .block => 5#4
          | .negTimeout => 6#4
          | .cancelled => 7#4
          | .declined => 8#4
          | .ackTimeout => 9#4
          | .integrity => 10#4
          | .invalidMode => 11#4
          | .badCmd => 12#4
          | .badLength => 13#4) ∧
      w.extractLsb' 16 8 =
        (match s.hid.pt with
          | .idle => 0x00#8
          | .txnRd => 0x10#8
          | .txbWr => 0x11#8
          | .txbRd => 0x12#8
          | .txeWr => 0x13#8
          | .txeRd => 0x14#8
          | .rxnWr => 0x20#8
          | .rxnRd => 0x21#8
          | .rxaRd => 0x22#8
          | .rxsRd => 0x23#8
          | .rxcRd => 0x24#8
          | .rxdRd => 0x25#8
          | .rxxRd => 0x26#8
          | .rxpRd => 0x27#8
          | .rxkWr => 0x28#8
          | .rxn2Wr => 0x29#8
          | .rxeWr => 0x2A#8
          | .canWr _ => 0x30#8) ∧
      w.extractLsb' 24 8 = 0#8 ∧ w.extractLsb' 8 2 ≠ 3#2 ∧ (w.extractLsb' 12 4).toNat ≤ 13

/-- R507: STATUS bits 1 and 2 are write-1-to-clear and no other bit is written, busy or not; DONE is 0 while a command runs;
OVR is set only by an ignored CMD write and cleared only by a write of 1 to it or by reset. -/
def Obligations.StatusWriteClears : Prop :=
  (∀ (v : Word) (s : State),
      Takes (.hostWr 32 0x10#8 v) s
        { s with status := { s.status with
            done := if v.getLsbD 1 then false else s.status.done
            ovr := if v.getLsbD 2 then false else s.status.ovr } }) ∧
    (∀ s : State, BlockInv s → s.status.busy = true → s.status.done = false) ∧
    ∀ (e : Event) (s t : State), Event.enabled s.hid.pt e = true → Takes e s t →
      (s.status.ovr = false → t.status.ovr = true → s.status.busy = true ∧ ∃ v, e = .hostWr 32 0x0C#8 v) ∧
        (s.status.ovr = true → t.status.ovr = false →
          e = .reset ∨ ∃ v, e = .hostWr 32 0x10#8 v ∧ v.getLsbD 2 = true)

/-- R506: irq is the level DONE and IE; acceptance lowers it, and so does a 1 written to STATUS bit 1; while BUSY = 0 a write
to IE takes effect at once. -/
def Obligations.InterruptFollowsDone : Prop :=
  (∀ s : State, irq s = (s.status.done && s.ctrl.ie)) ∧
    (∀ (b : Byte) (h : Half) (s : State), irq (accept b h s) = false) ∧
    (∀ (v : Word) (s : State), v.getLsbD 1 = true → ∃ t, Takes (.hostWr 32 0x10#8 v) s t ∧ irq t = false) ∧
    ∀ (v : Word) (s : State), s.status.busy = false →
      ∃ t, Takes (.hostWr 32 0x04#8 v) s t ∧ irq t = (s.status.done && v.getLsbD 3)

/-- R600, R601: a reset event, whatever the block was doing, leaves every register at its reset value as the host reads it, no
buffer byte written, the sequencer idle and irq low; it sends no CAN, emits no progress event and completes nothing, and the
outputs already made and what waits in the transport stand; the state after reset has the same values. -/
def Obligations.ResetLeavesTheResetValues : Prop :=
  ∀ s : State, ∃ t, Takes .reset s t ∧ t.unit = s.unit ∧ t.trace = s.trace ∧ t.progress = s.progress ∧ t.reads = s.reads ∧ t.inputs = s.inputs ∧
    ∀ u ∈ [t, State.reset],
      (∀ x ∈ [(Reg.id, 0x55465831#32), (Reg.ctrl, 0x00101A04#32), (Reg.timeout, 0x0000003C#32), (Reg.cmd, 0#32),
            (Reg.status, 0#32), (Reg.sessCfg, 0x00101A04#32), (Reg.sessTmo, 0x0000003C#32), (Reg.seq, 1#32),
            (Reg.errCnt, 0#32), (Reg.succCnt, 0#32), (Reg.totCnt, 0#32), (Reg.byteCnt, 0#32), (Reg.crc, 0#32),
            (Reg.csum, 0#32), (Reg.hdr, 0#32), (Reg.trl, 0#32), (Reg.rxTrl, 0#32), (Reg.txLen, 0#32),
            (Reg.rxLen, 0#32), (Reg.bufAddr, 0#32)], regValue x.1 u = x.2) ∧
        (∀ i, u.buf.get? i = none) ∧ u.hid.pt = .idle ∧ irq u = false

/-- R159, R106, R107, R212: filling the buffer through the host port and then ENG.CALC over it leaves the CRC and the checksum
of the bytes filled in; draining it returns them. -/
def Obligations.FillThenCalcAndDrain : Prop :=
  ∀ (d : List Byte) (s : State), d.length ≤ 1024 → s.status.busy = false → s.hid.pt = .idle →
    ∃ t u, runEvents (hostEvents (fillBuffer d ++ engCalc (BitVec.ofNat 16 d.length))) s = .next t ∧
      t.crc = crc16 d 0 ∧ t.csum = checksum d 0 ∧ t.status.result = .ok ∧ t.trace = s.trace ∧
      runEvents (hostEvents (drainBuffer d.length)) t = .next u ∧
      u.reads = t.reads ++ d.map fun b => b.setWidth 32

/-! ## Whole-machine rules -/

/-- 10 R54 to R57, 20 R109, 42 R309, R310, 43 R358, 70 R605: the frame of a link or timer event: txtake and a tick at a write
point leave ERRCNT and CANSEEN among the rest. The hidden items that no rule writes there keep their values while the command runs
(FR through every resend, R353; LASTPROBE from its probe to the reply, R401). -/
def Obligations.LinkEventFrame : Prop :=
  ∀ (e : Event) (s t : State), (∃ b, e = .rx b) ∨ e = .txtake ∨ e = .tick → Event.enabled s.hid.pt e = true →
    Takes e s t →
    t.ctrl = s.ctrl ∧ t.timeout = s.timeout ∧ t.sessCfg = s.sessCfg ∧ t.sessTmo = s.sessTmo ∧ t.txLen = s.txLen ∧
      t.bufAddr = s.bufAddr ∧ t.unit = s.unit ∧ t.bufDraw = s.bufDraw ∧ t.hdr = s.hdr ∧ t.trl = s.trl ∧ t.totCnt = s.totCnt ∧
      t.reads = s.reads ∧ t.inputs = s.inputs ∧ t.status.ovr = s.status.ovr ∧ t.status.valid = s.status.valid ∧
      (s.hid.pt ≠ .txbRd → s.hid.pt ≠ .rxkWr → t.seq = s.seq) ∧
      (s.hid.pt ≠ .txbRd → s.hid.pt ≠ .rxdRd → t.succCnt = s.succCnt) ∧
      (s.hid.pt ≠ .txbRd → t.progress = s.progress) ∧
      (s.hid.pt ≠ .rxdRd →
        t.byteCnt = s.byteCnt ∧ t.rxLen = s.rxLen ∧ t.rxTrl = s.rxTrl ∧ t.crc = s.crc ∧ t.csum = s.csum ∧
          ∀ i, bufByte t i = bufByte s i) ∧
      (s.hid.pt ≠ .txnRd → s.hid.pt ≠ .rxnRd → t.status.useCrc = s.status.useCrc) ∧
      ((∀ b, e ≠ .rx b) ∨ s.hid.pt.isControl = false → t.status.canSeen = s.status.canSeen) ∧
      (s.hid.pt ∉ [Point.txnRd, .txbRd, .txeRd, .rxnRd, .rxaRd, .rxdRd, .rxxRd] → t.errCnt = s.errCnt) ∧
      (s.hid.pt ≠ .rxpRd → t.purgeDraw = s.purgeDraw) ∧
      (t.hid.pt ≠ .idle →
        t.hid.cmd = s.hid.cmd ∧ t.hid.opb = s.hid.opb ∧ t.hid.oph = s.hid.oph ∧ t.hid.fr = s.hid.fr ∧
          (s.hid.pt ≠ .rxnRd → t.hid.lastProbe = s.hid.lastProbe) ∧
          (s.hid.pt ≠ .rxnRd → s.hid.pt ≠ .rxaRd → t.hid.p = s.hid.p ∧ t.hid.t = s.hid.t) ∧
          (s.hid.pt ≠ .rxsRd → t.hid.q1 = s.hid.q1) ∧
          (t.hid.pt.isWrite = true → t.hid.pt = s.hid.pt → t.hid.ws = s.hid.ws)) ∧
      (e ≠ .txtake → t.trace = s.trace) ∧
      (s.hid.pt.isWrite = false → t.status.txto = s.status.txto)

/-- R53, R109: a step changes a buffer byte only by the host's BUFDATA write at BUFADDR, by the receiver's data read below P, or
by reset. -/
def Obligations.OnlyTwoWritersOfTheBuffer : Prop :=
  ∀ (e : Event) (i : Nat) (s t : State), Event.enabled s.hid.pt e = true → Takes e s t → bufByte t i ≠ bufByte s i →
    (∃ v, e = .hostWr 32 0x50#8 v ∧ s.status.busy = false ∧ i = s.bufAddr.toNat ∧ bufByte t i = v.extractLsb' 0 8) ∨
      ((e = .tick ∨ ∃ b, e = .rx b) ∧ s.hid.pt = .rxdRd ∧ i < s.hid.p.bytes) ∨ e = .reset

/-- R55, R121, R358: the outputs only grow. The trace grows by one byte per txtake, the byte the running LinkWrite presents;
only TX.BLK's reply outcomes emit a progress event, one each, with TOTCNT, SUCCNT and ERRCNT as they then stand; only a host
read appends a returned value. -/
def Obligations.OutputsOnlyGrow : Prop :=
  ∀ (e : Event) (s t : State), Event.enabled s.hid.pt e = true → Takes e s t →
    (e ≠ .txtake → t.trace = s.trace) ∧
      (e = .txtake → ∃ b, s.hid.ws[s.hid.wj]? = some b ∧ t.trace = s.trace ++ [b]) ∧
      (t.progress = s.progress ∨
        (s.hid.pt = .txbRd ∧ (e = .tick ∨ ∃ b, e = .rx b) ∧ t.progress = s.progress ++ [⟨t.totCnt, t.succCnt, t.errCnt⟩])) ∧
      (t.reads = s.reads ∨ ∃ width off v, e = .hostRd width off ∧ t.reads = s.reads ++ [v])

/-- R301: PHASE changes only at the points the rule names. -/
def Obligations.PhaseChangesOnlyAtNamedPoints : Prop :=
  ∀ (e : Event) (s t : State), Event.enabled s.hid.pt e = true → Takes e s t → t.status.phase ≠ s.status.phase →
    (t.status.phase = .tx ∧ s.hid.pt = .txnRd ∧ t.status.result = .negotiated) ∨
      (t.status.phase = .rx ∧ s.hid.pt = .rxnRd ∧ t.hid.pt = .rxsRd) ∨
      (t.status.phase = .idle ∧
        (e = .reset ∨
          (∃ v, e = .hostWr 32 0x0C#8 v ∧ s.status.busy = false ∧
            (decode v = .ok .txNeg ∧ t.hid.pt = .txnRd ∨ decode v = .ok .rxNeg ∧ t.hid.pt = .rxnWr)) ∨
          (t.hid.pt = .idle ∧ (t.status.result = .succeeded ∨ t.status.result = .cancelled ∨
            s.hid.pt = .canWr t.status.result))))

/-- R502: which phase each result leaves, for a command that ends in a step from any state that meets the invariant. -/
def Obligations.ResultFixesThePhase : Prop :=
  ∀ (e : Event) (s t : State), BlockInv s → Event.enabled s.hid.pt e = true → Takes e s t → e ≠ .reset →
    (s.status.busy = true ∨ ∃ v, e = .hostWr 32 0x0C#8 v) → t.status.busy = false →
    (t.status.result = .negotiated ∨ t.status.result = .acked → t.status.phase = .tx) ∧
      (t.status.result = .block → t.status.phase = .rx) ∧
      (t.status.result = .succeeded ∨ t.status.result = .negTimeout ∨ t.status.result = .cancelled ∨
          t.status.result = .declined ∨ t.status.result = .ackTimeout ∨ t.status.result = .integrity →
        t.status.phase = .idle) ∧
      (t.status.result = .ok ∨ t.status.result = .invalidMode ∨ t.status.result = .badCmd ∨ t.status.result = .badLength →
        t.status.phase = s.status.phase) ∧
      t.status.result ≠ .none ∧ t.status.done = true

/-- R39, R258: SEQ changes only by a sender ACK or a block's acceptance (+1 modulo 256), by a host write while BUSY = 0, by a
session open (to 1) or by reset (to 1). -/
def Obligations.SequenceAdvancesOnlyOnAcceptance : Prop :=
  ∀ (e : Event) (s t : State), Event.enabled s.hid.pt e = true → Takes e s t → t.seq ≠ s.seq →
    (t.seq.toNat = (s.seq.toNat + 1) % 256 ∧
        (s.hid.pt = .txbRd ∧ t.status.result = .acked ∨ s.hid.pt = .rxkWr ∧ t.status.result = .block)) ∨
      (∃ v, e = .hostWr 32 0x1C#8 v ∧ s.status.busy = false ∧ t.seq = v.extractLsb' 0 8) ∨
      (t.seq = 1#8 ∧ (e = .reset ∨ ∃ v, e = .hostWr 32 0x0C#8 v ∧ s.status.busy = false ∧
        (decode v = .ok .txNeg ∨ decode v = .ok .rxNeg)))

/-- R605: the sequencer never reads CTRL or TIMEOUT: two states that differ only there take a link or timer event, or the
acceptance of any command but TX.NEG and RX.NEG, to states that differ only there; IE alone takes effect at once, through irq. -/
def Obligations.LatchedConfigurationOnly : Prop :=
  (∀ (e : Event) (c : Ctrl) (tmo : Half) (s t : State), (∃ b, e = .rx b) ∨ e = .txtake ∨ e = .tick →
      Event.enabled s.hid.pt e = true → Takes e s t →
      Takes e { s with ctrl := c, timeout := tmo } { t with ctrl := c, timeout := tmo }) ∧
    (∀ (i : Instr) (c : Ctrl) (tmo : Half) (s t : State), i ≠ .txNeg → i ≠ .rxNeg → exec i s = .next t →
      exec i { s with ctrl := c, timeout := tmo } = .next { t with ctrl := c, timeout := tmo }) ∧
    ∀ (c : Ctrl) (s : State), irq { s with ctrl := c } = (s.status.done && c.ie)

/-- The state after reset meets the invariant. -/
def Obligations.ResetMeetsTheInvariant : Prop := BlockInv State.reset

/-- 10 R53, R54, R56; 20 R120, R121; 42 R301, R305, R308, R312; 43 R353; 44 R401, R405: every step from any state that meets
the invariant leaves a state that meets it. -/
def Obligations.StepKeepsTheInvariant : Prop :=
  ∀ s t : State, BlockInv s → step s = .next t → BlockInv t

/-- R500: from every state that meets the invariant a step answers a next state: nothing faults and nothing is refused. -/
def Obligations.NoStepStops : Prop :=
  ∀ s : State, BlockInv s → ∃ t, step s = .next t
end

