-- ==== Sys2Proof/Laws/State.lean ====
section
/-! SUPPORT. One lemma per field per named update of the state, true by rfl: no later proof unfolds a record update. -/

namespace Sys2Proof.Machine

variable (s : State)

/-! ## `complete` -/

@[simp] theorem complete_ctrl (c : ResultCode) : (complete c s).ctrl = s.ctrl := rfl
@[simp] theorem complete_timeout (c : ResultCode) : (complete c s).timeout = s.timeout := rfl
@[simp] theorem complete_sessCfg (c : ResultCode) : (complete c s).sessCfg = s.sessCfg := rfl
@[simp] theorem complete_sessTmo (c : ResultCode) : (complete c s).sessTmo = s.sessTmo := rfl
@[simp] theorem complete_status (c : ResultCode) : (complete c s).status = { s.status with result := c, busy := false, done := true } := rfl
@[simp] theorem complete_seq (c : ResultCode) : (complete c s).seq = s.seq := rfl
@[simp] theorem complete_errCnt (c : ResultCode) : (complete c s).errCnt = s.errCnt := rfl
@[simp] theorem complete_succCnt (c : ResultCode) : (complete c s).succCnt = s.succCnt := rfl
@[simp] theorem complete_totCnt (c : ResultCode) : (complete c s).totCnt = s.totCnt := rfl
@[simp] theorem complete_byteCnt (c : ResultCode) : (complete c s).byteCnt = s.byteCnt := rfl
@[simp] theorem complete_crc (c : ResultCode) : (complete c s).crc = s.crc := rfl
@[simp] theorem complete_csum (c : ResultCode) : (complete c s).csum = s.csum := rfl
@[simp] theorem complete_hdr (c : ResultCode) : (complete c s).hdr = s.hdr := rfl
@[simp] theorem complete_trl (c : ResultCode) : (complete c s).trl = s.trl := rfl
@[simp] theorem complete_rxTrl (c : ResultCode) : (complete c s).rxTrl = s.rxTrl := rfl
@[simp] theorem complete_txLen (c : ResultCode) : (complete c s).txLen = s.txLen := rfl
@[simp] theorem complete_rxLen (c : ResultCode) : (complete c s).rxLen = s.rxLen := rfl
@[simp] theorem complete_bufAddr (c : ResultCode) : (complete c s).bufAddr = s.bufAddr := rfl
@[simp] theorem complete_buf (c : ResultCode) : (complete c s).buf = s.buf := rfl
@[simp] theorem complete_bufDraw (c : ResultCode) : (complete c s).bufDraw = s.bufDraw := rfl
@[simp] theorem complete_unit (c : ResultCode) : (complete c s).unit = s.unit := rfl
@[simp] theorem complete_purgeHeard (c : ResultCode) : (complete c s).purgeHeard = s.purgeHeard := rfl
@[simp] theorem complete_purgeDraw (c : ResultCode) : (complete c s).purgeDraw = s.purgeDraw := rfl
@[simp] theorem complete_hid (c : ResultCode) : (complete c s).hid = { s.hid with pt := .idle, cmd := none } := rfl
@[simp] theorem complete_trace (c : ResultCode) : (complete c s).trace = s.trace := rfl
@[simp] theorem complete_progress (c : ResultCode) : (complete c s).progress = s.progress := rfl
@[simp] theorem complete_reads (c : ResultCode) : (complete c s).reads = s.reads := rfl
@[simp] theorem complete_inputs (c : ResultCode) : (complete c s).inputs = s.inputs := rfl

/-! ## `setPhase` -/

@[simp] theorem setPhase_ctrl (p : Phase) : (setPhase p s).ctrl = s.ctrl := rfl
@[simp] theorem setPhase_timeout (p : Phase) : (setPhase p s).timeout = s.timeout := rfl
@[simp] theorem setPhase_sessCfg (p : Phase) : (setPhase p s).sessCfg = s.sessCfg := rfl
@[simp] theorem setPhase_sessTmo (p : Phase) : (setPhase p s).sessTmo = s.sessTmo := rfl
@[simp] theorem setPhase_status (p : Phase) : (setPhase p s).status = { s.status with phase := p } := rfl
@[simp] theorem setPhase_seq (p : Phase) : (setPhase p s).seq = s.seq := rfl
@[simp] theorem setPhase_errCnt (p : Phase) : (setPhase p s).errCnt = s.errCnt := rfl
@[simp] theorem setPhase_succCnt (p : Phase) : (setPhase p s).succCnt = s.succCnt := rfl
@[simp] theorem setPhase_totCnt (p : Phase) : (setPhase p s).totCnt = s.totCnt := rfl
@[simp] theorem setPhase_byteCnt (p : Phase) : (setPhase p s).byteCnt = s.byteCnt := rfl
@[simp] theorem setPhase_crc (p : Phase) : (setPhase p s).crc = s.crc := rfl
@[simp] theorem setPhase_csum (p : Phase) : (setPhase p s).csum = s.csum := rfl
@[simp] theorem setPhase_hdr (p : Phase) : (setPhase p s).hdr = s.hdr := rfl
@[simp] theorem setPhase_trl (p : Phase) : (setPhase p s).trl = s.trl := rfl
@[simp] theorem setPhase_rxTrl (p : Phase) : (setPhase p s).rxTrl = s.rxTrl := rfl
@[simp] theorem setPhase_txLen (p : Phase) : (setPhase p s).txLen = s.txLen := rfl
@[simp] theorem setPhase_rxLen (p : Phase) : (setPhase p s).rxLen = s.rxLen := rfl
@[simp] theorem setPhase_bufAddr (p : Phase) : (setPhase p s).bufAddr = s.bufAddr := rfl
@[simp] theorem setPhase_buf (p : Phase) : (setPhase p s).buf = s.buf := rfl
@[simp] theorem setPhase_bufDraw (p : Phase) : (setPhase p s).bufDraw = s.bufDraw := rfl
@[simp] theorem setPhase_unit (p : Phase) : (setPhase p s).unit = s.unit := rfl
@[simp] theorem setPhase_purgeHeard (p : Phase) : (setPhase p s).purgeHeard = s.purgeHeard := rfl
@[simp] theorem setPhase_purgeDraw (p : Phase) : (setPhase p s).purgeDraw = s.purgeDraw := rfl
@[simp] theorem setPhase_hid (p : Phase) : (setPhase p s).hid = s.hid := rfl
@[simp] theorem setPhase_trace (p : Phase) : (setPhase p s).trace = s.trace := rfl
@[simp] theorem setPhase_progress (p : Phase) : (setPhase p s).progress = s.progress := rfl
@[simp] theorem setPhase_reads (p : Phase) : (setPhase p s).reads = s.reads := rfl
@[simp] theorem setPhase_inputs (p : Phase) : (setPhase p s).inputs = s.inputs := rfl

/-! ## `setUseCrc` -/

@[simp] theorem setUseCrc_ctrl (u : Bool) : (setUseCrc u s).ctrl = s.ctrl := rfl
@[simp] theorem setUseCrc_timeout (u : Bool) : (setUseCrc u s).timeout = s.timeout := rfl
@[simp] theorem setUseCrc_sessCfg (u : Bool) : (setUseCrc u s).sessCfg = s.sessCfg := rfl
@[simp] theorem setUseCrc_sessTmo (u : Bool) : (setUseCrc u s).sessTmo = s.sessTmo := rfl
@[simp] theorem setUseCrc_status (u : Bool) : (setUseCrc u s).status = { s.status with useCrc := u } := rfl
@[simp] theorem setUseCrc_seq (u : Bool) : (setUseCrc u s).seq = s.seq := rfl
@[simp] theorem setUseCrc_errCnt (u : Bool) : (setUseCrc u s).errCnt = s.errCnt := rfl
@[simp] theorem setUseCrc_succCnt (u : Bool) : (setUseCrc u s).succCnt = s.succCnt := rfl
@[simp] theorem setUseCrc_totCnt (u : Bool) : (setUseCrc u s).totCnt = s.totCnt := rfl
@[simp] theorem setUseCrc_byteCnt (u : Bool) : (setUseCrc u s).byteCnt = s.byteCnt := rfl
@[simp] theorem setUseCrc_crc (u : Bool) : (setUseCrc u s).crc = s.crc := rfl
@[simp] theorem setUseCrc_csum (u : Bool) : (setUseCrc u s).csum = s.csum := rfl
@[simp] theorem setUseCrc_hdr (u : Bool) : (setUseCrc u s).hdr = s.hdr := rfl
@[simp] theorem setUseCrc_trl (u : Bool) : (setUseCrc u s).trl = s.trl := rfl
@[simp] theorem setUseCrc_rxTrl (u : Bool) : (setUseCrc u s).rxTrl = s.rxTrl := rfl
@[simp] theorem setUseCrc_txLen (u : Bool) : (setUseCrc u s).txLen = s.txLen := rfl
@[simp] theorem setUseCrc_rxLen (u : Bool) : (setUseCrc u s).rxLen = s.rxLen := rfl
@[simp] theorem setUseCrc_bufAddr (u : Bool) : (setUseCrc u s).bufAddr = s.bufAddr := rfl
@[simp] theorem setUseCrc_buf (u : Bool) : (setUseCrc u s).buf = s.buf := rfl
@[simp] theorem setUseCrc_bufDraw (u : Bool) : (setUseCrc u s).bufDraw = s.bufDraw := rfl
@[simp] theorem setUseCrc_unit (u : Bool) : (setUseCrc u s).unit = s.unit := rfl
@[simp] theorem setUseCrc_purgeHeard (u : Bool) : (setUseCrc u s).purgeHeard = s.purgeHeard := rfl
@[simp] theorem setUseCrc_purgeDraw (u : Bool) : (setUseCrc u s).purgeDraw = s.purgeDraw := rfl
@[simp] theorem setUseCrc_hid (u : Bool) : (setUseCrc u s).hid = s.hid := rfl
@[simp] theorem setUseCrc_trace (u : Bool) : (setUseCrc u s).trace = s.trace := rfl
@[simp] theorem setUseCrc_progress (u : Bool) : (setUseCrc u s).progress = s.progress := rfl
@[simp] theorem setUseCrc_reads (u : Bool) : (setUseCrc u s).reads = s.reads := rfl
@[simp] theorem setUseCrc_inputs (u : Bool) : (setUseCrc u s).inputs = s.inputs := rfl

/-! ## `noteCan` -/

@[simp] theorem noteCan_ctrl (b : Byte) : (noteCan b s).ctrl = s.ctrl := rfl
@[simp] theorem noteCan_timeout (b : Byte) : (noteCan b s).timeout = s.timeout := rfl
@[simp] theorem noteCan_sessCfg (b : Byte) : (noteCan b s).sessCfg = s.sessCfg := rfl
@[simp] theorem noteCan_sessTmo (b : Byte) : (noteCan b s).sessTmo = s.sessTmo := rfl
@[simp] theorem noteCan_status (b : Byte) : (noteCan b s).status = { s.status with canSeen := decide (b = CAN) } := rfl
@[simp] theorem noteCan_seq (b : Byte) : (noteCan b s).seq = s.seq := rfl
@[simp] theorem noteCan_errCnt (b : Byte) : (noteCan b s).errCnt = s.errCnt := rfl
@[simp] theorem noteCan_succCnt (b : Byte) : (noteCan b s).succCnt = s.succCnt := rfl
@[simp] theorem noteCan_totCnt (b : Byte) : (noteCan b s).totCnt = s.totCnt := rfl
@[simp] theorem noteCan_byteCnt (b : Byte) : (noteCan b s).byteCnt = s.byteCnt := rfl
@[simp] theorem noteCan_crc (b : Byte) : (noteCan b s).crc = s.crc := rfl
@[simp] theorem noteCan_csum (b : Byte) : (noteCan b s).csum = s.csum := rfl
@[simp] theorem noteCan_hdr (b : Byte) : (noteCan b s).hdr = s.hdr := rfl
@[simp] theorem noteCan_trl (b : Byte) : (noteCan b s).trl = s.trl := rfl
@[simp] theorem noteCan_rxTrl (b : Byte) : (noteCan b s).rxTrl = s.rxTrl := rfl
@[simp] theorem noteCan_txLen (b : Byte) : (noteCan b s).txLen = s.txLen := rfl
@[simp] theorem noteCan_rxLen (b : Byte) : (noteCan b s).rxLen = s.rxLen := rfl
@[simp] theorem noteCan_bufAddr (b : Byte) : (noteCan b s).bufAddr = s.bufAddr := rfl
@[simp] theorem noteCan_buf (b : Byte) : (noteCan b s).buf = s.buf := rfl
@[simp] theorem noteCan_bufDraw (b : Byte) : (noteCan b s).bufDraw = s.bufDraw := rfl
@[simp] theorem noteCan_unit (b : Byte) : (noteCan b s).unit = s.unit := rfl
@[simp] theorem noteCan_purgeHeard (b : Byte) : (noteCan b s).purgeHeard = s.purgeHeard := rfl
@[simp] theorem noteCan_purgeDraw (b : Byte) : (noteCan b s).purgeDraw = s.purgeDraw := rfl
@[simp] theorem noteCan_hid (b : Byte) : (noteCan b s).hid = s.hid := rfl
@[simp] theorem noteCan_trace (b : Byte) : (noteCan b s).trace = s.trace := rfl
@[simp] theorem noteCan_progress (b : Byte) : (noteCan b s).progress = s.progress := rfl
@[simp] theorem noteCan_reads (b : Byte) : (noteCan b s).reads = s.reads := rfl
@[simp] theorem noteCan_inputs (b : Byte) : (noteCan b s).inputs = s.inputs := rfl

/-! ## `setTxto` -/

@[simp] theorem setTxto_ctrl : (setTxto s).ctrl = s.ctrl := rfl
@[simp] theorem setTxto_timeout : (setTxto s).timeout = s.timeout := rfl
@[simp] theorem setTxto_sessCfg : (setTxto s).sessCfg = s.sessCfg := rfl
@[simp] theorem setTxto_sessTmo : (setTxto s).sessTmo = s.sessTmo := rfl
@[simp] theorem setTxto_status : (setTxto s).status = { s.status with txto := true } := rfl
@[simp] theorem setTxto_seq : (setTxto s).seq = s.seq := rfl
@[simp] theorem setTxto_errCnt : (setTxto s).errCnt = s.errCnt := rfl
@[simp] theorem setTxto_succCnt : (setTxto s).succCnt = s.succCnt := rfl
@[simp] theorem setTxto_totCnt : (setTxto s).totCnt = s.totCnt := rfl
@[simp] theorem setTxto_byteCnt : (setTxto s).byteCnt = s.byteCnt := rfl
@[simp] theorem setTxto_crc : (setTxto s).crc = s.crc := rfl
@[simp] theorem setTxto_csum : (setTxto s).csum = s.csum := rfl
@[simp] theorem setTxto_hdr : (setTxto s).hdr = s.hdr := rfl
@[simp] theorem setTxto_trl : (setTxto s).trl = s.trl := rfl
@[simp] theorem setTxto_rxTrl : (setTxto s).rxTrl = s.rxTrl := rfl
@[simp] theorem setTxto_txLen : (setTxto s).txLen = s.txLen := rfl
@[simp] theorem setTxto_rxLen : (setTxto s).rxLen = s.rxLen := rfl
@[simp] theorem setTxto_bufAddr : (setTxto s).bufAddr = s.bufAddr := rfl
@[simp] theorem setTxto_buf : (setTxto s).buf = s.buf := rfl
@[simp] theorem setTxto_bufDraw : (setTxto s).bufDraw = s.bufDraw := rfl
@[simp] theorem setTxto_unit : (setTxto s).unit = s.unit := rfl
@[simp] theorem setTxto_purgeHeard : (setTxto s).purgeHeard = s.purgeHeard := rfl
@[simp] theorem setTxto_purgeDraw : (setTxto s).purgeDraw = s.purgeDraw := rfl
@[simp] theorem setTxto_hid : (setTxto s).hid = s.hid := rfl
@[simp] theorem setTxto_trace : (setTxto s).trace = s.trace := rfl
@[simp] theorem setTxto_progress : (setTxto s).progress = s.progress := rfl
@[simp] theorem setTxto_reads : (setTxto s).reads = s.reads := rfl
@[simp] theorem setTxto_inputs : (setTxto s).inputs = s.inputs := rfl

/-! ## `overrun` -/

@[simp] theorem overrun_ctrl : (overrun s).ctrl = s.ctrl := rfl
@[simp] theorem overrun_timeout : (overrun s).timeout = s.timeout := rfl
@[simp] theorem overrun_sessCfg : (overrun s).sessCfg = s.sessCfg := rfl
@[simp] theorem overrun_sessTmo : (overrun s).sessTmo = s.sessTmo := rfl
@[simp] theorem overrun_status : (overrun s).status = { s.status with ovr := true } := rfl
@[simp] theorem overrun_seq : (overrun s).seq = s.seq := rfl
@[simp] theorem overrun_errCnt : (overrun s).errCnt = s.errCnt := rfl
@[simp] theorem overrun_succCnt : (overrun s).succCnt = s.succCnt := rfl
@[simp] theorem overrun_totCnt : (overrun s).totCnt = s.totCnt := rfl
@[simp] theorem overrun_byteCnt : (overrun s).byteCnt = s.byteCnt := rfl
@[simp] theorem overrun_crc : (overrun s).crc = s.crc := rfl
@[simp] theorem overrun_csum : (overrun s).csum = s.csum := rfl
@[simp] theorem overrun_hdr : (overrun s).hdr = s.hdr := rfl
@[simp] theorem overrun_trl : (overrun s).trl = s.trl := rfl
@[simp] theorem overrun_rxTrl : (overrun s).rxTrl = s.rxTrl := rfl
@[simp] theorem overrun_txLen : (overrun s).txLen = s.txLen := rfl
@[simp] theorem overrun_rxLen : (overrun s).rxLen = s.rxLen := rfl
@[simp] theorem overrun_bufAddr : (overrun s).bufAddr = s.bufAddr := rfl
@[simp] theorem overrun_buf : (overrun s).buf = s.buf := rfl
@[simp] theorem overrun_bufDraw : (overrun s).bufDraw = s.bufDraw := rfl
@[simp] theorem overrun_unit : (overrun s).unit = s.unit := rfl
@[simp] theorem overrun_purgeHeard : (overrun s).purgeHeard = s.purgeHeard := rfl
@[simp] theorem overrun_purgeDraw : (overrun s).purgeDraw = s.purgeDraw := rfl
@[simp] theorem overrun_hid : (overrun s).hid = s.hid := rfl
@[simp] theorem overrun_trace : (overrun s).trace = s.trace := rfl
@[simp] theorem overrun_progress : (overrun s).progress = s.progress := rfl
@[simp] theorem overrun_reads : (overrun s).reads = s.reads := rfl
@[simp] theorem overrun_inputs : (overrun s).inputs = s.inputs := rfl

/-! ## `startCmd` -/

@[simp] theorem startCmd_ctrl (c : LinkCmd) : (startCmd c s).ctrl = s.ctrl := rfl
@[simp] theorem startCmd_timeout (c : LinkCmd) : (startCmd c s).timeout = s.timeout := rfl
@[simp] theorem startCmd_sessCfg (c : LinkCmd) : (startCmd c s).sessCfg = s.sessCfg := rfl
@[simp] theorem startCmd_sessTmo (c : LinkCmd) : (startCmd c s).sessTmo = s.sessTmo := rfl
@[simp] theorem startCmd_status (c : LinkCmd) : (startCmd c s).status = s.status := rfl
@[simp] theorem startCmd_seq (c : LinkCmd) : (startCmd c s).seq = s.seq := rfl
@[simp] theorem startCmd_errCnt (c : LinkCmd) : (startCmd c s).errCnt = s.errCnt := rfl
@[simp] theorem startCmd_succCnt (c : LinkCmd) : (startCmd c s).succCnt = s.succCnt := rfl
@[simp] theorem startCmd_totCnt (c : LinkCmd) : (startCmd c s).totCnt = s.totCnt := rfl
@[simp] theorem startCmd_byteCnt (c : LinkCmd) : (startCmd c s).byteCnt = s.byteCnt := rfl
@[simp] theorem startCmd_crc (c : LinkCmd) : (startCmd c s).crc = s.crc := rfl
@[simp] theorem startCmd_csum (c : LinkCmd) : (startCmd c s).csum = s.csum := rfl
@[simp] theorem startCmd_hdr (c : LinkCmd) : (startCmd c s).hdr = s.hdr := rfl
@[simp] theorem startCmd_trl (c : LinkCmd) : (startCmd c s).trl = s.trl := rfl
@[simp] theorem startCmd_rxTrl (c : LinkCmd) : (startCmd c s).rxTrl = s.rxTrl := rfl
@[simp] theorem startCmd_txLen (c : LinkCmd) : (startCmd c s).txLen = s.txLen := rfl
@[simp] theorem startCmd_rxLen (c : LinkCmd) : (startCmd c s).rxLen = s.rxLen := rfl
@[simp] theorem startCmd_bufAddr (c : LinkCmd) : (startCmd c s).bufAddr = s.bufAddr := rfl
@[simp] theorem startCmd_buf (c : LinkCmd) : (startCmd c s).buf = s.buf := rfl
@[simp] theorem startCmd_bufDraw (c : LinkCmd) : (startCmd c s).bufDraw = s.bufDraw := rfl
@[simp] theorem startCmd_unit (c : LinkCmd) : (startCmd c s).unit = s.unit := rfl
@[simp] theorem startCmd_purgeHeard (c : LinkCmd) : (startCmd c s).purgeHeard = s.purgeHeard := rfl
@[simp] theorem startCmd_purgeDraw (c : LinkCmd) : (startCmd c s).purgeDraw = s.purgeDraw := rfl
@[simp] theorem startCmd_hid (c : LinkCmd) : (startCmd c s).hid = { s.hid with cmd := some c } := rfl
@[simp] theorem startCmd_trace (c : LinkCmd) : (startCmd c s).trace = s.trace := rfl
@[simp] theorem startCmd_progress (c : LinkCmd) : (startCmd c s).progress = s.progress := rfl
@[simp] theorem startCmd_reads (c : LinkCmd) : (startCmd c s).reads = s.reads := rfl
@[simp] theorem startCmd_inputs (c : LinkCmd) : (startCmd c s).inputs = s.inputs := rfl

/-! ## `accept` -/

@[simp] theorem accept_ctrl (b : Byte) (h : Half) : (accept b h s).ctrl = s.ctrl := rfl
@[simp] theorem accept_timeout (b : Byte) (h : Half) : (accept b h s).timeout = s.timeout := rfl
@[simp] theorem accept_sessCfg (b : Byte) (h : Half) : (accept b h s).sessCfg = s.sessCfg := rfl
@[simp] theorem accept_sessTmo (b : Byte) (h : Half) : (accept b h s).sessTmo = s.sessTmo := rfl
@[simp] theorem accept_status (b : Byte) (h : Half) : (accept b h s).status = { s.status with done := false, result := .none, txto := false, busy := true } := rfl
@[simp] theorem accept_seq (b : Byte) (h : Half) : (accept b h s).seq = s.seq := rfl
@[simp] theorem accept_errCnt (b : Byte) (h : Half) : (accept b h s).errCnt = s.errCnt := rfl
@[simp] theorem accept_succCnt (b : Byte) (h : Half) : (accept b h s).succCnt = s.succCnt := rfl
@[simp] theorem accept_totCnt (b : Byte) (h : Half) : (accept b h s).totCnt = s.totCnt := rfl
@[simp] theorem accept_byteCnt (b : Byte) (h : Half) : (accept b h s).byteCnt = s.byteCnt := rfl
@[simp] theorem accept_crc (b : Byte) (h : Half) : (accept b h s).crc = s.crc := rfl
@[simp] theorem accept_csum (b : Byte) (h : Half) : (accept b h s).csum = s.csum := rfl
@[simp] theorem accept_hdr (b : Byte) (h : Half) : (accept b h s).hdr = s.hdr := rfl
@[simp] theorem accept_trl (b : Byte) (h : Half) : (accept b h s).trl = s.trl := rfl
@[simp] theorem accept_rxTrl (b : Byte) (h : Half) : (accept b h s).rxTrl = s.rxTrl := rfl
@[simp] theorem accept_txLen (b : Byte) (h : Half) : (accept b h s).txLen = s.txLen := rfl
@[simp] theorem accept_rxLen (b : Byte) (h : Half) : (accept b h s).rxLen = s.rxLen := rfl
@[simp] theorem accept_bufAddr (b : Byte) (h : Half) : (accept b h s).bufAddr = s.bufAddr := rfl
@[simp] theorem accept_buf (b : Byte) (h : Half) : (accept b h s).buf = s.buf := rfl
@[simp] theorem accept_bufDraw (b : Byte) (h : Half) : (accept b h s).bufDraw = s.bufDraw := rfl
@[simp] theorem accept_unit (b : Byte) (h : Half) : (accept b h s).unit = s.unit := rfl
@[simp] theorem accept_purgeHeard (b : Byte) (h : Half) : (accept b h s).purgeHeard = s.purgeHeard := rfl
@[simp] theorem accept_purgeDraw (b : Byte) (h : Half) : (accept b h s).purgeDraw = s.purgeDraw := rfl
@[simp] theorem accept_hid (b : Byte) (h : Half) : (accept b h s).hid = { s.hid with opb := b, oph := h } := rfl
@[simp] theorem accept_trace (b : Byte) (h : Half) : (accept b h s).trace = s.trace := rfl
@[simp] theorem accept_progress (b : Byte) (h : Half) : (accept b h s).progress = s.progress := rfl
@[simp] theorem accept_reads (b : Byte) (h : Half) : (accept b h s).reads = s.reads := rfl
@[simp] theorem accept_inputs (b : Byte) (h : Half) : (accept b h s).inputs = s.inputs := rfl

/-! ## `idleSequencer` -/

@[simp] theorem idleSequencer_ctrl : (idleSequencer s).ctrl = s.ctrl := rfl
@[simp] theorem idleSequencer_timeout : (idleSequencer s).timeout = s.timeout := rfl
@[simp] theorem idleSequencer_sessCfg : (idleSequencer s).sessCfg = s.sessCfg := rfl
@[simp] theorem idleSequencer_sessTmo : (idleSequencer s).sessTmo = s.sessTmo := rfl
@[simp] theorem idleSequencer_status : (idleSequencer s).status = { s.status with busy := false } := rfl
@[simp] theorem idleSequencer_seq : (idleSequencer s).seq = s.seq := rfl
@[simp] theorem idleSequencer_errCnt : (idleSequencer s).errCnt = s.errCnt := rfl
@[simp] theorem idleSequencer_succCnt : (idleSequencer s).succCnt = s.succCnt := rfl
@[simp] theorem idleSequencer_totCnt : (idleSequencer s).totCnt = s.totCnt := rfl
@[simp] theorem idleSequencer_byteCnt : (idleSequencer s).byteCnt = s.byteCnt := rfl
@[simp] theorem idleSequencer_crc : (idleSequencer s).crc = s.crc := rfl
@[simp] theorem idleSequencer_csum : (idleSequencer s).csum = s.csum := rfl
@[simp] theorem idleSequencer_hdr : (idleSequencer s).hdr = s.hdr := rfl
@[simp] theorem idleSequencer_trl : (idleSequencer s).trl = s.trl := rfl
@[simp] theorem idleSequencer_rxTrl : (idleSequencer s).rxTrl = s.rxTrl := rfl
@[simp] theorem idleSequencer_txLen : (idleSequencer s).txLen = s.txLen := rfl
@[simp] theorem idleSequencer_rxLen : (idleSequencer s).rxLen = s.rxLen := rfl
@[simp] theorem idleSequencer_bufAddr : (idleSequencer s).bufAddr = s.bufAddr := rfl
@[simp] theorem idleSequencer_buf : (idleSequencer s).buf = s.buf := rfl
@[simp] theorem idleSequencer_bufDraw : (idleSequencer s).bufDraw = s.bufDraw := rfl
@[simp] theorem idleSequencer_unit : (idleSequencer s).unit = s.unit := rfl
@[simp] theorem idleSequencer_purgeHeard : (idleSequencer s).purgeHeard = s.purgeHeard := rfl
@[simp] theorem idleSequencer_purgeDraw : (idleSequencer s).purgeDraw = s.purgeDraw := rfl
@[simp] theorem idleSequencer_hid : (idleSequencer s).hid = { s.hid with pt := .idle, cmd := none } := rfl
@[simp] theorem idleSequencer_trace : (idleSequencer s).trace = s.trace := rfl
@[simp] theorem idleSequencer_progress : (idleSequencer s).progress = s.progress := rfl
@[simp] theorem idleSequencer_reads : (idleSequencer s).reads = s.reads := rfl
@[simp] theorem idleSequencer_inputs : (idleSequencer s).inputs = s.inputs := rfl

/-! ## `beginRead` -/

@[simp] theorem beginRead_ctrl (pt : Point) (n : Nat) (t : Half) : (beginRead pt n t s).ctrl = s.ctrl := rfl
@[simp] theorem beginRead_timeout (pt : Point) (n : Nat) (t : Half) : (beginRead pt n t s).timeout = s.timeout := rfl
@[simp] theorem beginRead_sessCfg (pt : Point) (n : Nat) (t : Half) : (beginRead pt n t s).sessCfg = s.sessCfg := rfl
@[simp] theorem beginRead_sessTmo (pt : Point) (n : Nat) (t : Half) : (beginRead pt n t s).sessTmo = s.sessTmo := rfl
@[simp] theorem beginRead_status (pt : Point) (n : Nat) (t : Half) : (beginRead pt n t s).status = s.status := rfl
@[simp] theorem beginRead_seq (pt : Point) (n : Nat) (t : Half) : (beginRead pt n t s).seq = s.seq := rfl
@[simp] theorem beginRead_errCnt (pt : Point) (n : Nat) (t : Half) : (beginRead pt n t s).errCnt = s.errCnt := rfl
@[simp] theorem beginRead_succCnt (pt : Point) (n : Nat) (t : Half) : (beginRead pt n t s).succCnt = s.succCnt := rfl
@[simp] theorem beginRead_totCnt (pt : Point) (n : Nat) (t : Half) : (beginRead pt n t s).totCnt = s.totCnt := rfl
@[simp] theorem beginRead_byteCnt (pt : Point) (n : Nat) (t : Half) : (beginRead pt n t s).byteCnt = s.byteCnt := rfl
@[simp] theorem beginRead_crc (pt : Point) (n : Nat) (t : Half) : (beginRead pt n t s).crc = s.crc := rfl
@[simp] theorem beginRead_csum (pt : Point) (n : Nat) (t : Half) : (beginRead pt n t s).csum = s.csum := rfl
@[simp] theorem beginRead_hdr (pt : Point) (n : Nat) (t : Half) : (beginRead pt n t s).hdr = s.hdr := rfl
@[simp] theorem beginRead_trl (pt : Point) (n : Nat) (t : Half) : (beginRead pt n t s).trl = s.trl := rfl
@[simp] theorem beginRead_rxTrl (pt : Point) (n : Nat) (t : Half) : (beginRead pt n t s).rxTrl = s.rxTrl := rfl
@[simp] theorem beginRead_txLen (pt : Point) (n : Nat) (t : Half) : (beginRead pt n t s).txLen = s.txLen := rfl
@[simp] theorem beginRead_rxLen (pt : Point) (n : Nat) (t : Half) : (beginRead pt n t s).rxLen = s.rxLen := rfl
@[simp] theorem beginRead_bufAddr (pt : Point) (n : Nat) (t : Half) : (beginRead pt n t s).bufAddr = s.bufAddr := rfl
@[simp] theorem beginRead_buf (pt : Point) (n : Nat) (t : Half) : (beginRead pt n t s).buf = s.buf := rfl
@[simp] theorem beginRead_bufDraw (pt : Point) (n : Nat) (t : Half) : (beginRead pt n t s).bufDraw = s.bufDraw := rfl
@[simp] theorem beginRead_unit (pt : Point) (n : Nat) (t : Half) : (beginRead pt n t s).unit = s.unit := rfl
@[simp] theorem beginRead_purgeHeard (pt : Point) (n : Nat) (t : Half) : (beginRead pt n t s).purgeHeard = s.purgeHeard := rfl
@[simp] theorem beginRead_purgeDraw (pt : Point) (n : Nat) (t : Half) : (beginRead pt n t s).purgeDraw = s.purgeDraw := rfl
@[simp] theorem beginRead_hid (pt : Point) (n : Nat) (t : Half) : (beginRead pt n t s).hid = { s.hid with pt := pt, rn := n, rk := 0, rb := [], tmr := t } := rfl
@[simp] theorem beginRead_trace (pt : Point) (n : Nat) (t : Half) : (beginRead pt n t s).trace = s.trace := rfl
@[simp] theorem beginRead_progress (pt : Point) (n : Nat) (t : Half) : (beginRead pt n t s).progress = s.progress := rfl
@[simp] theorem beginRead_reads (pt : Point) (n : Nat) (t : Half) : (beginRead pt n t s).reads = s.reads := rfl
@[simp] theorem beginRead_inputs (pt : Point) (n : Nat) (t : Half) : (beginRead pt n t s).inputs = s.inputs := rfl

/-! ## `beginWrite` -/

@[simp] theorem beginWrite_ctrl (pt : Point) (ws : List Byte) : (beginWrite pt ws s).ctrl = s.ctrl := rfl
@[simp] theorem beginWrite_timeout (pt : Point) (ws : List Byte) : (beginWrite pt ws s).timeout = s.timeout := rfl
@[simp] theorem beginWrite_sessCfg (pt : Point) (ws : List Byte) : (beginWrite pt ws s).sessCfg = s.sessCfg := rfl
@[simp] theorem beginWrite_sessTmo (pt : Point) (ws : List Byte) : (beginWrite pt ws s).sessTmo = s.sessTmo := rfl
@[simp] theorem beginWrite_status (pt : Point) (ws : List Byte) : (beginWrite pt ws s).status = s.status := rfl
@[simp] theorem beginWrite_seq (pt : Point) (ws : List Byte) : (beginWrite pt ws s).seq = s.seq := rfl
@[simp] theorem beginWrite_errCnt (pt : Point) (ws : List Byte) : (beginWrite pt ws s).errCnt = s.errCnt := rfl
@[simp] theorem beginWrite_succCnt (pt : Point) (ws : List Byte) : (beginWrite pt ws s).succCnt = s.succCnt := rfl
@[simp] theorem beginWrite_totCnt (pt : Point) (ws : List Byte) : (beginWrite pt ws s).totCnt = s.totCnt := rfl
@[simp] theorem beginWrite_byteCnt (pt : Point) (ws : List Byte) : (beginWrite pt ws s).byteCnt = s.byteCnt := rfl
@[simp] theorem beginWrite_crc (pt : Point) (ws : List Byte) : (beginWrite pt ws s).crc = s.crc := rfl
@[simp] theorem beginWrite_csum (pt : Point) (ws : List Byte) : (beginWrite pt ws s).csum = s.csum := rfl
@[simp] theorem beginWrite_hdr (pt : Point) (ws : List Byte) : (beginWrite pt ws s).hdr = s.hdr := rfl
@[simp] theorem beginWrite_trl (pt : Point) (ws : List Byte) : (beginWrite pt ws s).trl = s.trl := rfl
@[simp] theorem beginWrite_rxTrl (pt : Point) (ws : List Byte) : (beginWrite pt ws s).rxTrl = s.rxTrl := rfl
@[simp] theorem beginWrite_txLen (pt : Point) (ws : List Byte) : (beginWrite pt ws s).txLen = s.txLen := rfl
@[simp] theorem beginWrite_rxLen (pt : Point) (ws : List Byte) : (beginWrite pt ws s).rxLen = s.rxLen := rfl
@[simp] theorem beginWrite_bufAddr (pt : Point) (ws : List Byte) : (beginWrite pt ws s).bufAddr = s.bufAddr := rfl
@[simp] theorem beginWrite_buf (pt : Point) (ws : List Byte) : (beginWrite pt ws s).buf = s.buf := rfl
@[simp] theorem beginWrite_bufDraw (pt : Point) (ws : List Byte) : (beginWrite pt ws s).bufDraw = s.bufDraw := rfl
@[simp] theorem beginWrite_unit (pt : Point) (ws : List Byte) : (beginWrite pt ws s).unit = s.unit := rfl
@[simp] theorem beginWrite_purgeHeard (pt : Point) (ws : List Byte) : (beginWrite pt ws s).purgeHeard = s.purgeHeard := rfl
@[simp] theorem beginWrite_purgeDraw (pt : Point) (ws : List Byte) : (beginWrite pt ws s).purgeDraw = s.purgeDraw := rfl
@[simp] theorem beginWrite_hid (pt : Point) (ws : List Byte) : (beginWrite pt ws s).hid = { s.hid with pt := pt, ws := ws, wj := 0, tmr := s.sessTmo } := rfl
@[simp] theorem beginWrite_trace (pt : Point) (ws : List Byte) : (beginWrite pt ws s).trace = s.trace := rfl
@[simp] theorem beginWrite_progress (pt : Point) (ws : List Byte) : (beginWrite pt ws s).progress = s.progress := rfl
@[simp] theorem beginWrite_reads (pt : Point) (ws : List Byte) : (beginWrite pt ws s).reads = s.reads := rfl
@[simp] theorem beginWrite_inputs (pt : Point) (ws : List Byte) : (beginWrite pt ws s).inputs = s.inputs := rfl

/-! ## `countTick` -/

@[simp] theorem countTick_ctrl : (countTick s).ctrl = s.ctrl := rfl
@[simp] theorem countTick_timeout : (countTick s).timeout = s.timeout := rfl
@[simp] theorem countTick_sessCfg : (countTick s).sessCfg = s.sessCfg := rfl
@[simp] theorem countTick_sessTmo : (countTick s).sessTmo = s.sessTmo := rfl
@[simp] theorem countTick_status : (countTick s).status = s.status := rfl
@[simp] theorem countTick_seq : (countTick s).seq = s.seq := rfl
@[simp] theorem countTick_errCnt : (countTick s).errCnt = s.errCnt := rfl
@[simp] theorem countTick_succCnt : (countTick s).succCnt = s.succCnt := rfl
@[simp] theorem countTick_totCnt : (countTick s).totCnt = s.totCnt := rfl
@[simp] theorem countTick_byteCnt : (countTick s).byteCnt = s.byteCnt := rfl
@[simp] theorem countTick_crc : (countTick s).crc = s.crc := rfl
@[simp] theorem countTick_csum : (countTick s).csum = s.csum := rfl
@[simp] theorem countTick_hdr : (countTick s).hdr = s.hdr := rfl
@[simp] theorem countTick_trl : (countTick s).trl = s.trl := rfl
@[simp] theorem countTick_rxTrl : (countTick s).rxTrl = s.rxTrl := rfl
@[simp] theorem countTick_txLen : (countTick s).txLen = s.txLen := rfl
@[simp] theorem countTick_rxLen : (countTick s).rxLen = s.rxLen := rfl
@[simp] theorem countTick_bufAddr : (countTick s).bufAddr = s.bufAddr := rfl
@[simp] theorem countTick_buf : (countTick s).buf = s.buf := rfl
@[simp] theorem countTick_bufDraw : (countTick s).bufDraw = s.bufDraw := rfl
@[simp] theorem countTick_unit : (countTick s).unit = s.unit := rfl
@[simp] theorem countTick_purgeHeard : (countTick s).purgeHeard = s.purgeHeard := rfl
@[simp] theorem countTick_purgeDraw : (countTick s).purgeDraw = s.purgeDraw := rfl
@[simp] theorem countTick_hid : (countTick s).hid = { s.hid with tmr := s.hid.tmr - 1 } := rfl
@[simp] theorem countTick_trace : (countTick s).trace = s.trace := rfl
@[simp] theorem countTick_progress : (countTick s).progress = s.progress := rfl
@[simp] theorem countTick_reads : (countTick s).reads = s.reads := rfl
@[simp] theorem countTick_inputs : (countTick s).inputs = s.inputs := rfl

/-! ## `gather` -/

@[simp] theorem gather_ctrl (b : Byte) : (gather b s).ctrl = s.ctrl := rfl
@[simp] theorem gather_timeout (b : Byte) : (gather b s).timeout = s.timeout := rfl
@[simp] theorem gather_sessCfg (b : Byte) : (gather b s).sessCfg = s.sessCfg := rfl
@[simp] theorem gather_sessTmo (b : Byte) : (gather b s).sessTmo = s.sessTmo := rfl
@[simp] theorem gather_status (b : Byte) : (gather b s).status = s.status := rfl
@[simp] theorem gather_seq (b : Byte) : (gather b s).seq = s.seq := rfl
@[simp] theorem gather_errCnt (b : Byte) : (gather b s).errCnt = s.errCnt := rfl
@[simp] theorem gather_succCnt (b : Byte) : (gather b s).succCnt = s.succCnt := rfl
@[simp] theorem gather_totCnt (b : Byte) : (gather b s).totCnt = s.totCnt := rfl
@[simp] theorem gather_byteCnt (b : Byte) : (gather b s).byteCnt = s.byteCnt := rfl
@[simp] theorem gather_crc (b : Byte) : (gather b s).crc = s.crc := rfl
@[simp] theorem gather_csum (b : Byte) : (gather b s).csum = s.csum := rfl
@[simp] theorem gather_hdr (b : Byte) : (gather b s).hdr = s.hdr := rfl
@[simp] theorem gather_trl (b : Byte) : (gather b s).trl = s.trl := rfl
@[simp] theorem gather_rxTrl (b : Byte) : (gather b s).rxTrl = s.rxTrl := rfl
@[simp] theorem gather_txLen (b : Byte) : (gather b s).txLen = s.txLen := rfl
@[simp] theorem gather_rxLen (b : Byte) : (gather b s).rxLen = s.rxLen := rfl
@[simp] theorem gather_bufAddr (b : Byte) : (gather b s).bufAddr = s.bufAddr := rfl
@[simp] theorem gather_buf (b : Byte) : (gather b s).buf = s.buf := rfl
@[simp] theorem gather_bufDraw (b : Byte) : (gather b s).bufDraw = s.bufDraw := rfl
@[simp] theorem gather_unit (b : Byte) : (gather b s).unit = s.unit := rfl
@[simp] theorem gather_purgeHeard (b : Byte) : (gather b s).purgeHeard = s.purgeHeard := rfl
@[simp] theorem gather_purgeDraw (b : Byte) : (gather b s).purgeDraw = s.purgeDraw := rfl
@[simp] theorem gather_hid (b : Byte) : (gather b s).hid = { s.hid with rb := s.hid.rb ++ [b], rk := s.hid.rk + 1 } := rfl
@[simp] theorem gather_trace (b : Byte) : (gather b s).trace = s.trace := rfl
@[simp] theorem gather_progress (b : Byte) : (gather b s).progress = s.progress := rfl
@[simp] theorem gather_reads (b : Byte) : (gather b s).reads = s.reads := rfl
@[simp] theorem gather_inputs (b : Byte) : (gather b s).inputs = s.inputs := rfl

/-! ## `sendByte` -/

@[simp] theorem sendByte_ctrl (b : Byte) : (sendByte b s).ctrl = s.ctrl := rfl
@[simp] theorem sendByte_timeout (b : Byte) : (sendByte b s).timeout = s.timeout := rfl
@[simp] theorem sendByte_sessCfg (b : Byte) : (sendByte b s).sessCfg = s.sessCfg := rfl
@[simp] theorem sendByte_sessTmo (b : Byte) : (sendByte b s).sessTmo = s.sessTmo := rfl
@[simp] theorem sendByte_status (b : Byte) : (sendByte b s).status = s.status := rfl
@[simp] theorem sendByte_seq (b : Byte) : (sendByte b s).seq = s.seq := rfl
@[simp] theorem sendByte_errCnt (b : Byte) : (sendByte b s).errCnt = s.errCnt := rfl
@[simp] theorem sendByte_succCnt (b : Byte) : (sendByte b s).succCnt = s.succCnt := rfl
@[simp] theorem sendByte_totCnt (b : Byte) : (sendByte b s).totCnt = s.totCnt := rfl
@[simp] theorem sendByte_byteCnt (b : Byte) : (sendByte b s).byteCnt = s.byteCnt := rfl
@[simp] theorem sendByte_crc (b : Byte) : (sendByte b s).crc = s.crc := rfl
@[simp] theorem sendByte_csum (b : Byte) : (sendByte b s).csum = s.csum := rfl
@[simp] theorem sendByte_hdr (b : Byte) : (sendByte b s).hdr = s.hdr := rfl
@[simp] theorem sendByte_trl (b : Byte) : (sendByte b s).trl = s.trl := rfl
@[simp] theorem sendByte_rxTrl (b : Byte) : (sendByte b s).rxTrl = s.rxTrl := rfl
@[simp] theorem sendByte_txLen (b : Byte) : (sendByte b s).txLen = s.txLen := rfl
@[simp] theorem sendByte_rxLen (b : Byte) : (sendByte b s).rxLen = s.rxLen := rfl
@[simp] theorem sendByte_bufAddr (b : Byte) : (sendByte b s).bufAddr = s.bufAddr := rfl
@[simp] theorem sendByte_buf (b : Byte) : (sendByte b s).buf = s.buf := rfl
@[simp] theorem sendByte_bufDraw (b : Byte) : (sendByte b s).bufDraw = s.bufDraw := rfl
@[simp] theorem sendByte_unit (b : Byte) : (sendByte b s).unit = s.unit := rfl
@[simp] theorem sendByte_purgeHeard (b : Byte) : (sendByte b s).purgeHeard = s.purgeHeard := rfl
@[simp] theorem sendByte_purgeDraw (b : Byte) : (sendByte b s).purgeDraw = s.purgeDraw := rfl
@[simp] theorem sendByte_hid (b : Byte) : (sendByte b s).hid = { s.hid with wj := s.hid.wj + 1 } := rfl
@[simp] theorem sendByte_trace (b : Byte) : (sendByte b s).trace = s.trace ++ [b] := rfl
@[simp] theorem sendByte_progress (b : Byte) : (sendByte b s).progress = s.progress := rfl
@[simp] theorem sendByte_reads (b : Byte) : (sendByte b s).reads = s.reads := rfl
@[simp] theorem sendByte_inputs (b : Byte) : (sendByte b s).inputs = s.inputs := rfl

/-! ## `countFailure` -/

@[simp] theorem countFailure_ctrl : (countFailure s).ctrl = s.ctrl := rfl
@[simp] theorem countFailure_timeout : (countFailure s).timeout = s.timeout := rfl
@[simp] theorem countFailure_sessCfg : (countFailure s).sessCfg = s.sessCfg := rfl
@[simp] theorem countFailure_sessTmo : (countFailure s).sessTmo = s.sessTmo := rfl
@[simp] theorem countFailure_status : (countFailure s).status = s.status := rfl
@[simp] theorem countFailure_seq : (countFailure s).seq = s.seq := rfl
@[simp] theorem countFailure_errCnt : (countFailure s).errCnt = s.errCnt + 1 := rfl
@[simp] theorem countFailure_succCnt : (countFailure s).succCnt = s.succCnt := rfl
@[simp] theorem countFailure_totCnt : (countFailure s).totCnt = s.totCnt := rfl
@[simp] theorem countFailure_byteCnt : (countFailure s).byteCnt = s.byteCnt := rfl
@[simp] theorem countFailure_crc : (countFailure s).crc = s.crc := rfl
@[simp] theorem countFailure_csum : (countFailure s).csum = s.csum := rfl
@[simp] theorem countFailure_hdr : (countFailure s).hdr = s.hdr := rfl
@[simp] theorem countFailure_trl : (countFailure s).trl = s.trl := rfl
@[simp] theorem countFailure_rxTrl : (countFailure s).rxTrl = s.rxTrl := rfl
@[simp] theorem countFailure_txLen : (countFailure s).txLen = s.txLen := rfl
@[simp] theorem countFailure_rxLen : (countFailure s).rxLen = s.rxLen := rfl
@[simp] theorem countFailure_bufAddr : (countFailure s).bufAddr = s.bufAddr := rfl
@[simp] theorem countFailure_buf : (countFailure s).buf = s.buf := rfl
@[simp] theorem countFailure_bufDraw : (countFailure s).bufDraw = s.bufDraw := rfl
@[simp] theorem countFailure_unit : (countFailure s).unit = s.unit := rfl
@[simp] theorem countFailure_purgeHeard : (countFailure s).purgeHeard = s.purgeHeard := rfl
@[simp] theorem countFailure_purgeDraw : (countFailure s).purgeDraw = s.purgeDraw := rfl
@[simp] theorem countFailure_hid : (countFailure s).hid = s.hid := rfl
@[simp] theorem countFailure_trace : (countFailure s).trace = s.trace := rfl
@[simp] theorem countFailure_progress : (countFailure s).progress = s.progress := rfl
@[simp] theorem countFailure_reads : (countFailure s).reads = s.reads := rfl
@[simp] theorem countFailure_inputs : (countFailure s).inputs = s.inputs := rfl

/-! ## `clearErrors` -/

@[simp] theorem clearErrors_ctrl : (clearErrors s).ctrl = s.ctrl := rfl
@[simp] theorem clearErrors_timeout : (clearErrors s).timeout = s.timeout := rfl
@[simp] theorem clearErrors_sessCfg : (clearErrors s).sessCfg = s.sessCfg := rfl
@[simp] theorem clearErrors_sessTmo : (clearErrors s).sessTmo = s.sessTmo := rfl
@[simp] theorem clearErrors_status : (clearErrors s).status = s.status := rfl
@[simp] theorem clearErrors_seq : (clearErrors s).seq = s.seq := rfl
@[simp] theorem clearErrors_errCnt : (clearErrors s).errCnt = 0 := rfl
@[simp] theorem clearErrors_succCnt : (clearErrors s).succCnt = s.succCnt := rfl
@[simp] theorem clearErrors_totCnt : (clearErrors s).totCnt = s.totCnt := rfl
@[simp] theorem clearErrors_byteCnt : (clearErrors s).byteCnt = s.byteCnt := rfl
@[simp] theorem clearErrors_crc : (clearErrors s).crc = s.crc := rfl
@[simp] theorem clearErrors_csum : (clearErrors s).csum = s.csum := rfl
@[simp] theorem clearErrors_hdr : (clearErrors s).hdr = s.hdr := rfl
@[simp] theorem clearErrors_trl : (clearErrors s).trl = s.trl := rfl
@[simp] theorem clearErrors_rxTrl : (clearErrors s).rxTrl = s.rxTrl := rfl
@[simp] theorem clearErrors_txLen : (clearErrors s).txLen = s.txLen := rfl
@[simp] theorem clearErrors_rxLen : (clearErrors s).rxLen = s.rxLen := rfl
@[simp] theorem clearErrors_bufAddr : (clearErrors s).bufAddr = s.bufAddr := rfl
@[simp] theorem clearErrors_buf : (clearErrors s).buf = s.buf := rfl
@[simp] theorem clearErrors_bufDraw : (clearErrors s).bufDraw = s.bufDraw := rfl
@[simp] theorem clearErrors_unit : (clearErrors s).unit = s.unit := rfl
@[simp] theorem clearErrors_purgeHeard : (clearErrors s).purgeHeard = s.purgeHeard := rfl
@[simp] theorem clearErrors_purgeDraw : (clearErrors s).purgeDraw = s.purgeDraw := rfl
@[simp] theorem clearErrors_hid : (clearErrors s).hid = s.hid := rfl
@[simp] theorem clearErrors_trace : (clearErrors s).trace = s.trace := rfl
@[simp] theorem clearErrors_progress : (clearErrors s).progress = s.progress := rfl
@[simp] theorem clearErrors_reads : (clearErrors s).reads = s.reads := rfl
@[simp] theorem clearErrors_inputs : (clearErrors s).inputs = s.inputs := rfl

/-! ## `notePurge` -/

@[simp] theorem notePurge_ctrl (heard : Bool) : (notePurge heard s).ctrl = s.ctrl := rfl
@[simp] theorem notePurge_timeout (heard : Bool) : (notePurge heard s).timeout = s.timeout := rfl
@[simp] theorem notePurge_sessCfg (heard : Bool) : (notePurge heard s).sessCfg = s.sessCfg := rfl
@[simp] theorem notePurge_sessTmo (heard : Bool) : (notePurge heard s).sessTmo = s.sessTmo := rfl
@[simp] theorem notePurge_status (heard : Bool) : (notePurge heard s).status = s.status := rfl
@[simp] theorem notePurge_seq (heard : Bool) : (notePurge heard s).seq = s.seq := rfl
@[simp] theorem notePurge_errCnt (heard : Bool) : (notePurge heard s).errCnt = s.errCnt := rfl
@[simp] theorem notePurge_succCnt (heard : Bool) : (notePurge heard s).succCnt = s.succCnt := rfl
@[simp] theorem notePurge_totCnt (heard : Bool) : (notePurge heard s).totCnt = s.totCnt := rfl
@[simp] theorem notePurge_byteCnt (heard : Bool) : (notePurge heard s).byteCnt = s.byteCnt := rfl
@[simp] theorem notePurge_crc (heard : Bool) : (notePurge heard s).crc = s.crc := rfl
@[simp] theorem notePurge_csum (heard : Bool) : (notePurge heard s).csum = s.csum := rfl
@[simp] theorem notePurge_hdr (heard : Bool) : (notePurge heard s).hdr = s.hdr := rfl
@[simp] theorem notePurge_trl (heard : Bool) : (notePurge heard s).trl = s.trl := rfl
@[simp] theorem notePurge_rxTrl (heard : Bool) : (notePurge heard s).rxTrl = s.rxTrl := rfl
@[simp] theorem notePurge_txLen (heard : Bool) : (notePurge heard s).txLen = s.txLen := rfl
@[simp] theorem notePurge_rxLen (heard : Bool) : (notePurge heard s).rxLen = s.rxLen := rfl
@[simp] theorem notePurge_bufAddr (heard : Bool) : (notePurge heard s).bufAddr = s.bufAddr := rfl
@[simp] theorem notePurge_buf (heard : Bool) : (notePurge heard s).buf = s.buf := rfl
@[simp] theorem notePurge_bufDraw (heard : Bool) : (notePurge heard s).bufDraw = s.bufDraw := rfl
@[simp] theorem notePurge_unit (heard : Bool) : (notePurge heard s).unit = s.unit := rfl
@[simp] theorem notePurge_purgeHeard (heard : Bool) : (notePurge heard s).purgeHeard = heard := rfl
@[simp] theorem notePurge_purgeDraw (heard : Bool) : (notePurge heard s).purgeDraw = s.purgeDraw := rfl
@[simp] theorem notePurge_hid (heard : Bool) : (notePurge heard s).hid = s.hid := rfl
@[simp] theorem notePurge_trace (heard : Bool) : (notePurge heard s).trace = s.trace := rfl
@[simp] theorem notePurge_progress (heard : Bool) : (notePurge heard s).progress = s.progress := rfl
@[simp] theorem notePurge_reads (heard : Bool) : (notePurge heard s).reads = s.reads := rfl
@[simp] theorem notePurge_inputs (heard : Bool) : (notePurge heard s).inputs = s.inputs := rfl

/-! ## `drawPurge` -/

@[simp] theorem drawPurge_ctrl : (drawPurge s).ctrl = s.ctrl := rfl
@[simp] theorem drawPurge_timeout : (drawPurge s).timeout = s.timeout := rfl
@[simp] theorem drawPurge_sessCfg : (drawPurge s).sessCfg = s.sessCfg := rfl
@[simp] theorem drawPurge_sessTmo : (drawPurge s).sessTmo = s.sessTmo := rfl
@[simp] theorem drawPurge_status : (drawPurge s).status = s.status := rfl
@[simp] theorem drawPurge_seq : (drawPurge s).seq = s.seq := rfl
@[simp] theorem drawPurge_errCnt : (drawPurge s).errCnt = s.errCnt := rfl
@[simp] theorem drawPurge_succCnt : (drawPurge s).succCnt = s.succCnt := rfl
@[simp] theorem drawPurge_totCnt : (drawPurge s).totCnt = s.totCnt := rfl
@[simp] theorem drawPurge_byteCnt : (drawPurge s).byteCnt = s.byteCnt := rfl
@[simp] theorem drawPurge_crc : (drawPurge s).crc = s.crc := rfl
@[simp] theorem drawPurge_csum : (drawPurge s).csum = s.csum := rfl
@[simp] theorem drawPurge_hdr : (drawPurge s).hdr = s.hdr := rfl
@[simp] theorem drawPurge_trl : (drawPurge s).trl = s.trl := rfl
@[simp] theorem drawPurge_rxTrl : (drawPurge s).rxTrl = s.rxTrl := rfl
@[simp] theorem drawPurge_txLen : (drawPurge s).txLen = s.txLen := rfl
@[simp] theorem drawPurge_rxLen : (drawPurge s).rxLen = s.rxLen := rfl
@[simp] theorem drawPurge_bufAddr : (drawPurge s).bufAddr = s.bufAddr := rfl
@[simp] theorem drawPurge_buf : (drawPurge s).buf = s.buf := rfl
@[simp] theorem drawPurge_bufDraw : (drawPurge s).bufDraw = s.bufDraw := rfl
@[simp] theorem drawPurge_unit : (drawPurge s).unit = s.unit := rfl
@[simp] theorem drawPurge_purgeHeard : (drawPurge s).purgeHeard = s.purgeHeard := rfl
@[simp] theorem drawPurge_purgeDraw : (drawPurge s).purgeDraw = s.purgeDraw + 1 := rfl
@[simp] theorem drawPurge_hid : (drawPurge s).hid = s.hid := rfl
@[simp] theorem drawPurge_trace : (drawPurge s).trace = s.trace := rfl
@[simp] theorem drawPurge_progress : (drawPurge s).progress = s.progress := rfl
@[simp] theorem drawPurge_reads : (drawPurge s).reads = s.reads := rfl
@[simp] theorem drawPurge_inputs : (drawPurge s).inputs = s.inputs := rfl

/-! ## `emitProgress` -/

@[simp] theorem emitProgress_ctrl : (emitProgress s).ctrl = s.ctrl := rfl
@[simp] theorem emitProgress_timeout : (emitProgress s).timeout = s.timeout := rfl
@[simp] theorem emitProgress_sessCfg : (emitProgress s).sessCfg = s.sessCfg := rfl
@[simp] theorem emitProgress_sessTmo : (emitProgress s).sessTmo = s.sessTmo := rfl
@[simp] theorem emitProgress_status : (emitProgress s).status = s.status := rfl
@[simp] theorem emitProgress_seq : (emitProgress s).seq = s.seq := rfl
@[simp] theorem emitProgress_errCnt : (emitProgress s).errCnt = s.errCnt := rfl
@[simp] theorem emitProgress_succCnt : (emitProgress s).succCnt = s.succCnt := rfl
@[simp] theorem emitProgress_totCnt : (emitProgress s).totCnt = s.totCnt := rfl
@[simp] theorem emitProgress_byteCnt : (emitProgress s).byteCnt = s.byteCnt := rfl
@[simp] theorem emitProgress_crc : (emitProgress s).crc = s.crc := rfl
@[simp] theorem emitProgress_csum : (emitProgress s).csum = s.csum := rfl
@[simp] theorem emitProgress_hdr : (emitProgress s).hdr = s.hdr := rfl
@[simp] theorem emitProgress_trl : (emitProgress s).trl = s.trl := rfl
@[simp] theorem emitProgress_rxTrl : (emitProgress s).rxTrl = s.rxTrl := rfl
@[simp] theorem emitProgress_txLen : (emitProgress s).txLen = s.txLen := rfl
@[simp] theorem emitProgress_rxLen : (emitProgress s).rxLen = s.rxLen := rfl
@[simp] theorem emitProgress_bufAddr : (emitProgress s).bufAddr = s.bufAddr := rfl
@[simp] theorem emitProgress_buf : (emitProgress s).buf = s.buf := rfl
@[simp] theorem emitProgress_bufDraw : (emitProgress s).bufDraw = s.bufDraw := rfl
@[simp] theorem emitProgress_unit : (emitProgress s).unit = s.unit := rfl
@[simp] theorem emitProgress_purgeHeard : (emitProgress s).purgeHeard = s.purgeHeard := rfl
@[simp] theorem emitProgress_purgeDraw : (emitProgress s).purgeDraw = s.purgeDraw := rfl
@[simp] theorem emitProgress_hid : (emitProgress s).hid = s.hid := rfl
@[simp] theorem emitProgress_trace : (emitProgress s).trace = s.trace := rfl
@[simp] theorem emitProgress_progress : (emitProgress s).progress = s.progress ++ [⟨s.totCnt, s.succCnt, s.errCnt⟩] := rfl
@[simp] theorem emitProgress_reads : (emitProgress s).reads = s.reads := rfl
@[simp] theorem emitProgress_inputs : (emitProgress s).inputs = s.inputs := rfl

/-! ## `advanceSeq` -/

@[simp] theorem advanceSeq_ctrl : (advanceSeq s).ctrl = s.ctrl := rfl
@[simp] theorem advanceSeq_timeout : (advanceSeq s).timeout = s.timeout := rfl
@[simp] theorem advanceSeq_sessCfg : (advanceSeq s).sessCfg = s.sessCfg := rfl
@[simp] theorem advanceSeq_sessTmo : (advanceSeq s).sessTmo = s.sessTmo := rfl
@[simp] theorem advanceSeq_status : (advanceSeq s).status = s.status := rfl
@[simp] theorem advanceSeq_seq : (advanceSeq s).seq = s.seq + 1 := rfl
@[simp] theorem advanceSeq_errCnt : (advanceSeq s).errCnt = s.errCnt := rfl
@[simp] theorem advanceSeq_succCnt : (advanceSeq s).succCnt = s.succCnt := rfl
@[simp] theorem advanceSeq_totCnt : (advanceSeq s).totCnt = s.totCnt := rfl
@[simp] theorem advanceSeq_byteCnt : (advanceSeq s).byteCnt = s.byteCnt := rfl
@[simp] theorem advanceSeq_crc : (advanceSeq s).crc = s.crc := rfl
@[simp] theorem advanceSeq_csum : (advanceSeq s).csum = s.csum := rfl
@[simp] theorem advanceSeq_hdr : (advanceSeq s).hdr = s.hdr := rfl
@[simp] theorem advanceSeq_trl : (advanceSeq s).trl = s.trl := rfl
@[simp] theorem advanceSeq_rxTrl : (advanceSeq s).rxTrl = s.rxTrl := rfl
@[simp] theorem advanceSeq_txLen : (advanceSeq s).txLen = s.txLen := rfl
@[simp] theorem advanceSeq_rxLen : (advanceSeq s).rxLen = s.rxLen := rfl
@[simp] theorem advanceSeq_bufAddr : (advanceSeq s).bufAddr = s.bufAddr := rfl
@[simp] theorem advanceSeq_buf : (advanceSeq s).buf = s.buf := rfl
@[simp] theorem advanceSeq_bufDraw : (advanceSeq s).bufDraw = s.bufDraw := rfl
@[simp] theorem advanceSeq_unit : (advanceSeq s).unit = s.unit := rfl
@[simp] theorem advanceSeq_purgeHeard : (advanceSeq s).purgeHeard = s.purgeHeard := rfl
@[simp] theorem advanceSeq_purgeDraw : (advanceSeq s).purgeDraw = s.purgeDraw := rfl
@[simp] theorem advanceSeq_hid : (advanceSeq s).hid = s.hid := rfl
@[simp] theorem advanceSeq_trace : (advanceSeq s).trace = s.trace := rfl
@[simp] theorem advanceSeq_progress : (advanceSeq s).progress = s.progress := rfl
@[simp] theorem advanceSeq_reads : (advanceSeq s).reads = s.reads := rfl
@[simp] theorem advanceSeq_inputs : (advanceSeq s).inputs = s.inputs := rfl

/-! ## `feedAll` -/

@[simp] theorem feedAll_ctrl (d : List Byte) : (feedAll d s).ctrl = s.ctrl := rfl
@[simp] theorem feedAll_timeout (d : List Byte) : (feedAll d s).timeout = s.timeout := rfl
@[simp] theorem feedAll_sessCfg (d : List Byte) : (feedAll d s).sessCfg = s.sessCfg := rfl
@[simp] theorem feedAll_sessTmo (d : List Byte) : (feedAll d s).sessTmo = s.sessTmo := rfl
@[simp] theorem feedAll_status (d : List Byte) : (feedAll d s).status = s.status := rfl
@[simp] theorem feedAll_seq (d : List Byte) : (feedAll d s).seq = s.seq := rfl
@[simp] theorem feedAll_errCnt (d : List Byte) : (feedAll d s).errCnt = s.errCnt := rfl
@[simp] theorem feedAll_succCnt (d : List Byte) : (feedAll d s).succCnt = s.succCnt := rfl
@[simp] theorem feedAll_totCnt (d : List Byte) : (feedAll d s).totCnt = s.totCnt := rfl
@[simp] theorem feedAll_byteCnt (d : List Byte) : (feedAll d s).byteCnt = s.byteCnt := rfl
@[simp] theorem feedAll_crc (d : List Byte) : (feedAll d s).crc = crc16 d s.crc := rfl
@[simp] theorem feedAll_csum (d : List Byte) : (feedAll d s).csum = checksum d s.csum := rfl
@[simp] theorem feedAll_hdr (d : List Byte) : (feedAll d s).hdr = s.hdr := rfl
@[simp] theorem feedAll_trl (d : List Byte) : (feedAll d s).trl = s.trl := rfl
@[simp] theorem feedAll_rxTrl (d : List Byte) : (feedAll d s).rxTrl = s.rxTrl := rfl
@[simp] theorem feedAll_txLen (d : List Byte) : (feedAll d s).txLen = s.txLen := rfl
@[simp] theorem feedAll_rxLen (d : List Byte) : (feedAll d s).rxLen = s.rxLen := rfl
@[simp] theorem feedAll_bufAddr (d : List Byte) : (feedAll d s).bufAddr = s.bufAddr := rfl
@[simp] theorem feedAll_buf (d : List Byte) : (feedAll d s).buf = s.buf := rfl
@[simp] theorem feedAll_bufDraw (d : List Byte) : (feedAll d s).bufDraw = s.bufDraw := rfl
@[simp] theorem feedAll_unit (d : List Byte) : (feedAll d s).unit = s.unit := rfl
@[simp] theorem feedAll_purgeHeard (d : List Byte) : (feedAll d s).purgeHeard = s.purgeHeard := rfl
@[simp] theorem feedAll_purgeDraw (d : List Byte) : (feedAll d s).purgeDraw = s.purgeDraw := rfl
@[simp] theorem feedAll_hid (d : List Byte) : (feedAll d s).hid = s.hid := rfl
@[simp] theorem feedAll_trace (d : List Byte) : (feedAll d s).trace = s.trace := rfl
@[simp] theorem feedAll_progress (d : List Byte) : (feedAll d s).progress = s.progress := rfl
@[simp] theorem feedAll_reads (d : List Byte) : (feedAll d s).reads = s.reads := rfl
@[simp] theorem feedAll_inputs (d : List Byte) : (feedAll d s).inputs = s.inputs := rfl

/-! ## `clearEngine` -/

@[simp] theorem clearEngine_ctrl : (clearEngine s).ctrl = s.ctrl := rfl
@[simp] theorem clearEngine_timeout : (clearEngine s).timeout = s.timeout := rfl
@[simp] theorem clearEngine_sessCfg : (clearEngine s).sessCfg = s.sessCfg := rfl
@[simp] theorem clearEngine_sessTmo : (clearEngine s).sessTmo = s.sessTmo := rfl
@[simp] theorem clearEngine_status : (clearEngine s).status = s.status := rfl
@[simp] theorem clearEngine_seq : (clearEngine s).seq = s.seq := rfl
@[simp] theorem clearEngine_errCnt : (clearEngine s).errCnt = s.errCnt := rfl
@[simp] theorem clearEngine_succCnt : (clearEngine s).succCnt = s.succCnt := rfl
@[simp] theorem clearEngine_totCnt : (clearEngine s).totCnt = s.totCnt := rfl
@[simp] theorem clearEngine_byteCnt : (clearEngine s).byteCnt = s.byteCnt := rfl
@[simp] theorem clearEngine_crc : (clearEngine s).crc = 0 := rfl
@[simp] theorem clearEngine_csum : (clearEngine s).csum = 0 := rfl
@[simp] theorem clearEngine_hdr : (clearEngine s).hdr = s.hdr := rfl
@[simp] theorem clearEngine_trl : (clearEngine s).trl = s.trl := rfl
@[simp] theorem clearEngine_rxTrl : (clearEngine s).rxTrl = s.rxTrl := rfl
@[simp] theorem clearEngine_txLen : (clearEngine s).txLen = s.txLen := rfl
@[simp] theorem clearEngine_rxLen : (clearEngine s).rxLen = s.rxLen := rfl
@[simp] theorem clearEngine_bufAddr : (clearEngine s).bufAddr = s.bufAddr := rfl
@[simp] theorem clearEngine_buf : (clearEngine s).buf = s.buf := rfl
@[simp] theorem clearEngine_bufDraw : (clearEngine s).bufDraw = s.bufDraw := rfl
@[simp] theorem clearEngine_unit : (clearEngine s).unit = s.unit := rfl
@[simp] theorem clearEngine_purgeHeard : (clearEngine s).purgeHeard = s.purgeHeard := rfl
@[simp] theorem clearEngine_purgeDraw : (clearEngine s).purgeDraw = s.purgeDraw := rfl
@[simp] theorem clearEngine_hid : (clearEngine s).hid = s.hid := rfl
@[simp] theorem clearEngine_trace : (clearEngine s).trace = s.trace := rfl
@[simp] theorem clearEngine_progress : (clearEngine s).progress = s.progress := rfl
@[simp] theorem clearEngine_reads : (clearEngine s).reads = s.reads := rfl
@[simp] theorem clearEngine_inputs : (clearEngine s).inputs = s.inputs := rfl

/-! ## `latchTrailer` -/

@[simp] theorem latchTrailer_ctrl (u : Bool) : (latchTrailer u s).ctrl = s.ctrl := rfl
@[simp] theorem latchTrailer_timeout (u : Bool) : (latchTrailer u s).timeout = s.timeout := rfl
@[simp] theorem latchTrailer_sessCfg (u : Bool) : (latchTrailer u s).sessCfg = s.sessCfg := rfl
@[simp] theorem latchTrailer_sessTmo (u : Bool) : (latchTrailer u s).sessTmo = s.sessTmo := rfl
@[simp] theorem latchTrailer_status (u : Bool) : (latchTrailer u s).status = s.status := rfl
@[simp] theorem latchTrailer_seq (u : Bool) : (latchTrailer u s).seq = s.seq := rfl
@[simp] theorem latchTrailer_errCnt (u : Bool) : (latchTrailer u s).errCnt = s.errCnt := rfl
@[simp] theorem latchTrailer_succCnt (u : Bool) : (latchTrailer u s).succCnt = s.succCnt := rfl
@[simp] theorem latchTrailer_totCnt (u : Bool) : (latchTrailer u s).totCnt = s.totCnt := rfl
@[simp] theorem latchTrailer_byteCnt (u : Bool) : (latchTrailer u s).byteCnt = s.byteCnt := rfl
@[simp] theorem latchTrailer_crc (u : Bool) : (latchTrailer u s).crc = s.crc := rfl
@[simp] theorem latchTrailer_csum (u : Bool) : (latchTrailer u s).csum = s.csum := rfl
@[simp] theorem latchTrailer_hdr (u : Bool) : (latchTrailer u s).hdr = s.hdr := rfl
@[simp] theorem latchTrailer_trl (u : Bool) : (latchTrailer u s).trl = if u then s.crc else s.csum.setWidth 16 := rfl
@[simp] theorem latchTrailer_rxTrl (u : Bool) : (latchTrailer u s).rxTrl = s.rxTrl := rfl
@[simp] theorem latchTrailer_txLen (u : Bool) : (latchTrailer u s).txLen = s.txLen := rfl
@[simp] theorem latchTrailer_rxLen (u : Bool) : (latchTrailer u s).rxLen = s.rxLen := rfl
@[simp] theorem latchTrailer_bufAddr (u : Bool) : (latchTrailer u s).bufAddr = s.bufAddr := rfl
@[simp] theorem latchTrailer_buf (u : Bool) : (latchTrailer u s).buf = s.buf := rfl
@[simp] theorem latchTrailer_bufDraw (u : Bool) : (latchTrailer u s).bufDraw = s.bufDraw := rfl
@[simp] theorem latchTrailer_unit (u : Bool) : (latchTrailer u s).unit = s.unit := rfl
@[simp] theorem latchTrailer_purgeHeard (u : Bool) : (latchTrailer u s).purgeHeard = s.purgeHeard := rfl
@[simp] theorem latchTrailer_purgeDraw (u : Bool) : (latchTrailer u s).purgeDraw = s.purgeDraw := rfl
@[simp] theorem latchTrailer_hid (u : Bool) : (latchTrailer u s).hid = s.hid := rfl
@[simp] theorem latchTrailer_trace (u : Bool) : (latchTrailer u s).trace = s.trace := rfl
@[simp] theorem latchTrailer_progress (u : Bool) : (latchTrailer u s).progress = s.progress := rfl
@[simp] theorem latchTrailer_reads (u : Bool) : (latchTrailer u s).reads = s.reads := rfl
@[simp] theorem latchTrailer_inputs (u : Bool) : (latchTrailer u s).inputs = s.inputs := rfl

/-! ## `checkTrailer` -/

@[simp] theorem checkTrailer_ctrl (u : Bool) : (checkTrailer u s).ctrl = s.ctrl := rfl
@[simp] theorem checkTrailer_timeout (u : Bool) : (checkTrailer u s).timeout = s.timeout := rfl
@[simp] theorem checkTrailer_sessCfg (u : Bool) : (checkTrailer u s).sessCfg = s.sessCfg := rfl
@[simp] theorem checkTrailer_sessTmo (u : Bool) : (checkTrailer u s).sessTmo = s.sessTmo := rfl
@[simp] theorem checkTrailer_status (u : Bool) : (checkTrailer u s).status = { s.status with valid := if u then decide (s.crc = s.trl) else decide (s.csum = s.trl.extractLsb' 0 8) } := rfl
@[simp] theorem checkTrailer_seq (u : Bool) : (checkTrailer u s).seq = s.seq := rfl
@[simp] theorem checkTrailer_errCnt (u : Bool) : (checkTrailer u s).errCnt = s.errCnt := rfl
@[simp] theorem checkTrailer_succCnt (u : Bool) : (checkTrailer u s).succCnt = s.succCnt := rfl
@[simp] theorem checkTrailer_totCnt (u : Bool) : (checkTrailer u s).totCnt = s.totCnt := rfl
@[simp] theorem checkTrailer_byteCnt (u : Bool) : (checkTrailer u s).byteCnt = s.byteCnt := rfl
@[simp] theorem checkTrailer_crc (u : Bool) : (checkTrailer u s).crc = s.crc := rfl
@[simp] theorem checkTrailer_csum (u : Bool) : (checkTrailer u s).csum = s.csum := rfl
@[simp] theorem checkTrailer_hdr (u : Bool) : (checkTrailer u s).hdr = s.hdr := rfl
@[simp] theorem checkTrailer_trl (u : Bool) : (checkTrailer u s).trl = s.trl := rfl
@[simp] theorem checkTrailer_rxTrl (u : Bool) : (checkTrailer u s).rxTrl = s.rxTrl := rfl
@[simp] theorem checkTrailer_txLen (u : Bool) : (checkTrailer u s).txLen = s.txLen := rfl
@[simp] theorem checkTrailer_rxLen (u : Bool) : (checkTrailer u s).rxLen = s.rxLen := rfl
@[simp] theorem checkTrailer_bufAddr (u : Bool) : (checkTrailer u s).bufAddr = s.bufAddr := rfl
@[simp] theorem checkTrailer_buf (u : Bool) : (checkTrailer u s).buf = s.buf := rfl
@[simp] theorem checkTrailer_bufDraw (u : Bool) : (checkTrailer u s).bufDraw = s.bufDraw := rfl
@[simp] theorem checkTrailer_unit (u : Bool) : (checkTrailer u s).unit = s.unit := rfl
@[simp] theorem checkTrailer_purgeHeard (u : Bool) : (checkTrailer u s).purgeHeard = s.purgeHeard := rfl
@[simp] theorem checkTrailer_purgeDraw (u : Bool) : (checkTrailer u s).purgeDraw = s.purgeDraw := rfl
@[simp] theorem checkTrailer_hid (u : Bool) : (checkTrailer u s).hid = s.hid := rfl
@[simp] theorem checkTrailer_trace (u : Bool) : (checkTrailer u s).trace = s.trace := rfl
@[simp] theorem checkTrailer_progress (u : Bool) : (checkTrailer u s).progress = s.progress := rfl
@[simp] theorem checkTrailer_reads (u : Bool) : (checkTrailer u s).reads = s.reads := rfl
@[simp] theorem checkTrailer_inputs (u : Bool) : (checkTrailer u s).inputs = s.inputs := rfl

/-! ## `advanceBufAddr` -/

@[simp] theorem advanceBufAddr_ctrl : (advanceBufAddr s).ctrl = s.ctrl := rfl
@[simp] theorem advanceBufAddr_timeout : (advanceBufAddr s).timeout = s.timeout := rfl
@[simp] theorem advanceBufAddr_sessCfg : (advanceBufAddr s).sessCfg = s.sessCfg := rfl
@[simp] theorem advanceBufAddr_sessTmo : (advanceBufAddr s).sessTmo = s.sessTmo := rfl
@[simp] theorem advanceBufAddr_status : (advanceBufAddr s).status = s.status := rfl
@[simp] theorem advanceBufAddr_seq : (advanceBufAddr s).seq = s.seq := rfl
@[simp] theorem advanceBufAddr_errCnt : (advanceBufAddr s).errCnt = s.errCnt := rfl
@[simp] theorem advanceBufAddr_succCnt : (advanceBufAddr s).succCnt = s.succCnt := rfl
@[simp] theorem advanceBufAddr_totCnt : (advanceBufAddr s).totCnt = s.totCnt := rfl
@[simp] theorem advanceBufAddr_byteCnt : (advanceBufAddr s).byteCnt = s.byteCnt := rfl
@[simp] theorem advanceBufAddr_crc : (advanceBufAddr s).crc = s.crc := rfl
@[simp] theorem advanceBufAddr_csum : (advanceBufAddr s).csum = s.csum := rfl
@[simp] theorem advanceBufAddr_hdr : (advanceBufAddr s).hdr = s.hdr := rfl
@[simp] theorem advanceBufAddr_trl : (advanceBufAddr s).trl = s.trl := rfl
@[simp] theorem advanceBufAddr_rxTrl : (advanceBufAddr s).rxTrl = s.rxTrl := rfl
@[simp] theorem advanceBufAddr_txLen : (advanceBufAddr s).txLen = s.txLen := rfl
@[simp] theorem advanceBufAddr_rxLen : (advanceBufAddr s).rxLen = s.rxLen := rfl
@[simp] theorem advanceBufAddr_bufAddr : (advanceBufAddr s).bufAddr = s.bufAddr + 1 := rfl
@[simp] theorem advanceBufAddr_buf : (advanceBufAddr s).buf = s.buf := rfl
@[simp] theorem advanceBufAddr_bufDraw : (advanceBufAddr s).bufDraw = s.bufDraw := rfl
@[simp] theorem advanceBufAddr_unit : (advanceBufAddr s).unit = s.unit := rfl
@[simp] theorem advanceBufAddr_purgeHeard : (advanceBufAddr s).purgeHeard = s.purgeHeard := rfl
@[simp] theorem advanceBufAddr_purgeDraw : (advanceBufAddr s).purgeDraw = s.purgeDraw := rfl
@[simp] theorem advanceBufAddr_hid : (advanceBufAddr s).hid = s.hid := rfl
@[simp] theorem advanceBufAddr_trace : (advanceBufAddr s).trace = s.trace := rfl
@[simp] theorem advanceBufAddr_progress : (advanceBufAddr s).progress = s.progress := rfl
@[simp] theorem advanceBufAddr_reads : (advanceBufAddr s).reads = s.reads := rfl
@[simp] theorem advanceBufAddr_inputs : (advanceBufAddr s).inputs = s.inputs := rfl

/-! ## `bufStore` -/

@[simp] theorem bufStore_ctrl (v : Word) : (bufStore v s).ctrl = s.ctrl := rfl
@[simp] theorem bufStore_timeout (v : Word) : (bufStore v s).timeout = s.timeout := rfl
@[simp] theorem bufStore_sessCfg (v : Word) : (bufStore v s).sessCfg = s.sessCfg := rfl
@[simp] theorem bufStore_sessTmo (v : Word) : (bufStore v s).sessTmo = s.sessTmo := rfl
@[simp] theorem bufStore_status (v : Word) : (bufStore v s).status = s.status := rfl
@[simp] theorem bufStore_seq (v : Word) : (bufStore v s).seq = s.seq := rfl
@[simp] theorem bufStore_errCnt (v : Word) : (bufStore v s).errCnt = s.errCnt := rfl
@[simp] theorem bufStore_succCnt (v : Word) : (bufStore v s).succCnt = s.succCnt := rfl
@[simp] theorem bufStore_totCnt (v : Word) : (bufStore v s).totCnt = s.totCnt := rfl
@[simp] theorem bufStore_byteCnt (v : Word) : (bufStore v s).byteCnt = s.byteCnt := rfl
@[simp] theorem bufStore_crc (v : Word) : (bufStore v s).crc = s.crc := rfl
@[simp] theorem bufStore_csum (v : Word) : (bufStore v s).csum = s.csum := rfl
@[simp] theorem bufStore_hdr (v : Word) : (bufStore v s).hdr = s.hdr := rfl
@[simp] theorem bufStore_trl (v : Word) : (bufStore v s).trl = s.trl := rfl
@[simp] theorem bufStore_rxTrl (v : Word) : (bufStore v s).rxTrl = s.rxTrl := rfl
@[simp] theorem bufStore_txLen (v : Word) : (bufStore v s).txLen = s.txLen := rfl
@[simp] theorem bufStore_rxLen (v : Word) : (bufStore v s).rxLen = s.rxLen := rfl
@[simp] theorem bufStore_bufAddr (v : Word) : (bufStore v s).bufAddr = s.bufAddr + 1 := rfl
@[simp] theorem bufStore_buf (v : Word) : (bufStore v s).buf = s.buf.store s.bufAddr.toNat (v.setWidth 8) := rfl
@[simp] theorem bufStore_bufDraw (v : Word) : (bufStore v s).bufDraw = s.bufDraw := rfl
@[simp] theorem bufStore_unit (v : Word) : (bufStore v s).unit = s.unit := rfl
@[simp] theorem bufStore_purgeHeard (v : Word) : (bufStore v s).purgeHeard = s.purgeHeard := rfl
@[simp] theorem bufStore_purgeDraw (v : Word) : (bufStore v s).purgeDraw = s.purgeDraw := rfl
@[simp] theorem bufStore_hid (v : Word) : (bufStore v s).hid = s.hid := rfl
@[simp] theorem bufStore_trace (v : Word) : (bufStore v s).trace = s.trace := rfl
@[simp] theorem bufStore_progress (v : Word) : (bufStore v s).progress = s.progress := rfl
@[simp] theorem bufStore_reads (v : Word) : (bufStore v s).reads = s.reads := rfl
@[simp] theorem bufStore_inputs (v : Word) : (bufStore v s).inputs = s.inputs := rfl

/-! ## `bufReceive` -/

@[simp] theorem bufReceive_ctrl (d : List Byte) : (bufReceive d s).ctrl = s.ctrl := rfl
@[simp] theorem bufReceive_timeout (d : List Byte) : (bufReceive d s).timeout = s.timeout := rfl
@[simp] theorem bufReceive_sessCfg (d : List Byte) : (bufReceive d s).sessCfg = s.sessCfg := rfl
@[simp] theorem bufReceive_sessTmo (d : List Byte) : (bufReceive d s).sessTmo = s.sessTmo := rfl
@[simp] theorem bufReceive_status (d : List Byte) : (bufReceive d s).status = s.status := rfl
@[simp] theorem bufReceive_seq (d : List Byte) : (bufReceive d s).seq = s.seq := rfl
@[simp] theorem bufReceive_errCnt (d : List Byte) : (bufReceive d s).errCnt = s.errCnt := rfl
@[simp] theorem bufReceive_succCnt (d : List Byte) : (bufReceive d s).succCnt = s.succCnt := rfl
@[simp] theorem bufReceive_totCnt (d : List Byte) : (bufReceive d s).totCnt = s.totCnt := rfl
@[simp] theorem bufReceive_byteCnt (d : List Byte) : (bufReceive d s).byteCnt = s.byteCnt := rfl
@[simp] theorem bufReceive_crc (d : List Byte) : (bufReceive d s).crc = s.crc := rfl
@[simp] theorem bufReceive_csum (d : List Byte) : (bufReceive d s).csum = s.csum := rfl
@[simp] theorem bufReceive_hdr (d : List Byte) : (bufReceive d s).hdr = s.hdr := rfl
@[simp] theorem bufReceive_trl (d : List Byte) : (bufReceive d s).trl = s.trl := rfl
@[simp] theorem bufReceive_rxTrl (d : List Byte) : (bufReceive d s).rxTrl = s.rxTrl := rfl
@[simp] theorem bufReceive_txLen (d : List Byte) : (bufReceive d s).txLen = s.txLen := rfl
@[simp] theorem bufReceive_rxLen (d : List Byte) : (bufReceive d s).rxLen = s.rxLen := rfl
@[simp] theorem bufReceive_bufAddr (d : List Byte) : (bufReceive d s).bufAddr = s.bufAddr := rfl
@[simp] theorem bufReceive_buf (d : List Byte) : (bufReceive d s).buf = s.buf.storePrefix (d.take s.hid.p.bytes) := rfl
@[simp] theorem bufReceive_bufDraw (d : List Byte) : (bufReceive d s).bufDraw = s.bufDraw := rfl
@[simp] theorem bufReceive_unit (d : List Byte) : (bufReceive d s).unit = s.unit := rfl
@[simp] theorem bufReceive_purgeHeard (d : List Byte) : (bufReceive d s).purgeHeard = s.purgeHeard := rfl
@[simp] theorem bufReceive_purgeDraw (d : List Byte) : (bufReceive d s).purgeDraw = s.purgeDraw := rfl
@[simp] theorem bufReceive_hid (d : List Byte) : (bufReceive d s).hid = s.hid := rfl
@[simp] theorem bufReceive_trace (d : List Byte) : (bufReceive d s).trace = s.trace := rfl
@[simp] theorem bufReceive_progress (d : List Byte) : (bufReceive d s).progress = s.progress := rfl
@[simp] theorem bufReceive_reads (d : List Byte) : (bufReceive d s).reads = s.reads := rfl
@[simp] theorem bufReceive_inputs (d : List Byte) : (bufReceive d s).inputs = s.inputs := rfl

/-! ## `answerRead` -/

@[simp] theorem answerRead_ctrl (v : Word) : (answerRead v s).ctrl = s.ctrl := rfl
@[simp] theorem answerRead_timeout (v : Word) : (answerRead v s).timeout = s.timeout := rfl
@[simp] theorem answerRead_sessCfg (v : Word) : (answerRead v s).sessCfg = s.sessCfg := rfl
@[simp] theorem answerRead_sessTmo (v : Word) : (answerRead v s).sessTmo = s.sessTmo := rfl
@[simp] theorem answerRead_status (v : Word) : (answerRead v s).status = s.status := rfl
@[simp] theorem answerRead_seq (v : Word) : (answerRead v s).seq = s.seq := rfl
@[simp] theorem answerRead_errCnt (v : Word) : (answerRead v s).errCnt = s.errCnt := rfl
@[simp] theorem answerRead_succCnt (v : Word) : (answerRead v s).succCnt = s.succCnt := rfl
@[simp] theorem answerRead_totCnt (v : Word) : (answerRead v s).totCnt = s.totCnt := rfl
@[simp] theorem answerRead_byteCnt (v : Word) : (answerRead v s).byteCnt = s.byteCnt := rfl
@[simp] theorem answerRead_crc (v : Word) : (answerRead v s).crc = s.crc := rfl
@[simp] theorem answerRead_csum (v : Word) : (answerRead v s).csum = s.csum := rfl
@[simp] theorem answerRead_hdr (v : Word) : (answerRead v s).hdr = s.hdr := rfl
@[simp] theorem answerRead_trl (v : Word) : (answerRead v s).trl = s.trl := rfl
@[simp] theorem answerRead_rxTrl (v : Word) : (answerRead v s).rxTrl = s.rxTrl := rfl
@[simp] theorem answerRead_txLen (v : Word) : (answerRead v s).txLen = s.txLen := rfl
@[simp] theorem answerRead_rxLen (v : Word) : (answerRead v s).rxLen = s.rxLen := rfl
@[simp] theorem answerRead_bufAddr (v : Word) : (answerRead v s).bufAddr = s.bufAddr := rfl
@[simp] theorem answerRead_buf (v : Word) : (answerRead v s).buf = s.buf := rfl
@[simp] theorem answerRead_bufDraw (v : Word) : (answerRead v s).bufDraw = s.bufDraw := rfl
@[simp] theorem answerRead_unit (v : Word) : (answerRead v s).unit = s.unit := rfl
@[simp] theorem answerRead_purgeHeard (v : Word) : (answerRead v s).purgeHeard = s.purgeHeard := rfl
@[simp] theorem answerRead_purgeDraw (v : Word) : (answerRead v s).purgeDraw = s.purgeDraw := rfl
@[simp] theorem answerRead_hid (v : Word) : (answerRead v s).hid = s.hid := rfl
@[simp] theorem answerRead_trace (v : Word) : (answerRead v s).trace = s.trace := rfl
@[simp] theorem answerRead_progress (v : Word) : (answerRead v s).progress = s.progress := rfl
@[simp] theorem answerRead_reads (v : Word) : (answerRead v s).reads = s.reads ++ [v] := rfl
@[simp] theorem answerRead_inputs (v : Word) : (answerRead v s).inputs = s.inputs := rfl

/-! ## `withInputs` -/

@[simp] theorem withInputs_ctrl (es : List Event) : (withInputs es s).ctrl = s.ctrl := rfl
@[simp] theorem withInputs_timeout (es : List Event) : (withInputs es s).timeout = s.timeout := rfl
@[simp] theorem withInputs_sessCfg (es : List Event) : (withInputs es s).sessCfg = s.sessCfg := rfl
@[simp] theorem withInputs_sessTmo (es : List Event) : (withInputs es s).sessTmo = s.sessTmo := rfl
@[simp] theorem withInputs_status (es : List Event) : (withInputs es s).status = s.status := rfl
@[simp] theorem withInputs_seq (es : List Event) : (withInputs es s).seq = s.seq := rfl
@[simp] theorem withInputs_errCnt (es : List Event) : (withInputs es s).errCnt = s.errCnt := rfl
@[simp] theorem withInputs_succCnt (es : List Event) : (withInputs es s).succCnt = s.succCnt := rfl
@[simp] theorem withInputs_totCnt (es : List Event) : (withInputs es s).totCnt = s.totCnt := rfl
@[simp] theorem withInputs_byteCnt (es : List Event) : (withInputs es s).byteCnt = s.byteCnt := rfl
@[simp] theorem withInputs_crc (es : List Event) : (withInputs es s).crc = s.crc := rfl
@[simp] theorem withInputs_csum (es : List Event) : (withInputs es s).csum = s.csum := rfl
@[simp] theorem withInputs_hdr (es : List Event) : (withInputs es s).hdr = s.hdr := rfl
@[simp] theorem withInputs_trl (es : List Event) : (withInputs es s).trl = s.trl := rfl
@[simp] theorem withInputs_rxTrl (es : List Event) : (withInputs es s).rxTrl = s.rxTrl := rfl
@[simp] theorem withInputs_txLen (es : List Event) : (withInputs es s).txLen = s.txLen := rfl
@[simp] theorem withInputs_rxLen (es : List Event) : (withInputs es s).rxLen = s.rxLen := rfl
@[simp] theorem withInputs_bufAddr (es : List Event) : (withInputs es s).bufAddr = s.bufAddr := rfl
@[simp] theorem withInputs_buf (es : List Event) : (withInputs es s).buf = s.buf := rfl
@[simp] theorem withInputs_bufDraw (es : List Event) : (withInputs es s).bufDraw = s.bufDraw := rfl
@[simp] theorem withInputs_unit (es : List Event) : (withInputs es s).unit = s.unit := rfl
@[simp] theorem withInputs_purgeHeard (es : List Event) : (withInputs es s).purgeHeard = s.purgeHeard := rfl
@[simp] theorem withInputs_purgeDraw (es : List Event) : (withInputs es s).purgeDraw = s.purgeDraw := rfl
@[simp] theorem withInputs_hid (es : List Event) : (withInputs es s).hid = s.hid := rfl
@[simp] theorem withInputs_trace (es : List Event) : (withInputs es s).trace = s.trace := rfl
@[simp] theorem withInputs_progress (es : List Event) : (withInputs es s).progress = s.progress := rfl
@[simp] theorem withInputs_reads (es : List Event) : (withInputs es s).reads = s.reads := rfl
@[simp] theorem withInputs_inputs (es : List Event) : (withInputs es s).inputs = es := rfl

/-! ## `sessionOpen` -/

@[simp] theorem sessionOpen_ctrl : (sessionOpen s).ctrl = s.ctrl := rfl
@[simp] theorem sessionOpen_timeout : (sessionOpen s).timeout = s.timeout := rfl
@[simp] theorem sessionOpen_sessCfg : (sessionOpen s).sessCfg = ⟨s.ctrl.mode, s.ctrl.crcPref, s.ctrl.pad, s.ctrl.retry⟩ := rfl
@[simp] theorem sessionOpen_sessTmo : (sessionOpen s).sessTmo = s.timeout := rfl
@[simp] theorem sessionOpen_status : (sessionOpen s).status = { s.status with canSeen := false, useCrc := false, phase := .idle } := rfl
@[simp] theorem sessionOpen_seq : (sessionOpen s).seq = 1 := rfl
@[simp] theorem sessionOpen_errCnt : (sessionOpen s).errCnt = 0 := rfl
@[simp] theorem sessionOpen_succCnt : (sessionOpen s).succCnt = 0 := rfl
@[simp] theorem sessionOpen_totCnt : (sessionOpen s).totCnt = 0 := rfl
@[simp] theorem sessionOpen_byteCnt : (sessionOpen s).byteCnt = 0 := rfl
@[simp] theorem sessionOpen_crc : (sessionOpen s).crc = s.crc := rfl
@[simp] theorem sessionOpen_csum : (sessionOpen s).csum = s.csum := rfl
@[simp] theorem sessionOpen_hdr : (sessionOpen s).hdr = s.hdr := rfl
@[simp] theorem sessionOpen_trl : (sessionOpen s).trl = s.trl := rfl
@[simp] theorem sessionOpen_rxTrl : (sessionOpen s).rxTrl = s.rxTrl := rfl
@[simp] theorem sessionOpen_txLen : (sessionOpen s).txLen = s.txLen := rfl
@[simp] theorem sessionOpen_rxLen : (sessionOpen s).rxLen = 0 := rfl
@[simp] theorem sessionOpen_bufAddr : (sessionOpen s).bufAddr = s.bufAddr := rfl
@[simp] theorem sessionOpen_buf : (sessionOpen s).buf = s.buf := rfl
@[simp] theorem sessionOpen_bufDraw : (sessionOpen s).bufDraw = s.bufDraw := rfl
@[simp] theorem sessionOpen_unit : (sessionOpen s).unit = s.unit := rfl
@[simp] theorem sessionOpen_purgeHeard : (sessionOpen s).purgeHeard = s.purgeHeard := rfl
@[simp] theorem sessionOpen_purgeDraw : (sessionOpen s).purgeDraw = s.purgeDraw := rfl
@[simp] theorem sessionOpen_hid : (sessionOpen s).hid = s.hid := rfl
@[simp] theorem sessionOpen_trace : (sessionOpen s).trace = s.trace := rfl
@[simp] theorem sessionOpen_progress : (sessionOpen s).progress = s.progress := rfl
@[simp] theorem sessionOpen_reads : (sessionOpen s).reads = s.reads := rfl
@[simp] theorem sessionOpen_inputs : (sessionOpen s).inputs = s.inputs := rfl

end Sys2Proof.Machine
end

