-- ==== Sys2Proof/Laws/Buffer.lean ====
section
/-! SUPPORT. The block buffer's laws: read after write, writes leave other indices alone, and every operation keeps the canonical
form (Memory.wf). -/

namespace Sys2Proof.Machine

@[simp] theorem Memory.get?_nil (i : Nat) : Memory.get? [] i = none := rfl

theorem Memory.get?_cons (k : Nat) (b : Byte) (m : Memory) (i : Nat) :
    Memory.get? ((k, b) :: m) i = if k = i then some b else Memory.get? m i := rfl

/-- A byte just written is the byte read. -/
theorem Memory.get?_store_same (m : Memory) (i : Nat) (v : Byte) : (m.store i v).get? i = some v := by
  induction m with
  | nil => simp [Memory.store, Memory.get?]
  | cons c m ih =>
    obtain ⟨k, b⟩ := c
    simp only [Memory.store]
    split
    · simp [Memory.get?]
    · split
      · simp [Memory.get?]
      · rename_i h1 h2
        simp [Memory.get?, ih, Ne.symm h2]

/-- A write leaves every other index alone. -/
theorem Memory.get?_store_other (m : Memory) {i j : Nat} (v : Byte) (h : j ≠ i) :
    (m.store i v).get? j = m.get? j := by
  induction m with
  | nil => simp [Memory.store, Memory.get?, Ne.symm h]
  | cons c m ih =>
    obtain ⟨k, b⟩ := c
    simp only [Memory.store]
    split
    · simp [Memory.get?, Ne.symm h]
    · split
      · rename_i h1 h2
        subst h2
        simp [Memory.get?, Ne.symm h]
      · simp [Memory.get?, ih]

/-- Lookup in a concatenation: the first part decides where it has the index. -/
theorem Memory.get?_append (m n : Memory) (i : Nat) :
    Memory.get? (m ++ n) i = (m.get? i).orElse fun _ => n.get? i := by
  induction m with
  | nil => simp [Memory.get?]
  | cons c m ih =>
    obtain ⟨k, b⟩ := c
    simp only [List.cons_append, Memory.get?]
    split
    · simp
    · exact ih

/-- Lookup in the cells that a run of bytes from index `k` on makes. -/
theorem Memory.get?_zipIdx (d : List Byte) (k i : Nat) :
    Memory.get? ((d.zipIdx k).map fun c => (c.2, c.1)) i = if k ≤ i then d[i - k]? else none := by
  induction d generalizing k with
  | nil => simp
  | cons b d ih =>
    simp only [List.zipIdx_cons, List.map_cons, Memory.get?]
    split
    · rename_i h; subst h; simp
    · rename_i h
      rw [ih]
      split
      · rename_i h1
        have h2 : i - k = (i - (k + 1)) + 1 := by omega
        rw [if_pos (by omega), h2, List.getElem?_cons_succ]
      · rw [if_neg (by omega)]

/-- Lookup in the cells kept by a filter on the index. -/
theorem Memory.get?_filter (m : Memory) (p : Nat → Bool) (i : Nat) :
    Memory.get? (m.filter fun c => p c.1) i = if p i then m.get? i else none := by
  induction m with
  | nil => simp [Memory.get?]
  | cons c m ih =>
    obtain ⟨k, b⟩ := c
    by_cases hk : k = i
    · subst hk
      by_cases hp : p k <;> simp [List.filter, hp, Memory.get?, ih]
    · by_cases hp : p k <;> simp [List.filter, hp, Memory.get?, ih, hk]

/-- A prefix write: the bytes written below its length, the old ones from there on. -/
theorem Memory.get?_storePrefix (m : Memory) (d : List Byte) (i : Nat) :
    (m.storePrefix d).get? i = if i < d.length then d[i]? else m.get? i := by
  unfold Memory.storePrefix
  rw [Memory.get?_append, Memory.get?_zipIdx, Memory.get?_filter m (fun k => decide (d.length ≤ k))]
  by_cases h : i < d.length
  · simp [h]
  · simp [h, Nat.le_of_not_lt h]

/-! ## The canonical form -/

theorem Memory.wfFrom_cons (lo k : Nat) (b : Byte) (m : Memory) :
    Memory.wfFrom lo ((k, b) :: m) = true ↔ lo ≤ k ∧ k < 1024 ∧ Memory.wfFrom (k + 1) m = true := by
  simp [Memory.wfFrom, and_assoc]

theorem Memory.wfFrom_mono {lo lo' : Nat} (h : lo' ≤ lo) {m : Memory} (hm : Memory.wfFrom lo m = true) :
    Memory.wfFrom lo' m = true := by
  cases m with
  | nil => rfl
  | cons c m =>
    obtain ⟨k, b⟩ := c
    rw [Memory.wfFrom_cons] at hm ⊢
    exact ⟨by omega, hm.2⟩

theorem Memory.wfFrom_store {lo i : Nat} (v : Byte) {m : Memory} (hlo : lo ≤ i) (hi : i < 1024)
    (hm : Memory.wfFrom lo m = true) : Memory.wfFrom lo (m.store i v) = true := by
  induction m generalizing lo with
  | nil => simp [Memory.store, Memory.wfFrom, hlo, hi]
  | cons c m ih =>
    obtain ⟨k, b⟩ := c
    rw [Memory.wfFrom_cons] at hm
    obtain ⟨h1, h2, h3⟩ := hm
    simp only [Memory.store]
    split
    · rw [Memory.wfFrom_cons, Memory.wfFrom_cons]
      exact ⟨hlo, hi, by omega, h2, h3⟩
    · split
      · rename_i h4 h5
        subst h5
        rw [Memory.wfFrom_cons]
        exact ⟨hlo, hi, h3⟩
      · rw [Memory.wfFrom_cons]
        exact ⟨h1, h2, ih (by omega) h3⟩

/-- Writing one byte keeps the canonical form. -/
theorem Memory.wf_store {m : Memory} {i : Nat} (v : Byte) (hi : i < 1024) (hm : m.wf = true) :
    (m.store i v).wf = true :=
  Memory.wfFrom_store v (Nat.zero_le _) hi hm

theorem Memory.wfFrom_filter {lo n : Nat} {m : Memory} (hm : Memory.wfFrom lo m = true) :
    Memory.wfFrom (max lo n) (m.filter fun c => decide (n ≤ c.1)) = true := by
  induction m generalizing lo with
  | nil => rfl
  | cons c m ih =>
    obtain ⟨k, b⟩ := c
    rw [Memory.wfFrom_cons] at hm
    obtain ⟨h1, h2, h3⟩ := hm
    by_cases h : n ≤ k
    · simp only [List.filter, h, decide_true, Memory.wfFrom_cons]
      have h5 : max (k + 1) n = k + 1 := by omega
      exact ⟨by omega, h2, h5 ▸ ih h3⟩
    · have hm' := ih h3
      simp only [List.filter, h, decide_false]
      exact Memory.wfFrom_mono (by omega) hm'

theorem Memory.wfFrom_zipIdx (d : List Byte) (k : Nat) (m : Memory) (hk : k + d.length ≤ 1024)
    (hm : Memory.wfFrom (k + d.length) m = true) :
    Memory.wfFrom k (((d.zipIdx k).map fun c => (c.2, c.1)) ++ m) = true := by
  induction d generalizing k with
  | nil => simpa using hm
  | cons b d ih =>
    simp only [List.length_cons] at hk hm
    simp only [List.zipIdx_cons, List.map_cons, List.cons_append, Memory.wfFrom_cons]
    refine ⟨Nat.le_refl k, by omega, ih (k + 1) (by omega) ?_⟩
    have h6 : k + 1 + d.length = k + (d.length + 1) := by omega
    exact h6 ▸ hm

/-- Writing a prefix inside the buffer keeps the canonical form. -/
theorem Memory.wf_storePrefix {m : Memory} {d : List Byte} (hd : d.length ≤ 1024) (hm : m.wf = true) :
    (m.storePrefix d).wf = true := by
  refine Memory.wfFrom_zipIdx d 0 _ (by simpa using hd) ?_
  have h := Memory.wfFrom_filter (n := d.length) hm
  simpa using h

/-- The buffer after reset has the canonical form. -/
theorem reset_buf_wf : State.reset.buf.wf = true := rfl

/-- The receiver's data read writes at most the whole buffer. -/
theorem bufReceive_wf (d : List Byte) {s : State} (h : s.buf.wf = true) : (bufReceive d s).buf.wf = true := by
  refine Memory.wf_storePrefix ?_ h
  cases hp : s.hid.p <;> simp [BlockSize.bytes, List.length_take]

/-- The host's BUFDATA write keeps the canonical form. -/
theorem bufStore_wf (v : Word) {s : State} (h : s.buf.wf = true) : (bufStore v s).buf.wf = true :=
  Memory.wf_store _ (by have := s.bufAddr.isLt; omega) h

/-! ## Bytes of the buffer through State -/

/-- The byte at an index depends on the buffer, the instance and the draw alone. -/
theorem bufByte_congr {s t : State} (hb : t.buf = s.buf) (hu : t.unit = s.unit) (hd : t.bufDraw = s.bufDraw)
    (i : Nat) :
    bufByte t i = bufByte s i := by
  simp [bufByte, hb, hu, hd]

/-- What BUFDATA's write leaves at each index. -/
theorem bufByte_bufStore (v : Word) (s : State) (i : Nat) :
    bufByte (bufStore v s) i = if i = s.bufAddr.toNat then v.setWidth 8 else bufByte s i := by
  unfold bufByte
  split
  · rename_i h; subst h; simp [Memory.get?_store_same]
  · rename_i h; simp [Memory.get?_store_other _ _ h]

/-- What the receiver's data read leaves at each index. -/
theorem bufByte_bufReceive (d : List Byte) (s : State) (i : Nat) :
    bufByte (bufReceive d s) i = ((d.take s.hid.p.bytes)[i]?).getD (bufByte s i) := by
  unfold bufByte
  simp only [bufReceive_buf, bufReceive_bufDraw, bufReceive_unit, Memory.get?_storePrefix]
  split
  · rename_i h; simp [List.getElem?_eq_getElem h]
  · rename_i h; rw [List.getElem?_eq_none (Nat.le_of_not_lt h)]; simp

/-- A run of buffer bytes has the length asked for. -/
@[simp] theorem bufRun_length (s : State) (n : Nat) : (bufRun s n).length = n := by simp [bufRun]

end Sys2Proof.Machine
end

