-- ==== Sys2Proof/Laws/Control.lean ====
section
/-! SUPPORT. One lemma per shared operation that says once everything it can do: taking an input, Fail, CancelCheck, the link
primitives, and one step. -/

namespace Sys2Proof.Machine

/-! ## Taking an input -/

/-- With no enabled event waiting, nothing is taken. -/
theorem takeInput_none_iff (pt : Point) (es : List Event) :
    takeInput pt es = none ↔ ∀ e ∈ es, Event.enabled pt e = false := by
  induction es with
  | nil => simp [takeInput]
  | cons e es ih =>
    simp only [takeInput, List.mem_cons, forall_eq_or_imp]
    split
    · rename_i h; simp [h]
    · rename_i h
      rw [Bool.not_eq_true] at h
      split
      · rename_i h2; simpa [h] using ih.mp h2
      · rename_i e' rest h2
        simp only [h, true_and, false_iff, reduceCtorEq]
        intro hall
        rw [ih.mpr hall] at h2
        cases h2

/-- What is taken is the earliest enabled event; the others keep their order. -/
theorem takeInput_some {pt : Point} {es : List Event} {e : Event} {rest : List Event}
    (h : takeInput pt es = some (e, rest)) :
    ∃ pre post, es = pre ++ e :: post ∧ rest = pre ++ post ∧ Event.enabled pt e = true ∧
      ∀ x ∈ pre, Event.enabled pt x = false := by
  induction es generalizing rest with
  | nil => cases h
  | cons x es ih =>
    simp only [takeInput] at h
    split at h
    · rename_i hx
      cases h
      exact ⟨[], es, rfl, rfl, hx, by simp⟩
    · rename_i hx
      split at h
      · cases h
      · rename_i e' rest' h2
        cases h
        obtain ⟨pre, post, h3, h4, h5, h6⟩ := ih h2
        refine ⟨x :: pre, post, by simp [h3], by simp [h4], h5, ?_⟩
        intro y hy
        rcases List.mem_cons.mp hy with rfl | hy
        · simpa using hx
        · exact h6 y hy

/-- An enabled event put first is the one taken. -/
theorem takeInput_cons {pt : Point} {e : Event} {es : List Event} (h : Event.enabled pt e = true) :
    takeInput pt (e :: es) = some (e, es) := by
  simp [takeInput, h]

/-! ## One step -/

/-- Everything a step can do: nothing, or one enabled event handled. -/
theorem step_cases {s : State} {o : Host.Outcome State Fault Refusal} (h : step s = o) :
    ((∀ e ∈ s.inputs, Event.enabled s.hid.pt e = false) ∧ o = .next s) ∨
      ∃ e pre post, s.inputs = pre ++ e :: post ∧ Event.enabled s.hid.pt e = true ∧
        (∀ x ∈ pre, Event.enabled s.hid.pt x = false) ∧ o = handle e (withInputs (pre ++ post) s) := by
  subst h
  unfold step advance
  split
  · rename_i h; exact Or.inl ⟨(takeInput_none_iff _ _).mp h, rfl⟩
  · rename_i e rest h
    obtain ⟨pre, post, h1, h2, h3, h4⟩ := takeInput_some h
    exact Or.inr ⟨e, pre, post, h1, h3, h4, by rw [h2]⟩

/-- A step that takes the event `e`, put first and enabled, handles it and leaves the other waiting events. -/
theorem takes_iff {e : Event} {s t : State} (h : Event.enabled s.hid.pt e = true) :
    Takes e s t ↔ handle e s = .next t := by
  unfold Takes step advance
  rw [withInputs_inputs, withInputs_hid, takeInput_cons h]
  rfl

/-! ## Retry accounting and the abort -/

/-- Fail() either reaches the limit and starts the abort, or goes on. -/
theorem failThen_cases (code : ResultCode) (retry : State → State) (s : State) :
    (limit s ≤ s.errCnt.toNat + 1 ∧ failThen code retry s = abortWithCancel code (countFailure s)) ∨
      (s.errCnt.toNat + 1 < limit s ∧ failThen code retry s = retry (countFailure s)) := by
  by_cases h : limit s ≤ s.errCnt.toNat + 1
  · exact Or.inl ⟨h, by simp [failThen, exhausted, h]⟩
  · exact Or.inr ⟨by omega, by simp [failThen, exhausted, h]⟩

/-- The limit is between 1 and 255. -/
theorem limit_bounds (s : State) : 1 ≤ limit s ∧ limit s ≤ 255 := by
  have := s.sessCfg.retry.isLt
  unfold limit
  omega

/-- The limit depends on SESSCFG alone. -/
theorem limit_congr {s t : State} (h : t.sessCfg = s.sessCfg) : limit t = limit s := by simp [limit, h]

/-- CancelCheck's three answers. -/
theorem cancelKind_cases (b : Byte) (seen : Bool) :
    (b = CAN ∧ seen = true ∧ cancelKind b seen = .peerCancel) ∨
      (b = CAN ∧ seen = false ∧ cancelKind b seen = .firstCan) ∨ (b ≠ CAN ∧ cancelKind b seen = .other) := by
  by_cases h : b = CAN
  · subst h
    cases seen <;> simp [cancelKind]
  · exact Or.inr (Or.inr ⟨h, by simp [cancelKind, h]⟩)

/-! ## Link primitives -/

/-- rx(b): the read gathers the byte and goes on, or returns. -/
theorem onRx_cases (b : Byte) (s : State) :
    (s.hid.rk + 1 = s.hid.rn ∧ onRx b s = readDone (gather b s) b) ∨
      (s.hid.rk + 1 ≠ s.hid.rn ∧ onRx b s = .next (gather b s)) := by
  by_cases h : s.hid.rk + 1 = s.hid.rn
  · exact Or.inl ⟨h, by simp [onRx, h]⟩
  · exact Or.inr ⟨h, by simp [onRx, h]⟩

/-- txtake: the next byte leaves, and the write goes on or returns; with no byte to present, a fault. -/
theorem onTake_cases (s : State) :
    (s.hid.ws[s.hid.wj]? = none ∧ onTake s = .fault .nothingToPresent) ∨
      ∃ b, s.hid.ws[s.hid.wj]? = some b ∧
        ((s.hid.wj + 1 = s.hid.ws.length ∧ onTake s = .next (writeDone (sendByte b s))) ∨
          (s.hid.wj + 1 ≠ s.hid.ws.length ∧ onTake s = .next (sendByte b s))) := by
  cases h : s.hid.ws[s.hid.wj]? with
  | none => exact Or.inl ⟨rfl, by simp [onTake, h]⟩
  | some b =>
    refine Or.inr ⟨b, rfl, ?_⟩
    by_cases h2 : s.hid.wj + 1 = s.hid.ws.length
    · exact Or.inl ⟨h2, by simp [onTake, h, h2]⟩
    · exact Or.inr ⟨h2, by simp [onTake, h, h2]⟩

/-- tick: the waiting primitive times out or counts down; at any other time nothing happens. -/
theorem onTick_cases (s : State) :
    (s.hid.pt.isRead = true ∧ s.hid.tmr.toNat ≤ 1 ∧ onTick s = readTimeout s) ∨
      (s.hid.pt.isWrite = true ∧ s.hid.tmr.toNat ≤ 1 ∧ onTick s = writeDone (setTxto s)) ∨
      ((s.hid.pt.isRead = true ∨ s.hid.pt.isWrite = true) ∧ 1 < s.hid.tmr.toNat ∧ onTick s = countTick s) ∨
      (s.hid.pt.isRead = false ∧ s.hid.pt.isWrite = false ∧ onTick s = s) := by
  by_cases ht : s.hid.tmr.toNat ≤ 1 <;> cases hp : s.hid.pt <;>
    simp [onTick, hp, ht, Point.isRead, Point.isWrite] <;> omega

/-- A point is at most one of: a read, a write. -/
theorem Point.not_read_and_write (pt : Point) : ¬(pt.isRead = true ∧ pt.isWrite = true) := by
  cases pt <;> simp [Point.isRead, Point.isWrite]

/-- A point that is neither a read nor a write is idle. -/
theorem Point.idle_of_not_read_write {pt : Point} (h1 : pt.isRead = false) (h2 : pt.isWrite = false) : pt = .idle := by
  cases pt <;> simp_all [Point.isRead, Point.isWrite]

/-- A purge read that timed out: the NAK goes out, or, only where a byte was discarded since the purge's start or the last tick,
the purge reads on afresh. -/
theorem purgeTimeout_cases (s : State) :
    (s.purgeHeard = false ∧ purgeTimeout s = sendNak s) ∨
      (s.purgeHeard = true ∧ (purgeTimeout s = sendNak (drawPurge s) ∨ purgeTimeout s = startPurge (drawPurge s))) := by
  cases hh : s.purgeHeard with
  | false => exact Or.inl ⟨rfl, by simp [purgeTimeout, hh]⟩
  | true =>
    refine Or.inr ⟨rfl, ?_⟩
    cases hd : Config.purgeEnds s.unit s.purgeDraw with
    | true => exact Or.inl (by simp [purgeTimeout, hh, hd])
    | false => exact Or.inr (by simp [purgeTimeout, hh, hd])

/-! ## The host port -/

/-- A write of a command word: dropped while busy, else accepted. -/
theorem submit_cases (v : Word) (s : State) :
    (s.status.busy = true ∧ submit v s = .next (overrun s)) ∨
      (s.status.busy = false ∧
        ((∃ op, decode v = .error (.reservedOp op) ∧
            submit v s = .next (complete .badCmd (accept (fieldB v) (fieldH v) s))) ∨
          ∃ i, decode v = .ok i ∧ submit v s = exec i (accept (fieldB v) (fieldH v) s))) := by
  cases hb : s.status.busy with
  | true => exact Or.inl ⟨rfl, by simp [submit, hb]⟩
  | false =>
    refine Or.inr ⟨rfl, ?_⟩
    cases hd : decode v with
    | ok i => exact Or.inr ⟨i, rfl, by simp [submit, acceptWord, hb, hd]⟩
    | error e =>
      cases e with
      | reservedOp op => exact Or.inl ⟨op, rfl, by simp [submit, acceptWord, hb, hd]⟩

/-- A write performed only while idle. -/
theorem whenIdle_cases (f : State → State) (s : State) :
    (s.status.busy = true ∧ whenIdle f s = s) ∨ (s.status.busy = false ∧ whenIdle f s = f s) := by
  cases hb : s.status.busy <;> simp [whenIdle, hb]

end Sys2Proof.Machine
end

