-- ==== Sys2Proof/Laws/Framing.lean ====
section
/-! SUPPORT. The operand checks, the framing functions' lengths, and which register an access reaches: one lemma per function. -/

namespace Sys2Proof.Machine

/-! ## Operand forms -/

/-- packetSize is 128, 1024 or rejected. -/
theorem sizeOperand_cases (size : Half) :
    (size = 128#16 ∧ sizeOperand size = some .classic) ∨ (size = 1024#16 ∧ sizeOperand size = some .extended) ∨
      (size ≠ 128#16 ∧ size ≠ 1024#16 ∧ sizeOperand size = none) := by
  by_cases h : size = 128#16
  · exact Or.inl ⟨h, by simp [sizeOperand, h]⟩
  · by_cases h2 : size = 1024#16
    · exact Or.inr (Or.inl ⟨h2, by simp [sizeOperand, h2]⟩)
    · exact Or.inr (Or.inr ⟨h, h2, by simp [sizeOperand, h, h2]⟩)

/-- A size operand's value is P. -/
theorem sizeOperand_bytes {size : Half} {p : BlockSize} (h : sizeOperand size = some p) : size.toNat = p.bytes := by
  rcases sizeOperand_cases size with ⟨h1, h2⟩ | ⟨h1, h2⟩ | ⟨_, _, h2⟩ <;> rw [h2] at h <;> cases h <;> rw [h1] <;> rfl

/-- A session's mode is 0 or 1. -/
theorem modeLegal_iff (m : BitVec 2) : modeLegal m = true ↔ m = 0#2 ∨ m = 1#2 := by simp [modeLegal]

/-- TXLEN is in 1..P. -/
theorem txLenLegal_iff (len : BitVec 11) (p : BlockSize) :
    txLenLegal len p = true ↔ 1 ≤ len.toNat ∧ len.toNat ≤ p.bytes := by simp [txLenLegal]

/-- The count is at most 1024. -/
theorem feedCountLegal_iff (n : Half) : feedCountLegal n = true ↔ n.toNat ≤ 1024 := by simp [feedCountLegal]

/-- A start byte is SOH or STX. -/
theorem sizeOfStart_cases (b : Byte) :
    (b = SOH ∧ sizeOfStart b = some .classic) ∨ (b = STX ∧ sizeOfStart b = some .extended) ∨
      (b ≠ SOH ∧ b ≠ STX ∧ sizeOfStart b = none) := by
  by_cases h : b = SOH
  · exact Or.inl ⟨h, by simp [sizeOfStart, h]⟩
  · by_cases h2 : b = STX
    · exact Or.inr (Or.inl ⟨h2, by simp [sizeOfStart, h2, STX, SOH]⟩)
    · exact Or.inr (Or.inr ⟨h, h2, by simp [sizeOfStart, h, h2]⟩)

/-- A block size's start byte announces it. -/
@[simp] theorem sizeOfStart_start (p : BlockSize) : sizeOfStart p.start = some p := by cases p <;> rfl

/-! ## Sizes -/

/-- A payload is at least one byte and at most the buffer. -/
theorem BlockSize.bytes_bounds (p : BlockSize) : 1 ≤ p.bytes ∧ p.bytes ≤ 1024 := by cases p <;> simp [BlockSize.bytes]

/-- A trailer is one or two bytes. -/
theorem TrailerLen.bytes_bounds (t : TrailerLen) : 1 ≤ t.bytes ∧ t.bytes ≤ 2 := by cases t <;> simp [TrailerLen.bytes]

@[simp] theorem header_length (p : BlockSize) (q : Byte) : (header p q).length = 3 := rfl

theorem pad_length {chunk : List Byte} {p : BlockSize} (c : Byte) (h : chunk.length ≤ p.bytes) :
    (pad chunk p c).length = p.bytes := by
  simp only [pad, List.length_append, List.length_replicate]
  omega

@[simp] theorem trailer_length (u : Bool) (payload : List Byte) : (trailer u payload).length = (trailerLen u).bytes := by
  cases u <;> rfl

/-! ## The accumulators over a sequence -/

@[simp] theorem crc16_nil (c : Half) : crc16 [] c = c := rfl
@[simp] theorem crc16_cons (b : Byte) (d : List Byte) (c : Half) : crc16 (b :: d) c = crc16 d (crcStep c b) := rfl
@[simp] theorem checksum_nil (a : Byte) : checksum [] a = a := rfl
@[simp] theorem checksum_cons (b : Byte) (d : List Byte) (a : Byte) : checksum (b :: d) a = checksum d (sumStep a b) := rfl

/-! ## The register an access reaches -/

/-- An access reaches a register only if it is 32 bits wide and aligned, and then the one at its offset. -/
theorem target_eq_some {width : Nat} {off : Byte} {r : Reg} (h : target width off = some r) :
    width = 32 ∧ off.extractLsb' 0 2 = 0#2 ∧ regAt off = some r := by
  unfold target at h
  split at h
  · rename_i hw; exact ⟨hw.1, hw.2, h⟩
  · cases h

/-- CMD sits at one offset. -/
theorem regAt_cmd {off : Byte} (h : regAt off = some .cmd) : off = 0x0C#8 := by
  unfold regAt at h
  split at h <;> simp_all

/-- BUFDATA sits at one offset. -/
theorem regAt_bufData {off : Byte} (h : regAt off = some .bufData) : off = 0x50#8 := by
  unfold regAt at h
  split at h <;> simp_all

/-- SEQ sits at one offset. -/
theorem regAt_seq {off : Byte} (h : regAt off = some .seq) : off = 0x1C#8 := by
  unfold regAt at h
  split at h <;> simp_all

end Sys2Proof.Machine
end

