-- ==== Sys2Proof/Laws/HostProgram.lean ====
section
/-! SUPPORT. What the whole-transfer hosts do (spec/43_sender.md R359; spec/44_receiver.md R413). -/

namespace Sys2Proof.Machine

/-- A chunk that is sent has 1 to P bytes, and with what is left it is the data that was to send. -/
theorem nextChunk_cases (p : BlockSize) (rest : List Byte) :
    (rest = [] ∧ nextChunk p rest = (.ending, [.cmd .txEot, .wait], [])) ∨
      ∃ chunk left, rest = chunk ++ left ∧ 1 ≤ chunk.length ∧ chunk.length ≤ p.bytes ∧ (left ≠ [] → chunk.length = p.bytes) ∧
        nextChunk p rest = (.streaming p, sendChunk chunk, left) := by
  by_cases h : rest = []
  · exact Or.inl ⟨h, by simp [nextChunk, h]⟩
  · refine Or.inr ⟨rest.take p.bytes, rest.drop p.bytes, (List.take_append_drop _ _).symm, ?_, ?_, ?_, by simp [nextChunk, h]⟩
    · have := List.length_pos_iff.mpr h
      rw [List.length_take]
      cases p <;> simp [BlockSize.bytes] <;> omega
    · rw [List.length_take]; omega
    · intro hl
      have : p.bytes < rest.length := by simpa using hl
      rw [List.length_take]; omega

/-- Everything a sender's host can decide: fail, send the next chunk or EOT, or stand where it ended. -/
theorem senderHost_cases (ctrl : Word) (stage : SendStage) (result : ResultCode) (rest : List Byte) :
    senderHost ctrl stage result rest = (.failed, [], rest) ∨
      (stage = .negotiating ∧ result = .negotiated ∧
        senderHost ctrl stage result rest = nextChunk (hostSize ctrl) rest) ∨
      (∃ p, stage = .streaming p ∧ result = .acked ∧ senderHost ctrl stage result rest = nextChunk p rest) ∨
      ((stage = .ending ∧ result = .succeeded ∨ stage = .finished) ∧
        senderHost ctrl stage result rest = (.finished, [], rest)) := by
  cases stage <;> simp only [senderHost]
  case negotiating => by_cases h : result = .negotiated <;> simp [h]
  case streaming p => by_cases h : result = .acked <;> simp [h]
  case ending => by_cases h : result = .succeeded <;> simp [h]
  case finished => simp
  case failed => simp

/-- The low field of a word packed from the top down. -/
theorem extract_low {w : Nat} (x : BitVec w) (m : BitVec 2) : (x ++ m).extractLsb' 0 2 = m := by
  apply BitVec.eq_of_getLsbD_eq
  intro i hi
  simp [BitVec.getLsbD_append, hi]

/-- The size the host computes from CTRL is the one TX.BLK uses once a session open has latched that CTRL. -/
theorem hostSize_ctrl (s : State) : hostSize (regValue .ctrl s) = txSize (sessionOpen s).sessCfg := by
  have h : s.ctrl.word.extractLsb' 0 2 = s.ctrl.mode := extract_low _ _
  show (if s.ctrl.word.extractLsb' 0 2 = 0#2 then _ else _) = _
  rw [h]
  rfl

end Sys2Proof.Machine
end

