-- ==== Sys2Proof/Laws/Unit.lean ====
section
/-! SUPPORT. No event changes which instance a State is (spec/60_exceptions.md R524; log entry 13). -/

namespace Sys2Proof.Machine

/-! ## Shared operations -/

@[simp] theorem readOne_unit (pt : Point) (s : State) : (readOne pt s).unit = s.unit := rfl
@[simp] theorem abortWithCancel_unit (code : ResultCode) (s : State) : (abortWithCancel code s).unit = s.unit := rfl
@[simp] theorem finishAbort_unit (code : ResultCode) (s : State) : (finishAbort code s).unit = s.unit := rfl
@[simp] theorem endPeerCancel_unit (s : State) : (endPeerCancel s).unit = s.unit := rfl

/-- A failure keeps the instance if the retry does. -/
theorem failThen_unit {code : ResultCode} {retry : State → State} {s : State} (h : ∀ s, (retry s).unit = s.unit) :
    (failThen code retry s).unit = s.unit := by
  unfold failThen
  split <;> simp [h]

/-! ## The continuations of the blocking points -/

theorem txBlkFailed_unit (s : State) : (txBlkFailed s).unit = s.unit := by
  unfold txBlkFailed; split <;> rfl

theorem txEotFailed_unit (s : State) : (txEotFailed s).unit = s.unit := failThen_unit fun _ => rfl

theorem failPurge_unit (s : State) : (failPurge s).unit = s.unit := failThen_unit fun _ => rfl

theorem purgeTimeout_unit (s : State) : (purgeTimeout s).unit = s.unit := by
  unfold purgeTimeout; split <;> [split; skip] <;> rfl

theorem txNegByte_unit (b : Byte) (s : State) : (txNegByte b s).unit = s.unit := by
  unfold txNegByte
  repeat' split
  all_goals first
    | rfl
    | exact (failThen_unit (retry := readOne .txnRd) fun _ => rfl).trans rfl

theorem txBlkByte_unit (b : Byte) (s : State) : (txBlkByte b s).unit = s.unit := by
  unfold txBlkByte
  repeat' split
  all_goals first
    | rfl
    | exact (txBlkFailed_unit _).trans rfl

theorem txEotByte_unit (b : Byte) (s : State) : (txEotByte b s).unit = s.unit := by
  unfold txEotByte
  repeat' split
  all_goals first
    | rfl
    | exact (txEotFailed_unit _).trans rfl

theorem rxNegByte_unit (b : Byte) (s : State) : (rxNegByte b s).unit = s.unit := by
  unfold rxNegByte
  repeat' split
  all_goals first
    | rfl
    | exact (failThen_unit (retry := sendProbe) fun _ => rfl).trans rfl

theorem rxStartByte_unit (b : Byte) (s : State) : (rxStartByte b s).unit = s.unit := by
  unfold rxStartByte
  repeat' split
  all_goals first
    | rfl
    | exact (failPurge_unit _).trans rfl

theorem rxCompByte_unit (b : Byte) (s : State) : (rxCompByte b s).unit = s.unit := by
  unfold rxCompByte; split <;> rfl

theorem rxDataComplete_unit (d : List Byte) (s : State) : (rxDataComplete d s).unit = s.unit := by
  unfold rxDataComplete
  split
  · rfl
  · exact (failPurge_unit _).trans rfl

theorem readTimeout_unit (s : State) : (readTimeout s).unit = s.unit := by
  unfold readTimeout
  split
  all_goals first
    | rfl
    | exact failThen_unit fun _ => rfl
    | exact txBlkFailed_unit s
    | exact purgeTimeout_unit s

theorem writeDone_unit (s : State) : (writeDone s).unit = s.unit := by
  unfold writeDone; split <;> rfl

theorem readDone_unit {s t : State} {b : Byte} (h : readDone s b = .next t) : t.unit = s.unit := by
  unfold readDone at h
  split at h
  case h_8 =>
    split at h
    · injection h with h
      subst h; exact rxDataComplete_unit _ s
    · cases h
  all_goals injection h with h; subst h
  all_goals first
    | rfl
    | exact txNegByte_unit _ s
    | exact txBlkByte_unit _ s
    | exact txEotByte_unit _ s
    | exact rxNegByte_unit _ s
    | exact rxStartByte_unit _ s
    | exact rxCompByte_unit _ s
    | exact failPurge_unit s

/-! ## Commands, events and steps -/

/-- What a command answers is a next state of the same instance. -/
theorem next_unit {s u t : State} (hu : u.unit = s.unit) (h : (.next u : Host.Outcome State Fault Refusal) = .next t) :
    t.unit = s.unit := by
  injection h with h
  rw [← h, hu]

theorem sendFrame_unit (s : State) : (sendFrame s).unit = s.unit := rfl

theorem buildFrame_unit (s : State) : (buildFrame s).unit = s.unit := rfl

theorem exec_unit {i : Instr} {s t : State} (h : exec i s = .next t) : t.unit = s.unit := by
  cases i <;> simp only [exec] at h
  case engFeedbuf n => unfold execEngFeedbuf at h; exact next_unit (by split <;> rfl) h
  case frmHdr => unfold execFrmHdr at h; split at h <;> exact next_unit (by rfl) h
  case frmTrl => unfold execFrmTrl at h; split at h <;> exact next_unit (by rfl) h
  case frmChk => unfold execFrmChk at h; split at h <;> exact next_unit (by rfl) h
  case txNeg => unfold execTxNeg at h; split at h <;> exact next_unit (by rfl) h
  case txBlk =>
    unfold execTxBlk at h
    split at h
    · exact next_unit (complete_unit s _) h
    · split at h
      · exact next_unit (u := sendFrame (buildFrame (startCmd .txBlk s)))
          ((sendFrame_unit _).trans ((buildFrame_unit _).trans (startCmd_unit s _))) h
      · exact next_unit (complete_unit s _) h
  case txEot => unfold execTxEot at h; split at h <;> exact next_unit (by rfl) h
  case rxNeg => unfold execRxNeg at h; split at h <;> exact next_unit (by rfl) h
  case rxBlk => unfold execRxBlk at h; split at h <;> exact next_unit (by rfl) h
  case engClr => exact next_unit (u := complete .ok (clearEngine s)) rfl h
  case engLdcrc c => exact next_unit (u := complete .ok { s with crc := c }) rfl h
  case engLdsum c => exact next_unit (u := complete .ok { s with csum := c }) rfl h
  case engFeed b => exact next_unit (u := complete .ok (feedAll [b] s)) rfl h

theorem handle_unit {e : Event} {s t : State} (h : handle e s = .next t) : t.unit = s.unit := by
  cases e with
  | hostWr width off v =>
    simp only [handle, hostWrite] at h
    split at h
    · cases h; rfl
    · rename_i r _
      cases r <;> simp only [writeReg, submit, acceptWord, whenIdle] at h
      all_goals (repeat' split at h)
      all_goals first
        | (injection h with h; subst h; rfl)
        | exact (exec_unit h).trans rfl
  | hostRd width off =>
    cases h
    simp only [hostRead]
    split
    · rfl
    · rename_i r _
      cases r <;> simp only [readEffect, answerRead]
      all_goals first
        | rfl
        | (split <;> rfl)
  | rx b =>
    simp only [handle, onRx] at h
    split at h
    · exact (readDone_unit h).trans rfl
    · cases h; rfl
  | txtake =>
    simp only [handle, onTake] at h
    split at h
    · cases h
    · split at h <;> cases h
      · exact (writeDone_unit _).trans rfl
      · rfl
  | tick =>
    cases h
    simp only [onTick]
    repeat' split
    · exact readTimeout_unit s
    · rfl
    · exact (writeDone_unit _).trans rfl
    · rfl
    · rfl
  | reset => cases h; rfl

/-- A step keeps the instance's number. -/
theorem step_unit {s t : State} (h : step s = .next t) : t.unit = s.unit := by
  unfold step advance at h
  split at h
  · cases h; rfl
  · exact (handle_unit h).trans rfl

end Sys2Proof.Machine
end

