-- ==== Sys2Proof/Laws/Pair.lean ====
section
/-! SUPPORT. What one event of a pair of wired instances can do (spec/60_exceptions.md R524): the instances share no state, and
what one receives is what the other sent. -/

namespace Sys2Proof.Machine

/-- The side across the pipes. -/
def Side.other : Side → Side
  | .a => .b
  | .b => .a

@[simp] theorem Pair.inst_setInst (w : Pair) (side : Side) (s : State) : (w.setInst side s).inst side = s := by
  cases side <;> rfl

@[simp] theorem Pair.inst_other_setInst (w : Pair) (side : Side) (s : State) :
    (w.setInst side s).inst side.other = w.inst side.other := by
  cases side <;> rfl

@[simp] theorem Pair.inst_consume (w : Pair) (reader side : Side) : (w.consume reader).inst side = w.inst side := by
  cases reader <;> cases side <;> rfl

/-- An instance that steps goes where its own step leads, and the other instance is untouched. -/
theorem Pair.stepSide_next {side : Side} {e : Event} {w v : Pair} (h : w.stepSide side e = .next v) :
    ∃ s, stepWith e (w.inst side) = .next s ∧ v = w.setInst side s ∧ v.inst side.other = w.inst side.other := by
  unfold Pair.stepSide at h
  split at h
  · rename_i s hs
    cases h
    exact ⟨s, hs, rfl, by simp⟩
  · cases h
  · cases h

/-- Everything an event of the pair can do: nothing, an instance's own event, or the next byte of the other's trace received. -/
theorem Pair.move_cases {e : PairEvent} {w v : Pair} (h : w.move e = .next v) :
    v = w ∨ (∃ side o s, e = .own side o ∧ stepWith o.event (w.inst side) = .next s ∧ v = w.setInst side s) ∨
      ∃ side c s, e = .deliver side ∧ w.waiting side = some c ∧ (w.inst side).hid.pt.isRead = true ∧
        stepWith (.rx c) (w.inst side) = .next s ∧ v = (w.consume side).setInst side s := by
  cases e with
  | own side o =>
    obtain ⟨s, hs, hv, _⟩ := Pair.stepSide_next h
    exact Or.inr (Or.inl ⟨side, o, s, rfl, hs, hv⟩)
  | deliver side =>
    simp only [Pair.move] at h
    split at h
    · cases h; exact Or.inl rfl
    · rename_i c hc
      split at h
      · rename_i hr
        obtain ⟨s, hs, hv, _⟩ := Pair.stepSide_next h
        rw [Pair.inst_consume] at hs
        exact Or.inr (Or.inr ⟨side, c, s, rfl, hc, hr, hs, hv⟩)
      · cases h; exact Or.inl rfl

/-- An enabled event is the one the instance takes, whatever else waits for it. -/
theorem stepWith_of_enabled {e : Event} {s : State} (h : Event.enabled s.hid.pt e = true) : stepWith e s = handle e s := by
  unfold stepWith step advance
  rw [if_pos h, withInputs_inputs, withInputs_hid, takeInput_cons h]
  rfl

/-- An event that is not enabled does not happen. -/
theorem stepWith_of_not_enabled {e : Event} {s : State} (h : Event.enabled s.hid.pt e = false) : stepWith e s = .next s := by
  simp [stepWith, h]

/-! ## The two instances stay two -/

theorem stepWith_unit {e : Event} {s t : State} (h : stepWith e s = .next t) : t.unit = s.unit := by
  unfold stepWith at h
  split at h
  · exact (step_unit h).trans rfl
  · injection h with h
    rw [h]

/-- Replacing an instance by a later state of it keeps the two distinct. -/
theorem Pair.distinct_setInst {w : Pair} {side : Side} {s : State} (h : w.distinct) (hs : s.unit = (w.inst side).unit) :
    (w.setInst side s).distinct := by
  cases side
  · exact fun he => h (hs.symm.trans he)
  · exact fun he => h (he.trans hs)

theorem Pair.reset_distinct : Pair.reset.distinct := by decide

/-- No event of a pair makes its two instances one: each keeps its number, and with it its own free values and base address. -/
theorem Pair.move_distinct {e : PairEvent} {w v : Pair} (h : w.move e = .next v) (hw : w.distinct) : v.distinct := by
  rcases Pair.move_cases h with rfl | ⟨side, _, s, _, hs, rfl⟩ | ⟨side, _, s, _, _, _, hs, rfl⟩
  · exact hw
  · exact Pair.distinct_setInst hw (stepWith_unit hs)
  · refine Pair.distinct_setInst (by cases side <;> exact hw) ?_
    rw [stepWith_unit hs, Pair.inst_consume]

end Sys2Proof.Machine
end

