-- ==== Sys2Proof/Laws/PerInstr.lean ====
section
/-! SUPPORT. A statement made of every command, one lemma per constructor. -/

namespace Sys2Proof.Laws.OpcodeByte

/-- The low byte of a command's word is its opcode, and the word uses no bit outside the command's used bits
(30_encoding.md R153, R157). -/
def Statement (i : Instr) : Prop := fieldOp (encode i) = i.opcode ∧ encode i &&& i.usedBits = encode i

/-- The fields of a packed word. -/
theorem fieldOp_packWord (h : Half) (b op : Byte) : fieldOp (packWord h b op) = op := by
  apply BitVec.eq_of_getLsbD_eq
  intro i hi
  simp only [fieldOp, packWord, BitVec.getLsbD_extractLsb', BitVec.getLsbD_append]
  simp [hi]

/-- Masking a packed word masks its fields. -/
theorem packWord_and (h h' : Half) (b b' op op' : Byte) :
    packWord h b op &&& packWord h' b' op' = packWord (h &&& h') (b &&& b') (op &&& op') := by
  apply BitVec.eq_of_getLsbD_eq
  intro i hi
  simp only [packWord, BitVec.getLsbD_and, BitVec.getLsbD_append]
  repeat' split
  all_goals rfl

theorem engClr : Statement .engClr := ⟨fieldOp_packWord _ _ _, rfl⟩
theorem engLdcrc (h : Half) : Statement (.engLdcrc h) :=
  ⟨fieldOp_packWord _ _ _, by
    show packWord _ _ _ &&& packWord _ _ _ = packWord _ _ _
    rw [packWord_and, show h &&& 0xFFFF#16 = h from BitVec.and_allOnes]; rfl⟩
theorem engLdsum (b : Byte) : Statement (.engLdsum b) :=
  ⟨fieldOp_packWord _ _ _, by
    show packWord _ _ _ &&& packWord _ _ _ = packWord _ _ _
    rw [packWord_and, show b &&& 0xFF#8 = b from BitVec.and_allOnes]; rfl⟩
theorem engFeed (b : Byte) : Statement (.engFeed b) :=
  ⟨fieldOp_packWord _ _ _, by
    show packWord _ _ _ &&& packWord _ _ _ = packWord _ _ _
    rw [packWord_and, show b &&& 0xFF#8 = b from BitVec.and_allOnes]; rfl⟩
theorem engFeedbuf (n : Half) : Statement (.engFeedbuf n) :=
  ⟨fieldOp_packWord _ _ _, by
    show packWord _ _ _ &&& packWord _ _ _ = packWord _ _ _
    rw [packWord_and, show n &&& 0xFFFF#16 = n from BitVec.and_allOnes]; rfl⟩
theorem frmHdr (size : Half) (seq : Byte) : Statement (.frmHdr size seq) :=
  ⟨fieldOp_packWord _ _ _, by
    show packWord _ _ _ &&& packWord _ _ _ = packWord _ _ _
    rw [packWord_and, show size &&& 0xFFFF#16 = size from BitVec.and_allOnes,
      show seq &&& 0xFF#8 = seq from BitVec.and_allOnes]; rfl⟩
theorem frmTrl (size : Half) (u : Bool) : Statement (.frmTrl size u) :=
  ⟨fieldOp_packWord _ _ _, by
    show packWord _ _ _ &&& packWord _ _ _ = packWord _ _ _
    rw [packWord_and, show size &&& 0xFFFF#16 = size from BitVec.and_allOnes]; cases u <;> rfl⟩
theorem frmChk (size : Half) (u : Bool) : Statement (.frmChk size u) :=
  ⟨fieldOp_packWord _ _ _, by
    show packWord _ _ _ &&& packWord _ _ _ = packWord _ _ _
    rw [packWord_and, show size &&& 0xFFFF#16 = size from BitVec.and_allOnes]; cases u <;> rfl⟩
theorem txNeg : Statement .txNeg := ⟨fieldOp_packWord _ _ _, rfl⟩
theorem txBlk : Statement .txBlk := ⟨fieldOp_packWord _ _ _, rfl⟩
theorem txEot : Statement .txEot := ⟨fieldOp_packWord _ _ _, rfl⟩
theorem rxNeg : Statement .rxNeg := ⟨fieldOp_packWord _ _ _, rfl⟩
theorem rxBlk : Statement .rxBlk := ⟨fieldOp_packWord _ _ _, rfl⟩

end Sys2Proof.Laws.OpcodeByte
end

