-- ==== Sys2Proof/Tests/Slice0.lean ====
section
/-! SUPPORT. The model's own tests: an ill-formed term per well-formedness check, a word written out from spec/30_encoding.md for
every constructor, vectors of spec/95_test_vectors.md on one step each, and a witness for the hypotheses of every statement. -/

namespace Sys2Proof.Machine.Tests

/-- The next state of an outcome. -/
def nx : Host.Outcome State Fault Refusal → Option State
  | .next t => some t
  | .fault _ => none
  | .refused _ => none

/-- The state after the event `e`, put first. -/
def after (e : Event) (s : State) : Option State := nx (step (withInputs (e :: s.inputs) s))

/-- STATUS as the host reads it after the event. -/
def statusAfter (e : Event) (s : State) : Option Word := (after e s).map statusWord

/-- A host write of a command word to CMD (spec/10_state.md R31). -/
def cmdWr (w : Word) : Event := .hostWr 32 0x0C#8 w

/-! ## Well-formedness: one ill-formed term for each check of R152 -/

theorem test_feedbuf_count_ill_formed : (Instr.engFeedbuf 1025#16).wellFormed = false := by decide
theorem test_feedbuf_count_well_formed : (Instr.engFeedbuf 1024#16).wellFormed = true := by decide
theorem test_frmHdr_size_ill_formed : (Instr.frmHdr 256#16 0#8).wellFormed = false := by decide
theorem test_frmTrl_size_ill_formed : (Instr.frmTrl 64#16 true).wellFormed = false := by decide
theorem test_frmChk_size_ill_formed : (Instr.frmChk 64#16 false).wellFormed = false := by decide
theorem test_frm_sizes_well_formed :
    (Instr.frmHdr 128#16 0x18#8).wellFormed = true ∧ (Instr.frmTrl 1024#16 true).wellFormed = true ∧
      (Instr.frmChk 128#16 false).wellFormed = true := by decide

/-! ## Decoding: words of 30_encoding.md R153, R157 and 95_test_vectors.md, bit by bit -/

/-- ENG.CLR, 0x00000001 (R157). -/
theorem test_decode_engClr : decode 0b00000000000000000000000000000001#32 = .ok .engClr := by decide
/-- ENG.LDCRC 0x1234, 0x12340002 (R157). -/
theorem test_decode_engLdcrc : decode 0b00010010001101000000000000000010#32 = .ok (.engLdcrc 0x1234#16) := by decide
/-- ENG.LDSUM 0xF0, 0x0000F003 (40_integrity.md R210). -/
theorem test_decode_engLdsum : decode 0b00000000000000001111000000000011#32 = .ok (.engLdsum 0xF0#8) := by decide
/-- ENG.FEED 0x41, 0x00004104 (R157). -/
theorem test_decode_engFeed : decode 0b00000000000000000100000100000100#32 = .ok (.engFeed 0x41#8) := by decide
/-- ENG.FEEDBUF 9, 0x00090005 (40_integrity.md R212). -/
theorem test_decode_engFeedbuf : decode 0b00000000000010010000000000000101#32 = .ok (.engFeedbuf 9#16) := by decide
/-- FRM.HDR 1024, 0xFF, 0x0400FF10 (R157). -/
theorem test_decode_frmHdr : decode 0b00000100000000001111111100010000#32 = .ok (.frmHdr 1024#16 0xFF#8) := by decide
/-- FRM.TRL 128, 1, 0x00800111 (R157). -/
theorem test_decode_frmTrl : decode 0b00000000100000000000000100010001#32 = .ok (.frmTrl 128#16 true) := by decide
/-- FRM.CHK 128, 0, 0x00800012 (95_test_vectors.md F8), and with B[7:1] set, which are unused (R152). -/
theorem test_decode_frmChk :
    decode 0b00000000100000000000000000010010#32 = .ok (.frmChk 128#16 false) ∧
      decode 0b00000000100000001111111000010010#32 = .ok (.frmChk 128#16 false) := by decide
/-- TX.NEG, 0x00000020 (R157). -/
theorem test_decode_txNeg : decode 0b00000000000000000000000000100000#32 = .ok .txNeg := by decide
/-- TX.BLK, 0x00000021 (R157). -/
theorem test_decode_txBlk : decode 0b00000000000000000000000000100001#32 = .ok .txBlk := by decide
/-- TX.EOT, 0x00000022 (R157). -/
theorem test_decode_txEot : decode 0b00000000000000000000000000100010#32 = .ok .txEot := by decide
/-- RX.NEG, 0x00000028 (R157). -/
theorem test_decode_rxNeg : decode 0b00000000000000000000000000101000#32 = .ok .rxNeg := by decide
/-- RX.BLK, 0x00000029 (R157). -/
theorem test_decode_rxBlk : decode 0b00000000000000000000000000101001#32 = .ok .rxBlk := by decide
/-- The ends of the reserved ranges of R154. -/
theorem test_decode_reserved :
    ∀ op ∈ [0x00#8, 0x06#8, 0x0F#8, 0x13#8, 0x1F#8, 0x23#8, 0x27#8, 0x2A#8, 0xFF#8],
      decode (packWord 0xABCD#16 0xEF#8 op) = .error (.reservedOp op) := by decide
/-- The opcode table's number of a word, and the step that fetches it. -/
theorem test_decodeTableWord : decodeTableWord 32 0x00004104 = some (.engFeed 0x41#8) ∧ decodeTableWord 8 0x21 = some .txBlk := by
  decide
theorem test_withFetchWord_runs :
    (nx (step (State.reset.withFetchWord 32 0x00004104))).map (fun s => (s.crc, s.csum, s.inputs)) =
      some (0x58E5#16, 0x41#8, []) := by decide

/-! ## R203: the CRC table the spec writes out is the one R202 generates -/

/-- R203's table, entries 0x00 to 0x0f. -/
def crcRows00 : List Half :=
  [0x0000#16, 0x1021#16, 0x2042#16, 0x3063#16, 0x4084#16, 0x50A5#16, 0x60C6#16, 0x70E7#16,
    0x8108#16, 0x9129#16, 0xA14A#16, 0xB16B#16, 0xC18C#16, 0xD1AD#16, 0xE1CE#16, 0xF1EF#16]

/-- R203's table, entries 0x10 to 0x1f. -/
def crcRows01 : List Half :=
  [0x1231#16, 0x0210#16, 0x3273#16, 0x2252#16, 0x52B5#16, 0x4294#16, 0x72F7#16, 0x62D6#16,
    0x9339#16, 0x8318#16, 0xB37B#16, 0xA35A#16, 0xD3BD#16, 0xC39C#16, 0xF3FF#16, 0xE3DE#16]

/-- R203's table, entries 0x20 to 0x2f. -/
def crcRows02 : List Half :=
  [0x2462#16, 0x3443#16, 0x0420#16, 0x1401#16, 0x64E6#16, 0x74C7#16, 0x44A4#16, 0x5485#16,
    0xA56A#16, 0xB54B#16, 0x8528#16, 0x9509#16, 0xE5EE#16, 0xF5CF#16, 0xC5AC#16, 0xD58D#16]

/-- R203's table, entries 0x30 to 0x3f. -/
def crcRows03 : List Half :=
  [0x3653#16, 0x2672#16, 0x1611#16, 0x0630#16, 0x76D7#16, 0x66F6#16, 0x5695#16, 0x46B4#16,
    0xB75B#16, 0xA77A#16, 0x9719#16, 0x8738#16, 0xF7DF#16, 0xE7FE#16, 0xD79D#16, 0xC7BC#16]

theorem test_crcRows00 : (List.range 16).map (fun i => crct (BitVec.ofNat 8 (0 + i))) = crcRows00 := by decide

theorem test_crcRows01 : (List.range 16).map (fun i => crct (BitVec.ofNat 8 (16 + i))) = crcRows01 := by decide

theorem test_crcRows02 : (List.range 16).map (fun i => crct (BitVec.ofNat 8 (32 + i))) = crcRows02 := by decide

theorem test_crcRows03 : (List.range 16).map (fun i => crct (BitVec.ofNat 8 (48 + i))) = crcRows03 := by decide

/-- R203's table, entries 0x40 to 0x4f. -/
def crcRows10 : List Half :=
  [0x48C4#16, 0x58E5#16, 0x6886#16, 0x78A7#16, 0x0840#16, 0x1861#16, 0x2802#16, 0x3823#16,
    0xC9CC#16, 0xD9ED#16, 0xE98E#16, 0xF9AF#16, 0x8948#16, 0x9969#16, 0xA90A#16, 0xB92B#16]

/-- R203's table, entries 0x50 to 0x5f. -/
def crcRows11 : List Half :=
  [0x5AF5#16, 0x4AD4#16, 0x7AB7#16, 0x6A96#16, 0x1A71#16, 0x0A50#16, 0x3A33#16, 0x2A12#16,
    0xDBFD#16, 0xCBDC#16, 0xFBBF#16, 0xEB9E#16, 0x9B79#16, 0x8B58#16, 0xBB3B#16, 0xAB1A#16]

/-- R203's table, entries 0x60 to 0x6f. -/
def crcRows12 : List Half :=
  [0x6CA6#16, 0x7C87#16, 0x4CE4#16, 0x5CC5#16, 0x2C22#16, 0x3C03#16, 0x0C60#16, 0x1C41#16,
    0xEDAE#16, 0xFD8F#16, 0xCDEC#16, 0xDDCD#16, 0xAD2A#16, 0xBD0B#16, 0x8D68#16, 0x9D49#16]

/-- R203's table, entries 0x70 to 0x7f. -/
def crcRows13 : List Half :=
  [0x7E97#16, 0x6EB6#16, 0x5ED5#16, 0x4EF4#16, 0x3E13#16, 0x2E32#16, 0x1E51#16, 0x0E70#16,
    0xFF9F#16, 0xEFBE#16, 0xDFDD#16, 0xCFFC#16, 0xBF1B#16, 0xAF3A#16, 0x9F59#16, 0x8F78#16]

theorem test_crcRows10 : (List.range 16).map (fun i => crct (BitVec.ofNat 8 (64 + i))) = crcRows10 := by decide

theorem test_crcRows11 : (List.range 16).map (fun i => crct (BitVec.ofNat 8 (80 + i))) = crcRows11 := by decide

theorem test_crcRows12 : (List.range 16).map (fun i => crct (BitVec.ofNat 8 (96 + i))) = crcRows12 := by decide

theorem test_crcRows13 : (List.range 16).map (fun i => crct (BitVec.ofNat 8 (112 + i))) = crcRows13 := by decide

/-- R203's table, entries 0x80 to 0x8f. -/
def crcRows20 : List Half :=
  [0x9188#16, 0x81A9#16, 0xB1CA#16, 0xA1EB#16, 0xD10C#16, 0xC12D#16, 0xF14E#16, 0xE16F#16,
    0x1080#16, 0x00A1#16, 0x30C2#16, 0x20E3#16, 0x5004#16, 0x4025#16, 0x7046#16, 0x6067#16]

/-- R203's table, entries 0x90 to 0x9f. -/
def crcRows21 : List Half :=
  [0x83B9#16, 0x9398#16, 0xA3FB#16, 0xB3DA#16, 0xC33D#16, 0xD31C#16, 0xE37F#16, 0xF35E#16,
    0x02B1#16, 0x1290#16, 0x22F3#16, 0x32D2#16, 0x4235#16, 0x5214#16, 0x6277#16, 0x7256#16]

/-- R203's table, entries 0xa0 to 0xaf. -/
def crcRows22 : List Half :=
  [0xB5EA#16, 0xA5CB#16, 0x95A8#16, 0x8589#16, 0xF56E#16, 0xE54F#16, 0xD52C#16, 0xC50D#16,
    0x34E2#16, 0x24C3#16, 0x14A0#16, 0x0481#16, 0x7466#16, 0x6447#16, 0x5424#16, 0x4405#16]

/-- R203's table, entries 0xb0 to 0xbf. -/
def crcRows23 : List Half :=
  [0xA7DB#16, 0xB7FA#16, 0x8799#16, 0x97B8#16, 0xE75F#16, 0xF77E#16, 0xC71D#16, 0xD73C#16,
    0x26D3#16, 0x36F2#16, 0x0691#16, 0x16B0#16, 0x6657#16, 0x7676#16, 0x4615#16, 0x5634#16]

theorem test_crcRows20 : (List.range 16).map (fun i => crct (BitVec.ofNat 8 (128 + i))) = crcRows20 := by decide

theorem test_crcRows21 : (List.range 16).map (fun i => crct (BitVec.ofNat 8 (144 + i))) = crcRows21 := by decide

theorem test_crcRows22 : (List.range 16).map (fun i => crct (BitVec.ofNat 8 (160 + i))) = crcRows22 := by decide

theorem test_crcRows23 : (List.range 16).map (fun i => crct (BitVec.ofNat 8 (176 + i))) = crcRows23 := by decide

/-- R203's table, entries 0xc0 to 0xcf. -/
def crcRows30 : List Half :=
  [0xD94C#16, 0xC96D#16, 0xF90E#16, 0xE92F#16, 0x99C8#16, 0x89E9#16, 0xB98A#16, 0xA9AB#16,
    0x5844#16, 0x4865#16, 0x7806#16, 0x6827#16, 0x18C0#16, 0x08E1#16, 0x3882#16, 0x28A3#16]

/-- R203's table, entries 0xd0 to 0xdf. -/
def crcRows31 : List Half :=
  [0xCB7D#16, 0xDB5C#16, 0xEB3F#16, 0xFB1E#16, 0x8BF9#16, 0x9BD8#16, 0xABBB#16, 0xBB9A#16,
    0x4A75#16, 0x5A54#16, 0x6A37#16, 0x7A16#16, 0x0AF1#16, 0x1AD0#16, 0x2AB3#16, 0x3A92#16]

/-- R203's table, entries 0xe0 to 0xef. -/
def crcRows32 : List Half :=
  [0xFD2E#16, 0xED0F#16, 0xDD6C#16, 0xCD4D#16, 0xBDAA#16, 0xAD8B#16, 0x9DE8#16, 0x8DC9#16,
    0x7C26#16, 0x6C07#16, 0x5C64#16, 0x4C45#16, 0x3CA2#16, 0x2C83#16, 0x1CE0#16, 0x0CC1#16]

/-- R203's table, entries 0xf0 to 0xff. -/
def crcRows33 : List Half :=
  [0xEF1F#16, 0xFF3E#16, 0xCF5D#16, 0xDF7C#16, 0xAF9B#16, 0xBFBA#16, 0x8FD9#16, 0x9FF8#16,
    0x6E17#16, 0x7E36#16, 0x4E55#16, 0x5E74#16, 0x2E93#16, 0x3EB2#16, 0x0ED1#16, 0x1EF0#16]

theorem test_crcRows30 : (List.range 16).map (fun i => crct (BitVec.ofNat 8 (192 + i))) = crcRows30 := by decide

theorem test_crcRows31 : (List.range 16).map (fun i => crct (BitVec.ofNat 8 (208 + i))) = crcRows31 := by decide

theorem test_crcRows32 : (List.range 16).map (fun i => crct (BitVec.ofNat 8 (224 + i))) = crcRows32 := by decide

theorem test_crcRows33 : (List.range 16).map (fun i => crct (BitVec.ofNat 8 (240 + i))) = crcRows33 := by decide

/-! ## Vectors of 95_test_vectors.md, one step each -/

/-- V11: single steps of the CRC. -/
theorem test_V11_crcStep :
    crcStep 0x1234#16 0x56#8 = 0x3C40#16 ∧ crcStep 0xFFFF#16 0x00#8 = 0xE1F0#16 ∧ crcStep 0xFFFF#16 0xFF#8 = 0xFF00#16 ∧
      crcStep 0x0000#16 0x80#8 = 0x9188#16 ∧ crcStep 0x8000#16 0x00#8 = 0x9188#16 := by decide
/-- V1: the bytes "123456789". -/
theorem test_V1_check_value :
    crc16 [0x31#8, 0x32#8, 0x33#8, 0x34#8, 0x35#8, 0x36#8, 0x37#8, 0x38#8, 0x39#8] 0#16 = 0x31C3#16 ∧
      checksum [0x31#8, 0x32#8, 0x33#8, 0x34#8, 0x35#8, 0x36#8, 0x37#8, 0x38#8, 0x39#8] 0#8 = 0xDD#8 := by decide +kernel

/-- The buffer holding "ABC", padded as TX.BLK would pad it. -/
def abc : State := { State.reset with buf := [(0, 0x41#8), (1, 0x42#8), (2, 0x43#8)] }

/-- A buffer whose first 128 bytes are 0 (V4a). -/
def zeros : State := { State.reset with buf := (List.range 128).map fun i => (i, 0#8) }

/-- R208's example. -/
theorem test_engClr :
    (after (cmdWr 0x00000001#32) { State.reset with crc := 0x31C3#16, csum := 0xDD#8 }).map
      (fun s => (s.crc, s.csum, statusWord s)) = some (0x0000#16, 0x00#8, 0x00001002#32) := by decide
/-- R209's example. -/
theorem test_engLdcrc :
    (after (cmdWr 0x12340002#32) { State.reset with csum := 7#8 }).map (fun s => (s.crc, s.csum)) =
      some (0x1234#16, 7#8) := by decide
/-- V10: the prior checksum 0xF0, CRC unchanged. -/
theorem test_engLdsum :
    (after (cmdWr 0x0000F003#32) { State.reset with crc := 7#16 }).map (fun s => (s.crc, s.csum)) =
      some (7#16, 0xF0#8) := by decide
/-- V6, and V12's wrap. -/
theorem test_engFeed :
    (after (cmdWr 0x00004104#32) State.reset).map (fun s => (s.crc, s.csum)) = some (0x58E5#16, 0x41#8) ∧
      (after (cmdWr 0x00000204#32) { State.reset with csum := 0xFF#8 }).map (·.csum) = some 0x01#8 := by decide
/-- V10: "ABC" fed from the priors 0x1234 and 0xF0; the run starts at Buf[0] whatever BUFADDR is (R212). -/
theorem test_engFeedbuf :
    (after (cmdWr 0x00030005#32) { abc with crc := 0x1234#16, csum := 0xF0#8, bufAddr := 2#10 }).map
      (fun s => (s.crc, s.csum, s.bufAddr)) = some (0xDDC6#16, 0xB6#8, 2#10) := by decide +kernel
/-- A7: ENG.FEEDBUF of 1025 bytes. -/
theorem test_engFeedbuf_bad_length :
    (after (cmdWr 0x04010005#32) { State.reset with crc := 5#16 }).map (fun s => (s.crc, statusWord s)) =
      some (5#16, 0x0000D002#32) := by decide
/-- F1 and F3: HDR. -/
theorem test_frmHdr :
    (after (cmdWr 0x0400FF10#32) State.reset).map (·.hdr) = some 0x02FF00#24 ∧
      (after (cmdWr 0x00801810#32) State.reset).map (·.hdr) = some 0x0118E7#24 := by decide
/-- F4: a size of 256 leaves HDR alone and reports INVALID_MODE. -/
theorem test_frmHdr_invalid :
    (after (cmdWr 0x01000010#32) { State.reset with hdr := 0x0118E7#24 }).map (fun s => (s.hdr, statusWord s)) =
      some (0x0118E7#24, 0x0000B002#32) := by decide
/-- V4a through FRM.TRL: 128 zero bytes have CRC 0 and checksum 0. -/
theorem test_frmTrl :
    (after (cmdWr 0x00800111#32) { zeros with trl := 9#16, crc := 9#16, csum := 9#8 }).map
      (fun s => (s.trl, s.crc, s.csum)) = some (0#16, 0#16, 0#8) := by decide +kernel
/-- The mechanism of F8 on V4a's bytes: in checksum mode TRL[15:8] is ignored. -/
theorem test_frmChk :
    (after (cmdWr 0x00800012#32) { zeros with trl := 0xFF00#16 }).map (·.status.valid) = some true ∧
      (after (cmdWr 0x00800112#32) { zeros with trl := 0xFF00#16 }).map (·.status.valid) = some false := by decide +kernel
/-- F9: a size of 64 leaves VALID alone. -/
theorem test_frmChk_invalid :
    (after (cmdWr 0x00400012#32) { State.reset with status := { Status.reset with valid := true } }).map
      (fun s => (s.status.valid, s.status.result)) = some (true, .invalidMode) := by decide
/-- A1, A3, A4, A5: reserved and out of phase. -/
theorem test_bad_commands :
    [0x00000000#32, 0x000000FF#32, 0x00000021#32, 0x00000022#32, 0x00000029#32].map
        (fun w => statusAfter (cmdWr w) State.reset) = List.replicate 5 (some 0x0000C002#32) := by decide +kernel
/-- A8, A9: MODE 2 opens no session. -/
theorem test_mode_two :
    [0x00000020#32, 0x00000028#32].map
        (fun w => (after (cmdWr w) { State.reset with ctrl := Ctrl.ofWord 0x00101A06#32 }).map fun s =>
          (statusWord s, s.sessCfg.word)) =
      List.replicate 2 (some (0x0000B002#32, 0x00101A04#32)) := by decide +kernel
/-- A10: TX.NEG waits at S_TXN_RD. -/
theorem test_txNeg : statusAfter (cmdWr 0x00000020#32) State.reset = some 0x00100001#32 := by decide
/-- R401's example, first event: the probe is 'C' and STATE is S_RXN_WR. -/
theorem test_rxNeg :
    (after (cmdWr 0x00000028#32) State.reset).map (fun s => (s.hid.ws, statusWord s)) =
      some ([0x43#8], 0x00200001#32) := by decide

/-- A running command at a blocking point, about to receive the first byte of a one-byte read. -/
def running (pt : Point) (ph : Phase) (c : LinkCmd) : State :=
  { State.reset with
    status := { Status.reset with busy := true, phase := ph }
    hid := { Hidden.reset with pt := pt, cmd := some c, rn := 1, tmr := 1#16, lastProbe := 0x43#8 } }

/-- A running command at a write point, with what it sends. -/
def writing (pt : Point) (ph : Phase) (c : LinkCmd) (ws : List Byte) : State :=
  { running pt ph c with hid := { (running pt ph c).hid with ws := ws } }

/-- An idle block in a phase. -/
def inPhase (ph : Phase) : State := { State.reset with status := { Status.reset with phase := ph } }

/-- R351's example: the peer sends 'C'. -/
theorem test_txNeg_negotiated :
    (after (.rx 0x43#8) (running .txnRd .idle .txNeg)).map
      (fun s => (s.status.result, s.status.useCrc, s.status.phase, s.seq, s.errCnt)) =
      some (.negotiated, true, .tx, 1#8, 0#8) := by decide
/-- R354's example: the peer answers ACK. -/
theorem test_txBlk_acked :
    (after (.rx 0x06#8) { running .txbRd .tx .txBlk with totCnt := 1#32 }).map
      (fun s => (s.status.result, s.seq, s.succCnt, s.errCnt, s.progress)) =
      some (.acked, 2#8, 1#32, 0#8, [⟨1#32, 1#32, 0#8⟩]) := by decide
/-- R353's example, in checksum mode, over a chunk of 128 zero bytes: TXLEN = P, HDR 0x000101FE, TRL 0, a frame of 132 bytes. -/
theorem test_txBlk_frame :
    (after (cmdWr 0x00000021#32) { zeros with status := { Status.reset with phase := .tx }, txLen := 128#11 }).map
      (fun s => (s.hdr, s.trl, s.totCnt, s.hid.fr)) =
      some (0x0101FE#24, 0#16, 1#32, [0x01#8, 0x01#8, 0xFE#8] ++ List.replicate 128 0x00#8 ++ [0x00#8]) := by decide +kernel
/-- R355's example, first event: EOT is what TX.EOT sends. -/
theorem test_txEot :
    (after (cmdWr 0x00000022#32) (inPhase .tx)).map (fun s => (s.hid.ws, s.status.busy)) = some ([0x04#8], true) := by decide
/-- R403's example: in phase RX the peer sends EOT, and the ACK of EOT goes out. -/
theorem test_rxBlk :
    (after (cmdWr 0x00000029#32) (inPhase .rx)).map (fun s => s.hid.pt.code) = some 0x22#8 ∧
      (after (.rx 0x04#8) (running .rxaRd .rx .rxBlk)).map (fun s => (s.hid.pt.code, s.hid.ws)) =
        some (0x2A#8, [0x06#8]) := by decide
/-- X12: the unrecognised byte 0x41 at the start-byte read starts a purge (S_RXP_RD), and a tick ends it with the NAK (S_RXN2_WR). -/
theorem test_purge :
    (after (.rx 0x41#8) (running .rxaRd .rx .rxBlk)).map (fun s => (s.hid.pt.code, s.hid.tmr)) = some (0x27#8, 1#16) ∧
      (after .tick (running .rxpRd .rx .rxBlk)).map (fun s => (s.hid.pt.code, s.hid.ws)) = some (0x29#8, [0x15#8]) := by decide
/-- S10: the CAN remembered before a resend is still remembered once the frame is taken. -/
theorem test_canSeen_survives_resend :
    (after .txtake { writing .txbWr .tx .txBlk [0x01#8] with
        status := { Status.reset with busy := true, phase := .tx, canSeen := true } }).map
      (fun s => (s.hid.pt.code, s.status.canSeen)) = some (0x12#8, true) := by decide
/-- R359 and R603: a whole send begins with CTRL, then TX.NEG; once NEGOTIATED with MODE 1 a chunk of up to 1024 bytes goes out, and
of no data TX.EOT (LB0). -/
theorem test_sending :
    (match Sending.turn (Sending.start none none [7#8] State.reset) with
      | .next h => some (statusWord h.block, h.ops)
      | _ => none) = some (0x00100001#32, [.wait]) ∧
      (Sending.start (some 0x00101A05#32) none [] State.reset).ops = [.wr 0x04#8 0x00101A05#32, .cmd .txNeg, .wait] ∧
      senderHost 0x00101A05#32 .negotiating .negotiated [7#8] = (.streaming .extended, sendChunk [7#8], []) ∧
      senderHost 0x00101A04#32 .negotiating .negotiated [] = (.ending, [.cmd .txEot, .wait], []) := by decide
/-- R413: a whole receive begins with RX.NEG, drains RXLEN bytes of each block and ends on SUCCEEDED. -/
theorem test_receiving :
    (match Receiving.turn (Receiving.start none none State.reset) with
      | .next h => some (statusWord h.block, h.ops)
      | _ => none) = some (0x00200001#32, [.wait]) ∧
      receiverHost .block 2#11 = (.receiving, [.wr 0x4C#8 0#32, .rd 0x50#8, .rd 0x50#8, .cmd .rxBlk, .wait]) ∧
      receiverHost .succeeded 0#11 = (.finished, []) ∧ receiverHost .integrity 0#11 = (.failed, []) := by decide
/-- R524: instance B receives the first byte of A's trace, and only once. -/
theorem test_pair_delivers :
    (match Pair.move (.deliver .b)
        { Pair.reset with a := { State.reset with trace := [0x15#8] }, b := { running .txnRd .idle .txNeg with unit := 1 } } with
      | .next w => some (w.b.status.result, w.takenByB, w.waiting .b)
      | _ => none) = some (.negotiated, 1, none) := by decide
/-- R402: with RETRY <= 1 the receiver never probes with 'C'. -/
theorem test_rxNeg_no_crc_probe :
    (after (cmdWr 0x00000028#32) { State.reset with ctrl := Ctrl.ofWord 0x00011A04#32 }).map (·.hid.ws) = some [0x15#8] := by decide
/-- R107's example: BUFADDR = 1023, a write of 0x41. -/
theorem test_bufdata_wraps :
    (after (.hostWr 32 0x50#8 0x41#32) { State.reset with bufAddr := 1023#10 }).map (fun s => (s.buf, s.bufAddr)) =
      some ([(1023, 0x41#8)], 0#10) := by decide
/-- R105: a CMD write while a command runs is dropped and sets OVR. -/
theorem test_overrun :
    (after (cmdWr 0x00000001#32) (running .txnRd .idle .txNeg)).map (fun s => (s.status.ovr, s.hid.pt)) =
      some (true, .txnRd) := by decide
/-- The buffer keeps its canonical form: indices rise whatever order the bytes were written in. -/
theorem test_store_sorted :
    Memory.store (Memory.store (Memory.store [] 5 1#8) 2 2#8) 5 3#8 = [(2, 2#8), (5, 3#8)] ∧
      Memory.wf [(2, 2#8), (5, 3#8)] = true ∧ Memory.wf [(5, 1#8), (2, 2#8)] = false ∧ Memory.wf [(1024, 0#8)] = false := by decide

/-! ## Witnesses: a concrete state and operands that meet the hypotheses of each statement, one per clause, at boundary values.
The theorem `test_witness_<Name>` is for `Obligations.<Name>`; a statement with no hypothesis has none. -/

/-- The state an event leads to. -/
def got (e : Event) (s : State) : State := (after e s).getD s

theorem test_witness_EncodeDecodeRoundTrip :
    decode 0xFFFF4104#32 = .ok (.engFeed 0x41#8) ∧ encode (.engFeed 0x41#8) = 0xFFFF4104#32 &&& (Instr.engFeed 0x41#8).usedBits := by
  decide

theorem test_witness_UnusedFieldsAreIgnored :
    decode 0x00004104#32 = .ok (.engFeed 0x41#8) ∧
      0xFFFF4104#32 &&& (Instr.engFeed 0x41#8).usedBits = 0x00004104#32 &&& (Instr.engFeed 0x41#8).usedBits ∧
      fieldOp 0xFFFF0004#32 = fieldOp 0x00004104#32 := by decide

/-- The reserved values of OP, as the statement writes them. -/
def reservedOp (op : Nat) : Bool :=
  decide (op = 0x00 ∨ (0x06 ≤ op ∧ op ≤ 0x0F) ∨ (0x13 ≤ op ∧ op ≤ 0x1F) ∨ (0x23 ≤ op ∧ op ≤ 0x27) ∨ 0x2A ≤ op)

theorem test_witness_ReservedOpcodesEndBadCmd :
    State.reset.status.busy = false ∧
      [0x00#32, 0x06#32, 0x0F#32, 0x13#32, 0x1F#32, 0x23#32, 0x27#32, 0x2A#32, 0xFFFFFFFF#32].all (fun w => reservedOp (fieldOp w).toNat) = true ∧
      [0x01#32, 0x05#32, 0x10#32, 0x12#32, 0x20#32, 0x22#32, 0x28#32, 0x29#32].all (fun w => !reservedOp (fieldOp w).toNat) = true := by
  decide

theorem test_witness_StepRunsTheDecodedCommand :
    State.reset.status.busy = false ∧ decode 0x00000028#32 = .ok .rxNeg := by decide

theorem test_witness_StepTakesTheEarliestEnabledEvent :
    (∀ e ∈ (withInputs [.rx 1#8, .txtake] State.reset).inputs, Event.enabled State.reset.hid.pt e = false) ∧
      (withInputs [.rx 1#8, .tick, .reset] State.reset).inputs = [.rx 1#8] ++ .tick :: [.reset] ∧
      Event.enabled State.reset.hid.pt .tick = true ∧
      ∀ x ∈ [Event.rx 1#8], Event.enabled State.reset.hid.pt x = false := by decide +kernel

theorem test_witness_AcceptanceChecksDecide :
    (inPhase .rx).status.phase ≠ .tx ∧ (inPhase .tx).status.phase ≠ .rx ∧
      (2#2 ≠ 0#2 ∧ 2#2 ≠ 1#2) ∧ (3#2 ≠ 0#2 ∧ 3#2 ≠ 1#2) ∧ (127#16 ≠ 128#16 ∧ 127#16 ≠ 1024#16) ∧
      (1025#16 ≠ 128#16 ∧ 1025#16 ≠ 1024#16) ∧
      1024 < (1025#16).toNat ∧ (inPhase .tx).status.phase = .tx ∧
      ¬(1 ≤ (0#11).toNat ∧ (0#11).toNat ≤ if (0#2 : BitVec 2) = 0#2 then 128 else 1024) ∧
      ¬(1 ≤ (129#11).toNat ∧ (129#11).toNat ≤ if (0#2 : BitVec 2) = 0#2 then 128 else 1024) ∧
      ¬(1 ≤ (1025#11).toNat ∧ (1025#11).toNat ≤ if (1#2 : BitVec 2) = 0#2 then 128 else 1024) := by decide

theorem test_witness_ImmediateCommandsCompleteAtOnce :
    isImmediate .engClr = true ∧ isImmediate (.frmHdr 128#16 0#8) = true ∧ isImmediate (.frmTrl 128#16 true) = true ∧
      isImmediate (.frmChk 0#16 true) = true ∧ (∀ size q, Instr.engClr ≠ .frmHdr size q) ∧
      (∀ size u, Instr.engClr ≠ .frmTrl size u) ∧ (∀ size u, Instr.engClr ≠ .frmChk size u) ∧
      ∃ size q, Instr.frmHdr 128#16 0#8 = .frmHdr size q :=
  ⟨rfl, rfl, rfl, rfl, fun _ _ h => (nomatch h), fun _ _ h => (nomatch h), fun _ _ h => (nomatch h), _, _, rfl⟩

theorem test_witness_AcceptingStepFrame :
    exec .engClr State.reset = .next ((nx (exec .engClr State.reset)).getD State.reset) ∧
      exec .txEot (inPhase .tx) = .next ((nx (exec .txEot (inPhase .tx))).getD State.reset) ∧
      exec .txBlk (inPhase .tx) = .next ((nx (exec .txBlk (inPhase .tx))).getD State.reset) ∧
      exec .txNeg State.reset = .next ((nx (exec .txNeg State.reset)).getD State.reset) ∧
      exec .rxNeg State.reset = .next ((nx (exec .rxNeg State.reset)).getD State.reset) ∧
      exec .rxBlk (inPhase .rx) = .next ((nx (exec .rxBlk (inPhase .rx))).getD State.reset) :=
  ⟨rfl, rfl, rfl, rfl, rfl, rfl⟩

theorem test_witness_EngFeedbufFeedsARun : 1024 < (1025#16).toNat ∧ (1024#16).toNat ≤ 1024 ∧ (0#16).toNat ≤ 1024 := by decide

theorem test_witness_IntegrityChainLaws :
    List.Perm [1#8, 2#8] [2#8, 1#8] ∧ crc16 [1#8, 2#8] 0#16 ≠ crc16 [2#8, 1#8] 0#16 :=
  ⟨List.Perm.swap _ _ _, by decide⟩

theorem test_witness_VerifyMeansZeroResidue :
    (List.replicate 130 0#8).length = BlockSize.classic.bytes + 2 ∧
      (List.replicate 1026 0#8).length = BlockSize.extended.bytes + 2 :=
  ⟨by rw [List.length_replicate]; rfl, by rw [List.length_replicate]; rfl⟩

theorem test_witness_FrmHdrBuildsTheHeader :
    (127#16 ≠ 128#16 ∧ 127#16 ≠ 1024#16) ∧ 0x80#16 = 128#16 ∧ 0x400#16 = 1024#16 := by decide

theorem test_witness_FrmTrlBuildsTheTrailer :
    (1025#16 ≠ 128#16 ∧ 1025#16 ≠ 1024#16) ∧ (0x80#16 = 128#16 ∨ 0x80#16 = 1024#16) ∧ (0x400#16 = 128#16 ∨ 0x400#16 = 1024#16) := by
  decide

theorem test_witness_FrmChkVerifiesTheTrailer :
    (0#16 ≠ 128#16 ∧ 0#16 ≠ 1024#16) ∧ (0x80#16 = 128#16 ∨ 0x80#16 = 1024#16) ∧ (0x400#16 = 128#16 ∨ 0x400#16 = 1024#16) := by decide

theorem test_witness_CheckAfterTrailerIsValid :
    (0x80#16 = 128#16 ∨ 0x80#16 = 1024#16) ∧ (0x01#16).extractLsb' 0 8 ≠ (0x00#16).extractLsb' 0 8 := by decide

theorem test_witness_FrameHasTheStatedShape :
    (1 ≤ [7#8].length ∧ [7#8].length ≤ BlockSize.classic.bytes) ∧
      (1 ≤ (List.replicate 1024 7#8).length ∧ (List.replicate 1024 7#8).length ≤ BlockSize.extended.bytes) := by
  rw [List.length_replicate]; decide

/-- A data read of a 128-byte checksum-mode block with `got` of its 129 bytes in. -/
def dataRead (n : Nat) : State :=
  { running .rxdRd .rx .rxBlk with
    hid := { (running .rxdRd .rx .rxBlk).hid with rn := 129, rk := n, rb := List.replicate n 0#8 } }

/-- A command whose timer stands at `tmr`. -/
def withTmr (tmr : Half) (s : State) : State := { s with hid := { s.hid with tmr := tmr } }

/-- The abort's write. -/
def aborting : State := writing (.canWr .integrity) .rx .rxBlk [CAN, CAN]

theorem test_witness_LinkPrimitivesRun :
    (dataRead 0).hid.pt.isRead = true ∧ (dataRead 127).hid.rk + 1 ≠ (dataRead 127).hid.rn ∧
      (dataRead 128).hid.rk + 1 = (dataRead 128).hid.rn ∧
      aborting.hid.pt.isWrite = true ∧ aborting.hid.ws[aborting.hid.wj]? = some CAN ∧
      aborting.hid.wj + 1 ≠ aborting.hid.ws.length ∧
      (writing .txeWr .tx .txEot [EOT]).hid.ws[0]? = some EOT ∧
      (writing .txeWr .tx .txEot [EOT]).hid.wj + 1 = (writing .txeWr .tx .txEot [EOT]).hid.ws.length ∧
      1 < (withTmr 2#16 aborting).hid.tmr.toNat ∧ (withTmr 1#16 aborting).hid.tmr.toNat ≤ 1 ∧
      (withTmr 0#16 (dataRead 3)).hid.tmr.toNat ≤ 1 := by decide

theorem test_witness_TimerEndsOnTheLastTick :
    State.reset.hid.pt = .idle ∧ (withTmr 3#16 (dataRead 0)).hid.pt.isRead = true ∧
      2 < max (withTmr 3#16 (dataRead 0)).hid.tmr.toNat 1 ∧ 2 + 1 = max (withTmr 3#16 (dataRead 0)).hid.tmr.toNat 1 ∧
      aborting.hid.pt.isWrite = true ∧ 0 + 1 = max (withTmr 0#16 aborting).hid.tmr.toNat 1 := by decide

/-- A purge begins: an unrecognised start byte. -/
theorem test_witness_PurgeDiscardsUntilQuiet_starts :
    let s := running .rxaRd .rx .rxBlk
    Event.enabled s.hid.pt (.rx NAK) = true ∧ Takes (.rx NAK) s (got (.rx NAK) s) ∧ s.hid.pt ≠ .rxpRd ∧
      (got (.rx NAK) s).hid.pt = .rxpRd :=
  ⟨rfl, rfl, by decide, rfl⟩

theorem test_witness_PurgeDiscardsUntilQuiet :
    Awaits .rxpRd (running .rxpRd .rx .rxBlk) ∧ (running .rxpRd .rx .rxBlk).hid.tmr.toNat ≤ 1 ∧
      (running .rxpRd .rx .rxBlk).purgeHeard = false ∧
      (let s := { running .rxpRd .rx .rxBlk with purgeHeard := true }
       Awaits .rxpRd s ∧ s.hid.tmr.toNat ≤ 1 ∧ s.purgeHeard = true) := by decide

theorem test_witness_AbortSendsTwoCans :
    aborting.hid.pt = .canWr .integrity ∧ aborting.hid.ws = [CAN, CAN] ∧ aborting.hid.wj = 0 ∧ aborting.hid.tmr.toNat ≤ 1 := by
  decide

/-- A command awaiting a byte at a control position, one CAN already seen. -/
def canSeenAt (pt : Point) (ph : Phase) (c : LinkCmd) : State :=
  { running pt ph c with status := { (running pt ph c).status with canSeen := true } }

theorem test_witness_DoubleCancelEndsTheCommand :
    (Point.txnRd.isControl = true ∧ Awaits .txnRd (canSeenAt .txnRd .idle .txNeg)) ∧
      (Point.txbRd.isControl = true ∧ Awaits .txbRd (canSeenAt .txbRd .tx .txBlk)) ∧
      (Point.txeRd.isControl = true ∧ Awaits .txeRd (canSeenAt .txeRd .tx .txEot)) ∧
      (Point.rxnRd.isControl = true ∧ Awaits .rxnRd (canSeenAt .rxnRd .idle .rxNeg)) ∧
      (Point.rxaRd.isControl = true ∧ Awaits .rxaRd (canSeenAt .rxaRd .rx .rxBlk)) ∧
      (canSeenAt .rxaRd .rx .rxBlk).status.canSeen = true := by decide

/-- A budget of one failure, and one of two, at a point. -/
def withRetry (r : Byte) (s : State) : State := { s with sessCfg := { s.sessCfg with retry := r } }

theorem test_witness_TimeoutSpendsTheBudget :
    (running .txnRd .idle .txNeg).hid.tmr.toNat ≤ 1 ∧ (running .txnRd .idle .txNeg).hid.pt = .txnRd ∧
      (running .txbRd .tx .txBlk).hid.pt = .txbRd ∧ (running .txeRd .tx .txEot).hid.pt = .txeRd ∧
      (running .rxnRd .idle .rxNeg).hid.pt = .rxnRd ∧ (running .rxaRd .rx .rxBlk).hid.pt = .rxaRd ∧
      (let s := withRetry 1#8 (running .txnRd .idle .txNeg)
       max s.sessCfg.retry.toNat 1 ≤ s.errCnt.toNat + 1) ∧
      (let s := withRetry 2#8 (running .txnRd .idle .txNeg)
       s.errCnt.toNat + 1 < max s.sessCfg.retry.toNat 1) := by decide

/-- ERRCNT changes: one failure, and the zero points of R310. -/
theorem test_witness_TimeoutSpendsTheBudget_errCnt :
    let failed := { running .txbRd .tx .txBlk with errCnt := 3#8 }
    let waiting := { inPhase .tx with errCnt := 3#8 }
    (Event.enabled failed.hid.pt .tick = true ∧ Takes .tick failed (got .tick failed) ∧
        (got .tick failed).errCnt ≠ failed.errCnt) ∧
      (Takes (.rx ACK) failed (got (.rx ACK) failed) ∧ (got (.rx ACK) failed).errCnt ≠ failed.errCnt) ∧
      (Takes (cmdWr 0x22#32) waiting (got (cmdWr 0x22#32) waiting) ∧
        (got (cmdWr 0x22#32) waiting).errCnt ≠ waiting.errCnt) :=
  ⟨⟨rfl, rfl, by decide⟩, ⟨rfl, by decide⟩, rfl, by decide⟩

/-- CANSEEN changes: a CAN at a control position, and a session open. -/
theorem test_witness_CancelMemoryDiscipline_changes :
    let reading := running .rxnRd .idle .rxNeg
    let idle := { State.reset with status := { Status.reset with canSeen := true } }
    (Event.enabled reading.hid.pt (.rx CAN) = true ∧ Takes (.rx CAN) reading (got (.rx CAN) reading) ∧
        (got (.rx CAN) reading).status.canSeen ≠ reading.status.canSeen) ∧
      (Takes (cmdWr 0x20#32) idle (got (cmdWr 0x20#32) idle) ∧
        (got (cmdWr 0x20#32) idle).status.canSeen ≠ idle.status.canSeen) ∧
      (Takes .reset idle (got .reset idle) ∧ (got .reset idle).status.canSeen ≠ idle.status.canSeen) :=
  ⟨⟨rfl, rfl, by decide⟩, ⟨rfl, by decide⟩, rfl, by decide⟩

theorem test_witness_CancelMemoryDiscipline :
    Takes (.rx CAN) (dataRead 0) (got (.rx CAN) (dataRead 0)) ∧ (dataRead 0).hid.pt.isRead = true ∧
      (dataRead 0).hid.pt.isControl = false ∧ Point.rxnRd.isControl = true ∧ Awaits .rxnRd (running .rxnRd .idle .rxNeg) ∧
      Takes .tick (dataRead 0) (got .tick (dataRead 0)) :=
  ⟨rfl, rfl, rfl, rfl, by decide, rfl⟩

/-- CTRL with the given MODE. -/
def inMode (m : BitVec 2) : State := { State.reset with ctrl := { Ctrl.reset with mode := m } }

theorem test_witness_TxNegNegotiates :
    ((inMode 2#2).ctrl.mode ≠ 0#2 ∧ (inMode 2#2).ctrl.mode ≠ 1#2) ∧ (inMode 0#2).ctrl.mode = 0#2 ∧ (inMode 1#2).ctrl.mode = 1#2 ∧
      Awaits .txnRd (running .txnRd .idle .txNeg) ∧ (running .txnRd .idle .txNeg).status.canSeen = false ∧
      (canSeenAt .txnRd .idle .txNeg).status.canSeen = true ∧ Awaits .txnRd (canSeenAt .txnRd .idle .txNeg) ∧
      (ACK ≠ CAN ∧ ACK ≠ NAK ∧ ACK ≠ CRQ ∧ ACK ≠ EOT) ∧ (running .txnRd .idle .txNeg).hid.tmr.toNat ≤ 1 := by decide

/-- Phase TX with a chunk length and a latched mode. -/
def chunkOf (len : BitVec 11) (m : BitVec 2) : State :=
  { inPhase .tx with txLen := len, sessCfg := { SessCfg.reset with mode := m } }

theorem test_witness_TxBlkBuildsTheFrame :
    (inPhase .rx).status.phase ≠ .tx ∧ (chunkOf 1#11 0#2).status.phase = .tx ∧
      ¬(1 ≤ (chunkOf 0#11 0#2).txLen.toNat ∧ (chunkOf 0#11 0#2).txLen.toNat ≤ 128) ∧
      ¬(1 ≤ (chunkOf 129#11 0#2).txLen.toNat ∧ (chunkOf 129#11 0#2).txLen.toNat ≤ 128) ∧
      (1 ≤ (chunkOf 128#11 0#2).txLen.toNat ∧ (chunkOf 128#11 0#2).txLen.toNat ≤ 128) ∧
      (1 ≤ (chunkOf 1024#11 1#2).txLen.toNat ∧ (chunkOf 1024#11 1#2).txLen.toNat ≤ 1024) := by decide

theorem test_witness_TxBlkAwaitsTheReply :
    (let s := writing .txbWr .tx .txBlk [SOH]
     s.hid.pt = .txbWr ∧ s.hid.ws[s.hid.wj]? = some SOH ∧ s.hid.wj + 1 = s.hid.ws.length ∧ s.hid.tmr.toNat ≤ 1) ∧
      Awaits .txbRd (running .txbRd .tx .txBlk) ∧ (running .txbRd .tx .txBlk).status.canSeen = false ∧
      (canSeenAt .txbRd .tx .txBlk).status.canSeen = true ∧ (NAK ≠ CAN ∧ NAK ≠ ACK) ∧
      (running .txbRd .tx .txBlk).hid.tmr.toNat ≤ 1 := by decide

theorem test_witness_TxEotEndsTheTransfer :
    (inPhase .rx).status.phase ≠ .tx ∧ (inPhase .tx).status.phase = .tx ∧
      (let s := writing .txeWr .tx .txEot [EOT]
       s.hid.pt = .txeWr ∧ s.hid.ws[s.hid.wj]? = some EOT ∧ s.hid.wj + 1 = s.hid.ws.length ∧ s.hid.tmr.toNat ≤ 1) ∧
      Awaits .txeRd (running .txeRd .tx .txEot) ∧ (running .txeRd .tx .txEot).status.canSeen = false ∧
      (canSeenAt .txeRd .tx .txEot).status.canSeen = true ∧ (NAK ≠ CAN ∧ NAK ≠ ACK) ∧
      (running .txeRd .tx .txEot).hid.tmr.toNat ≤ 1 := by decide

/-- A sender's first negotiation read with a budget of three failures of two ticks each. -/
def silentPeer : State :=
  withTmr 2#16 (withRetry 3#8 { running .txnRd .idle .txNeg with sessTmo := 2#16 })

theorem test_witness_SilentPeerEndsNegotiation :
    Awaits .txnRd silentPeer ∧ silentPeer.errCnt = 0#8 ∧ silentPeer.hid.tmr = silentPeer.sessTmo ∧
      5 < max silentPeer.sessCfg.retry.toNat 1 * max silentPeer.sessTmo.toNat 1 ∧
      6 = max silentPeer.sessCfg.retry.toNat 1 * max silentPeer.sessTmo.toNat 1 := by decide

theorem test_witness_RxNegNegotiates :
    ((inMode 3#2).ctrl.mode ≠ 0#2 ∧ (inMode 3#2).ctrl.mode ≠ 1#2) ∧ (inMode 0#2).ctrl.mode = 0#2 ∧ (inMode 1#2).ctrl.mode = 1#2 ∧
      (let s := writing .rxnWr .idle .rxNeg [CRQ]
       s.hid.pt = .rxnWr ∧ s.hid.ws[s.hid.wj]? = some CRQ ∧ s.hid.wj + 1 = s.hid.ws.length ∧ s.hid.tmr.toNat ≤ 1) ∧
      Awaits .rxnRd (running .rxnRd .idle .rxNeg) ∧ (running .rxnRd .idle .rxNeg).status.canSeen = false ∧
      (canSeenAt .rxnRd .idle .rxNeg).status.canSeen = true ∧
      (NAK ≠ CAN ∧ NAK ≠ SOH ∧ NAK ≠ STX ∧ NAK ≠ EOT) ∧ (running .rxnRd .idle .rxNeg).hid.tmr.toNat ≤ 1 := by decide

theorem test_witness_RxBlkAwaitsAStartByte :
    (inPhase .tx).status.phase ≠ .rx ∧ (inPhase .rx).status.phase = .rx ∧ Awaits .rxaRd (running .rxaRd .rx .rxBlk) ∧
      (running .rxaRd .rx .rxBlk).status.canSeen = false ∧ (canSeenAt .rxaRd .rx .rxBlk).status.canSeen = true ∧
      (CRQ ≠ CAN ∧ CRQ ≠ EOT ∧ CRQ ≠ SOH ∧ CRQ ≠ STX) ∧ (running .rxaRd .rx .rxBlk).hid.tmr.toNat ≤ 1 := by decide

/-- The complement read, the first sequence byte already in. -/
def secondByte (q1 : Byte) : State :=
  { running .rxcRd .rx .rxBlk with hid := { (running .rxcRd .rx .rxBlk).hid with q1 := q1 } }

/-- A drain of a 128-byte checksum-mode block with all but its last byte in. -/
def draining : State := { dataRead 128 with hid := { (dataRead 128).hid with pt := .rxxRd } }

theorem test_witness_HeaderMismatchDrains :
    Awaits .rxsRd (running .rxsRd .rx .rxBlk) ∧ Awaits .rxcRd (secondByte 1#8) ∧
      ((secondByte 1#8).hid.q1.toNat + (0xFE#8).toNat = 0xFF ∧ (secondByte 1#8).hid.q1 = (secondByte 1#8).seq) ∧
      ¬((secondByte 1#8).hid.q1.toNat + (0xFF#8).toNat = 0xFF ∧ (secondByte 1#8).hid.q1 = (secondByte 1#8).seq) ∧
      ¬((secondByte 0#8).hid.q1.toNat + (0xFF#8).toNat = 0xFF ∧ (secondByte 0#8).hid.q1 = (secondByte 0#8).seq) ∧
      (running .rxsRd .rx .rxBlk).hid.tmr.toNat ≤ 1 ∧ (secondByte 1#8).hid.pt = .rxcRd ∧
      draining.hid.pt = .rxxRd ∧ draining.hid.rk + 1 = draining.hid.rn ∧ draining.hid.tmr.toNat ≤ 1 := by decide

theorem test_witness_DataReadVerifiesTheBlock :
    (dataRead 128).hid.pt = .rxdRd ∧ (dataRead 128).hid.rk + 1 = (dataRead 128).hid.rn ∧
      (dataRead 128).hid.rb.length + 1 = (dataRead 128).hid.p.bytes + (dataRead 128).hid.t.bytes ∧
      (verify (decide ((dataRead 128).hid.t = .two)) ((dataRead 128).hid.rb ++ [0#8]) (dataRead 128).hid.p).1 = true ∧
      (verify (decide ((dataRead 128).hid.t = .two)) ((dataRead 128).hid.rb ++ [1#8]) (dataRead 128).hid.p).1 = false ∧
      (dataRead 0).hid.pt = .rxdRd ∧ (dataRead 0).hid.tmr.toNat ≤ 1 := by decide +kernel

theorem test_witness_ReceiverWritesLeadOn :
    (Event.tick = .tick ∧ aborting.hid.tmr.toNat ≤ 1) ∧
      (let s := writing .rxkWr .rx .rxBlk [ACK]
       s.hid.ws[s.hid.wj]? = some ACK ∧ s.hid.wj + 1 = s.hid.ws.length ∧ s.hid.pt = .rxkWr) ∧
      (writing .rxn2Wr .rx .rxBlk [NAK]).hid.pt = .rxn2Wr ∧ (writing .rxeWr .rx .rxBlk [ACK]).hid.pt = .rxeWr := by decide

theorem test_witness_ReceiverAcceptsTheSendersFrame :
    (1 ≤ [7#8].length ∧ [7#8].length ≤ BlockSize.classic.bytes) ∧
      (1 ≤ (List.replicate 1024 7#8).length ∧ (List.replicate 1024 7#8).length ≤ BlockSize.extended.bytes) ∧
      Awaits .rxaRd (running .rxaRd .rx .rxBlk) := by rw [List.length_replicate]; decide

theorem test_witness_UndefinedAccessesDoNothing :
    (16 ≠ 32 ∨ (0x04#8).toNat % 4 ≠ 0) ∧ (32 ≠ 32 ∨ (0x05#8).toNat % 4 ≠ 0) ∧ (32 ≠ 32 ∨ (0xFF#8).toNat % 4 ≠ 0) := by decide

theorem test_witness_ReservedAndReadOnlyAccesses :
    (0x54 ≤ (0x54#8).toNat ∧ (0x54#8).toNat ≤ 0xFC) ∧ (0x54 ≤ (0xFC#8).toNat ∧ (0xFC#8).toNat ≤ 0xFC) ∧
      isReadOnly .rxLen = true := by decide

theorem test_witness_BusyAccesses : (running .txnRd .idle .txNeg).status.busy = true := by decide

theorem test_witness_BufferPortReadsAndWrites :
    State.reset.status.busy = false ∧ 0 = State.reset.bufAddr.toNat ∧ 1 ≠ State.reset.bufAddr.toNat := by decide

theorem test_witness_RegisterWritesReadBack : State.reset.status.busy = false := by decide

/-- A running command with OVR set. -/
def overrunning : State :=
  { running .txnRd .idle .txNeg with status := { (running .txnRd .idle .txNeg).status with ovr := true } }

theorem test_witness_StatusWriteClears :
    (BlockInv (running .txnRd .idle .txNeg) ∧ (running .txnRd .idle .txNeg).status.busy = true) ∧
      (let s := running .txnRd .idle .txNeg
       Event.enabled s.hid.pt (cmdWr 0x01#32) = true ∧ Takes (cmdWr 0x01#32) s (got (cmdWr 0x01#32) s) ∧
         s.status.ovr = false ∧ (got (cmdWr 0x01#32) s).status.ovr = true) ∧
      Takes (.hostWr 32 0x10#8 0x4#32) overrunning (got (.hostWr 32 0x10#8 0x4#32) overrunning) ∧
      overrunning.status.ovr = true ∧ (got (.hostWr 32 0x10#8 0x4#32) overrunning).status.ovr = false :=
  ⟨⟨by decide, rfl⟩, ⟨rfl, rfl, rfl, rfl⟩, rfl, rfl, rfl⟩

theorem test_witness_InterruptFollowsDone : (0x2#32).getLsbD 1 = true ∧ State.reset.status.busy = false := by decide

theorem test_witness_FillThenCalcAndDrain :
    [1#8, 2#8].length ≤ 1024 ∧ (List.replicate 1024 7#8).length ≤ 1024 ∧ State.reset.status.busy = false ∧
      State.reset.hid.pt = .idle := by rw [List.length_replicate]; decide

theorem test_witness_LinkEventFrame :
    (Event.enabled (dataRead 0).hid.pt (.rx 5#8) = true ∧ Takes (.rx 5#8) (dataRead 0) (got (.rx 5#8) (dataRead 0))) ∧
      (Event.enabled aborting.hid.pt .txtake = true ∧ Takes .txtake aborting (got .txtake aborting)) ∧
      Takes .tick aborting (got .tick aborting) ∧
      (let s := running .rxaRd .rx .rxBlk
       Takes .tick s (got .tick s) ∧ s.hid.pt ≠ .txbRd ∧ s.hid.pt ≠ .rxkWr ∧ s.hid.pt ≠ .rxdRd ∧ s.hid.pt ≠ .txnRd ∧
         s.hid.pt ≠ .rxnRd ∧ s.hid.pt.isWrite = false) ∧
      (∀ b, Event.txtake ≠ .rx b) ∧ (dataRead 0).hid.pt.isControl = false ∧
      aborting.hid.pt ∉ [Point.txnRd, .txbRd, .txeRd, .rxnRd, .rxaRd, .rxdRd, .rxxRd] ∧ aborting.hid.pt ≠ .rxpRd ∧
      (let s := writing .txbWr .tx .txBlk [SOH, 1#8]
       Takes .txtake s (got .txtake s) ∧ (got .txtake s).hid.pt ≠ .idle ∧ (got .txtake s).hid.pt.isWrite = true ∧
         (got .txtake s).hid.pt = s.hid.pt ∧ s.hid.pt ≠ .rxsRd) :=
  ⟨⟨rfl, rfl⟩, ⟨rfl, rfl⟩, rfl, ⟨rfl, by decide, by decide, by decide, by decide, by decide, rfl⟩, fun _ h => (nomatch h), rfl,
    by decide, by decide, rfl, by decide, rfl, rfl, by decide⟩

theorem test_witness_OnlyTwoWritersOfTheBuffer :
    let s := { State.reset with buf := [(0, 7#8)] }
    Event.enabled s.hid.pt (.hostWr 32 0x50#8 5#32) = true ∧
      Takes (.hostWr 32 0x50#8 5#32) s (got (.hostWr 32 0x50#8 5#32) s) ∧
      bufByte (got (.hostWr 32 0x50#8 5#32) s) 0 ≠ bufByte s 0 :=
  ⟨rfl, rfl, by decide⟩

theorem test_witness_OutputsOnlyGrow :
    Event.enabled aborting.hid.pt .txtake = true ∧ Takes .txtake aborting (got .txtake aborting) ∧ Event.tick ≠ .txtake ∧
      Takes .tick aborting (got .tick aborting) :=
  ⟨rfl, rfl, by decide, rfl⟩

theorem test_witness_PhaseChangesOnlyAtNamedPoints :
    (let s := running .txnRd .idle .txNeg
     Event.enabled s.hid.pt (.rx NAK) = true ∧ Takes (.rx NAK) s (got (.rx NAK) s) ∧
       (got (.rx NAK) s).status.phase ≠ s.status.phase) ∧
      (let s := running .rxnRd .idle .rxNeg
       Takes (.rx SOH) s (got (.rx SOH) s) ∧ (got (.rx SOH) s).status.phase ≠ s.status.phase) ∧
      Takes .tick aborting (got .tick aborting) ∧ (got .tick aborting).status.phase ≠ aborting.status.phase :=
  ⟨⟨rfl, rfl, by decide⟩, ⟨rfl, by decide⟩, rfl, by decide⟩

theorem test_witness_ResultFixesThePhase :
    (let s := running .txnRd .idle .txNeg
     BlockInv s ∧ Event.enabled s.hid.pt (.rx NAK) = true ∧ Takes (.rx NAK) s (got (.rx NAK) s) ∧ Event.rx NAK ≠ .reset ∧
       s.status.busy = true ∧ (got (.rx NAK) s).status.busy = false ∧ (got (.rx NAK) s).status.result = .negotiated) ∧
      (let s := writing .rxkWr .rx .rxBlk [ACK]
       BlockInv s ∧ Takes .txtake s (got .txtake s) ∧ (got .txtake s).status.result = .block) ∧
      (BlockInv aborting ∧ Takes .tick aborting (got .tick aborting) ∧ (got .tick aborting).status.result = .integrity) ∧
      (BlockInv State.reset ∧ Takes (.hostWr 32 0x0C#8 0x00000021#32) State.reset
          (got (.hostWr 32 0x0C#8 0x00000021#32) State.reset) ∧
        (got (.hostWr 32 0x0C#8 0x00000021#32) State.reset).status.busy = false ∧
        (got (.hostWr 32 0x0C#8 0x00000021#32) State.reset).status.result = .badCmd) :=
  ⟨⟨by decide, rfl, rfl, by decide, rfl, rfl, rfl⟩, ⟨by decide, rfl, rfl⟩, ⟨by decide, rfl, rfl⟩, by decide, rfl, rfl, rfl⟩

theorem test_witness_SequenceAdvancesOnlyOnAcceptance :
    let s := running .txbRd .tx .txBlk
    Event.enabled s.hid.pt (.rx ACK) = true ∧ Takes (.rx ACK) s (got (.rx ACK) s) ∧ (got (.rx ACK) s).seq ≠ s.seq :=
  ⟨rfl, rfl, by decide⟩

theorem test_witness_LatchedConfigurationOnly :
    (Event.enabled aborting.hid.pt .tick = true ∧ Takes .tick aborting (got .tick aborting)) ∧
      (Event.enabled aborting.hid.pt .txtake = true ∧ Takes .txtake aborting (got .txtake aborting)) ∧
      (Event.enabled (dataRead 0).hid.pt (.rx 5#8) = true ∧ Takes (.rx 5#8) (dataRead 0) (got (.rx 5#8) (dataRead 0))) ∧
      Instr.txEot ≠ .txNeg ∧ Instr.txEot ≠ .rxNeg ∧
      exec .txEot (inPhase .tx) = .next ((nx (exec .txEot (inPhase .tx))).getD State.reset) :=
  ⟨⟨rfl, rfl⟩, ⟨rfl, rfl⟩, ⟨rfl, rfl⟩, by decide, by decide, rfl⟩

theorem test_witness_StepKeepsTheInvariant :
    (BlockInv (withInputs [.rx NAK] (running .txnRd .idle .txNeg)) ∧
        step (withInputs [.rx NAK] (running .txnRd .idle .txNeg)) = .next (got (.rx NAK) (running .txnRd .idle .txNeg))) ∧
      BlockInv (dataRead 128) :=
  ⟨⟨by decide, rfl⟩, by decide +kernel⟩

theorem test_witness_NoStepStops : BlockInv State.reset ∧ BlockInv (withInputs [.txtake] aborting) :=
  ⟨by decide, by decide⟩

end Sys2Proof.Machine.Tests
end

section
/-! PROOF. The order in which a step takes the waiting events (spec/00_scope.md R9, spec/20_memory.md R124). -/

namespace Sys2Proof.Machine

/-! ## Taking an input behind disabled ones -/

/-- The converse of `takeInput_some`: behind disabled events, the first enabled one is taken. -/
theorem takeInput_append_cons {pt : Point} {pre post : List Event} {e : Event} (he : Event.enabled pt e = true)
    (hpre : ∀ x ∈ pre, Event.enabled pt x = false) :
    takeInput pt (pre ++ e :: post) = some (e, pre ++ post) := by
  induction pre with
  | nil => exact takeInput_cons he
  | cons x xs ih =>
    obtain ⟨hx, hxs⟩ := List.forall_mem_cons.mp hpre
    simp [takeInput, hx, ih hxs]

/-! ## What a step does with what is taken -/

/-- A step that takes nothing changes nothing. -/
theorem step_of_takeInput_none {s : State} (h : takeInput s.hid.pt s.inputs = none) : step s = .next s := by
  simp only [step, advance, h]

/-- A step handles the event taken, in the state in which only the others still wait. -/
theorem step_of_takeInput_some {s : State} {e : Event} {rest : List Event}
    (h : takeInput s.hid.pt s.inputs = some (e, rest)) : step s = handle e (withInputs rest s) := by
  simp only [step, advance, h]

/-! ## The obligation -/

/-- Settles O6: enabling case by case on the event, then by `takeInput_none_iff` and by `takeInput_append_cons`, whose
induction runs over the disabled events in front of the enabled one. -/
theorem stepTakesTheEarliestEnabledEvent : Obligations.StepTakesTheEarliestEnabledEvent := by
  refine ⟨fun _ e => ?enabling, fun s hnone => ?noneEnabled, fun s pre post e hs he hpre => ?earliest⟩
  case enabling => cases e <;> rfl
  case noneEnabled => exact step_of_takeInput_none ((takeInput_none_iff s.hid.pt s.inputs).mpr hnone)
  case earliest =>
    have htake : takeInput s.hid.pt s.inputs = some (e, pre ++ post) := by
      rw [hs]
      exact takeInput_append_cons he hpre
    exact step_of_takeInput_some htake

end Sys2Proof.Machine
end

section
/-! PROOF. Everything a link event can do, said once (spec/20_memory.md R120 to R124; spec/43_sender.md; spec/44_receiver.md). -/

namespace Sys2Proof.Machine

/-! ## Before the continuation -/

/-- What a link event stores before the waiting command goes on: the byte received or sent, CANSEEN at a control position, the
data read's bytes, TXTO (20_memory.md R120, R121; 42_sequencer_common.md R309; 44_receiver.md R408). -/
inductive Stores (s : State) : Event → State → Prop
  | byte (b : Byte) (hpt : s.hid.pt.isRead = true) : Stores s (.rx b) (gather b s)
  | control (b c : Byte) (hpt : s.hid.pt.isControl = true) : Stores s (.rx b) (noteCan c (gather b s))
  | tail (b : Byte) (d : List Byte) (hpt : s.hid.pt = .rxdRd) : Stores s (.rx b) (takeTail d (gather b s))
  | taken (b : Byte) (hpt : s.hid.pt.isWrite = true) (hb : s.hid.ws[s.hid.wj]? = some b) : Stores s .txtake (sendByte b s)
  | readTick (hpt : s.hid.pt.isRead = true) : Stores s .tick s
  | tailTick (d : List Byte) (hpt : s.hid.pt = .rxdRd) : Stores s .tick (bufReceive d s)
  | writeTick (hpt : s.hid.pt.isWrite = true) : Stores s .tick (setTxto s)

/-! ## The continuation -/

/-- The code a command aborts with when a failure at this point exhausts its budget (R351, R355, R401, R404, R410). TX.BLK's
reply read has its own failure (R354). -/
def failCode : Point → Option ResultCode
  | .txnRd => some .negTimeout
  | .txeRd => some .ackTimeout
  | .rxnRd => some .negTimeout
  | .rxaRd => some .integrity
  | .rxdRd => some .integrity
  | .rxxRd => some .integrity
  | _ => none

/-- The LinkRead(1, STMO) that follows without a failure: CANSEEN's first CAN reads again, a write is followed by its read. -/
def nextRead : Point → Option Point
  | .txnRd => some .txnRd
  | .txbWr => some .txbRd
  | .txeWr => some .txeRd
  | .rxnWr => some .rxnRd
  | .rxaRd => some .rxaRd
  | .rxn2Wr => some .rxaRd
  | _ => none

/-- Everything a command can do next when its LinkRead or LinkWrite returns in `v` (43_sender.md, 44_receiver.md). -/
inductive Resumes (v : State) : State → Prop
  | peerCancel (hpt : v.hid.pt.isControl = true) : Resumes v (endPeerCancel v)
  | negotiated (u : Bool) (hpt : v.hid.pt = .txnRd) : Resumes v (txNegotiated u v)
  | declined (hpt : v.hid.pt = .txnRd) : Resumes v (abortWithCancel .declined v)
  | acked (hpt : v.hid.pt = .txbRd) : Resumes v (txBlkAcked v)
  | succeeded (hpt : v.hid.pt = .txeRd ∨ v.hid.pt = .rxeWr) : Resumes v (transferEnded v)
  | blockTaken (hpt : v.hid.pt = .rxkWr) : Resumes v (blockTaken v)
  | aborted (code : ResultCode) (hpt : v.hid.pt = .canWr code) : Resumes v (finishAbort code v)
  | exhausted (code : ResultCode) (hpt : failCode v.hid.pt = some code) (hl : limit v ≤ v.errCnt.toNat + 1) :
      Resumes v (abortWithCancel code (countFailure v))
  | blkExhausted (hpt : v.hid.pt = .txbRd) (hl : limit v ≤ v.errCnt.toNat + 1) :
      Resumes v (abortWithCancel .ackTimeout (emitProgress (countFailure v)))
  | retryBlk (hpt : v.hid.pt = .txbRd) (hl : v.errCnt.toNat + 1 < limit v) :
      Resumes v (sendFrame (emitProgress (countFailure v)))
  | retryNeg (hpt : v.hid.pt = .txnRd) (hl : v.errCnt.toNat + 1 < limit v) : Resumes v (readOne .txnRd (countFailure v))
  | retryEot (hpt : v.hid.pt = .txeRd) (hl : v.errCnt.toNat + 1 < limit v) : Resumes v (sendEot (countFailure v))
  | retryProbe (hpt : v.hid.pt = .rxnRd) (hl : v.errCnt.toNat + 1 < limit v) : Resumes v (sendProbe (countFailure v))
  | retryNak (hpt : v.hid.pt = .rxaRd) (hl : v.errCnt.toNat + 1 < limit v) : Resumes v (sendNak (countFailure v))
  | retryPurge (hpt : v.hid.pt = .rxaRd ∨ v.hid.pt = .rxdRd ∨ v.hid.pt = .rxxRd) (hl : v.errCnt.toNat + 1 < limit v) :
      Resumes v (startPurge (countFailure v))
  | reads (pt : Point) (hpt : nextRead v.hid.pt = some pt) : Resumes v (readOne pt v)
  | probe (hpt : v.hid.pt = .rxnRd) : Resumes v (sendProbe v)
  | rxNegotiated (p : BlockSize) (hpt : v.hid.pt = .rxnRd) : Resumes v (rxNegotiated p v)
  | eotEnd (hpt : v.hid.pt = .rxnRd ∨ v.hid.pt = .rxaRd) : Resumes v (eotEnd v)
  | block (p : BlockSize) (hpt : v.hid.pt = .rxaRd) : Resumes v (blockBody p v)
  | seqByte (b : Byte) (hpt : v.hid.pt = .rxsRd) : Resumes v (rxSeqByte b v)
  | drain (hpt : v.hid.pt = .rxsRd ∨ v.hid.pt = .rxcRd) : Resumes v (drain v)
  | readData (hpt : v.hid.pt = .rxcRd) : Resumes v (readData v)
  | accept (hpt : v.hid.pt = .rxdRd) : Resumes v (acceptBlock v)
  | purgeByte (hpt : v.hid.pt = .rxpRd) : Resumes v (purgeByte v)
  | purgeEnds (hpt : v.hid.pt = .rxpRd) : Resumes v (sendNak v)
  | purgeEndsDrawn (hpt : v.hid.pt = .rxpRd) : Resumes v (sendNak (drawPurge v))
  | purgeGoesOn (hpt : v.hid.pt = .rxpRd) : Resumes v (startPurge (drawPurge v))

/-! ## The continuation of each point -/

theorem failThen_resumes {v : State} {code : ResultCode} {retry : State → State} (hcode : failCode v.hid.pt = some code)
    (hretry : v.errCnt.toNat + 1 < limit v → Resumes v (retry (countFailure v))) : Resumes v (failThen code retry v) := by
  rcases failThen_cases code retry v with ⟨hl, he⟩ | ⟨hl, he⟩ <;> rw [he]
  · exact .exhausted code hcode hl
  · exact hretry hl

theorem txNegTimeout_resumes {v : State} (hpt : v.hid.pt = .txnRd) : Resumes v (txNegTimeout v) :=
  failThen_resumes (by rw [hpt]; rfl) (.retryNeg hpt)

theorem txBlkFailed_resumes {v : State} (hpt : v.hid.pt = .txbRd) : Resumes v (txBlkFailed v) := by
  unfold txBlkFailed exhausted
  split
  next h => exact .blkExhausted hpt (of_decide_eq_true h)
  next h => exact .retryBlk hpt (Nat.not_le.mp fun hl => h (decide_eq_true hl))

theorem txEotFailed_resumes {v : State} (hpt : v.hid.pt = .txeRd) : Resumes v (txEotFailed v) :=
  failThen_resumes (by rw [hpt]; rfl) (.retryEot hpt)

theorem rxNegTimeout_resumes {v : State} (hpt : v.hid.pt = .rxnRd) : Resumes v (rxNegTimeout v) :=
  failThen_resumes (by rw [hpt]; rfl) (.retryProbe hpt)

theorem rxStartTimeout_resumes {v : State} (hpt : v.hid.pt = .rxaRd) : Resumes v (rxStartTimeout v) :=
  failThen_resumes (by rw [hpt]; rfl) (.retryNak hpt)

theorem failPurge_resumes {v : State} (hpt : v.hid.pt = .rxaRd ∨ v.hid.pt = .rxdRd ∨ v.hid.pt = .rxxRd) :
    Resumes v (failPurge v) :=
  failThen_resumes (by rcases hpt with h | h | h <;> rw [h] <;> rfl) (.retryPurge hpt)

theorem purgeTimeout_resumes {v : State} (hpt : v.hid.pt = .rxpRd) : Resumes v (purgeTimeout v) := by
  rcases purgeTimeout_cases v with ⟨-, he⟩ | ⟨-, he | he⟩ <;> rw [he]
  · exact .purgeEnds hpt
  · exact .purgeEndsDrawn hpt
  · exact .purgeGoesOn hpt

/-- What CancelCheck leaves for the rest of a control position: the byte noted in CANSEEN, or, on the cancel, nothing (R309). -/
def Noted (u w : State) : Prop := w = u ∨ u.hid.pt.isControl = true ∧ ∃ c, w = noteCan c u

/-- A byte at a control position: the peer's cancel ends the command, and any other byte is noted first. -/
theorem control_resumes {u : State} {b : Byte} {first other : State} (hpt : u.hid.pt.isControl = true)
    (hfirst : Resumes (noteCan b u) first) (hother : Resumes (noteCan b u) other) :
    ∃ w, Noted u w ∧ Resumes w (match cancelKind b u.status.canSeen with
      | .peerCancel => endPeerCancel u
      | .firstCan => first
      | .other => other) := by
  split
  · exact ⟨u, .inl rfl, .peerCancel hpt⟩
  · exact ⟨_, .inr ⟨hpt, b, rfl⟩, hfirst⟩
  · exact ⟨_, .inr ⟨hpt, b, rfl⟩, hother⟩

theorem txNegByte_resumes {u : State} (b : Byte) (hpt : u.hid.pt = .txnRd) :
    ∃ w, Noted u w ∧ Resumes w (txNegByte b u) := by
  have hnote : (noteCan b u).hid.pt = .txnRd := hpt
  refine control_resumes (by rw [hpt]; rfl) (.reads _ (by rw [hnote]; rfl)) ?_
  split
  · exact .negotiated _ hnote
  split
  · exact .negotiated _ hnote
  split
  · exact .declined hnote
  · exact txNegTimeout_resumes hnote

theorem txBlkByte_resumes {u : State} (b : Byte) (hpt : u.hid.pt = .txbRd) :
    ∃ w, Noted u w ∧ Resumes w (txBlkByte b u) := by
  have hnote : (noteCan b u).hid.pt = .txbRd := hpt
  refine control_resumes (by rw [hpt]; rfl) (txBlkFailed_resumes hnote) ?_
  split
  · exact .acked hnote
  · exact txBlkFailed_resumes hnote

theorem txEotByte_resumes {u : State} (b : Byte) (hpt : u.hid.pt = .txeRd) :
    ∃ w, Noted u w ∧ Resumes w (txEotByte b u) := by
  have hnote : (noteCan b u).hid.pt = .txeRd := hpt
  refine control_resumes (by rw [hpt]; rfl) (txEotFailed_resumes hnote) ?_
  split
  · exact .succeeded (.inl hnote)
  · exact txEotFailed_resumes hnote

theorem rxNegByte_resumes {u : State} (b : Byte) (hpt : u.hid.pt = .rxnRd) :
    ∃ w, Noted u w ∧ Resumes w (rxNegByte b u) := by
  have hnote : (noteCan b u).hid.pt = .rxnRd := hpt
  refine control_resumes (by rw [hpt]; rfl) (.probe hnote) ?_
  split
  · exact .rxNegotiated _ hnote
  split
  · exact .eotEnd (.inl hnote)
  · exact rxNegTimeout_resumes hnote

theorem rxStartByte_resumes {u : State} (b : Byte) (hpt : u.hid.pt = .rxaRd) :
    ∃ w, Noted u w ∧ Resumes w (rxStartByte b u) := by
  have hnote : (noteCan b u).hid.pt = .rxaRd := hpt
  refine control_resumes (by rw [hpt]; rfl) (.reads _ (by rw [hnote]; rfl)) ?_
  split
  · exact .eotEnd (.inr hnote)
  split
  · exact .block _ hnote
  · exact failPurge_resumes (.inl hnote)

theorem rxCompByte_resumes {v : State} (b : Byte) (hpt : v.hid.pt = .rxcRd) : Resumes v (rxCompByte b v) := by
  unfold rxCompByte
  split
  · exact .readData hpt
  · exact .drain (.inr hpt)

theorem rxDataComplete_resumes {v : State} (d : List Byte) (hpt : v.hid.pt = .rxdRd) :
    Resumes (takeTail d v) (rxDataComplete d v) := by
  unfold rxDataComplete
  split
  · exact .accept hpt
  · exact failPurge_resumes (.inr (.inl hpt))

/-! ## The events -/

/-- Everything a link event can do (20_memory.md R120, R121; 60_exceptions.md R520): a tick while nothing waits, a primitive that
goes on, or one that returns and lets its command go on. -/
inductive LinkMove (s : State) : Event → State → Prop
  | ignored (hpt : s.hid.pt = .idle) : LinkMove s .tick s
  | counted (hpt : s.hid.pt.isRead = true ∨ s.hid.pt.isWrite = true) : LinkMove s .tick (countTick s)
  | gathered (b : Byte) (hpt : s.hid.pt.isRead = true) (hk : s.hid.rk + 1 ≠ s.hid.rn) : LinkMove s (.rx b) (gather b s)
  | sent (b : Byte) (hpt : s.hid.pt.isWrite = true) (hb : s.hid.ws[s.hid.wj]? = some b)
      (hj : s.hid.wj + 1 ≠ s.hid.ws.length) : LinkMove s .txtake (sendByte b s)
  | resumed {e : Event} {v t : State} (hv : Stores s e v) (ht : Resumes v t) : LinkMove s e t

/-- A control byte's continuation, as the move of the event that completed its read. -/
theorem LinkMove.of_noted {s t : State} {b : Byte} (hpt : s.hid.pt.isRead = true)
    (h : ∃ w, Noted (gather b s) w ∧ Resumes w t) : LinkMove s (.rx b) t := by
  obtain ⟨w, rfl | ⟨hc, c, rfl⟩, hr⟩ := h
  · exact .resumed (.byte b hpt) hr
  · exact .resumed (.control b c hc) hr

theorem readDone_move {s t : State} {b : Byte} (hpt : s.hid.pt.isRead = true) (h : readDone (gather b s) b = .next t) :
    LinkMove s (.rx b) t := by
  unfold readDone at h
  split at h
  case h_1 hp => cases h; exact .of_noted hpt (txNegByte_resumes _ hp)
  case h_2 hp => cases h; exact .of_noted hpt (txBlkByte_resumes _ hp)
  case h_3 hp => cases h; exact .of_noted hpt (txEotByte_resumes _ hp)
  case h_4 hp => cases h; exact .of_noted hpt (rxNegByte_resumes _ hp)
  case h_5 hp => cases h; exact .of_noted hpt (rxStartByte_resumes _ hp)
  case h_6 hp => cases h; exact .resumed (.byte b hpt) (.seqByte _ hp)
  case h_7 hp => cases h; exact .resumed (.byte b hpt) (rxCompByte_resumes _ hp)
  case h_8 hp =>
    split at h
    · cases h; exact .resumed (.tail b _ hp) (rxDataComplete_resumes _ hp)
    · cases h
  case h_9 hp => cases h; exact .resumed (.byte b hpt) (failPurge_resumes (.inr (.inr hp)))
  case h_10 hp => cases h; exact .resumed (.byte b hpt) (.purgeByte hp)
  all_goals
    next hp => cases hpt.symm.trans (congrArg Point.isRead hp)

theorem readTimeout_move {s : State} (hpt : s.hid.pt.isRead = true) : LinkMove s .tick (readTimeout s) := by
  unfold readTimeout
  split
  case h_1 hp => exact .resumed (.readTick hpt) (txNegTimeout_resumes hp)
  case h_2 hp => exact .resumed (.readTick hpt) (txBlkFailed_resumes hp)
  case h_3 hp => exact .resumed (.readTick hpt) (txEotFailed_resumes hp)
  case h_4 hp => exact .resumed (.readTick hpt) (rxNegTimeout_resumes hp)
  case h_5 hp => exact .resumed (.readTick hpt) (rxStartTimeout_resumes hp)
  case h_6 hp => exact .resumed (.readTick hpt) (.drain (.inl hp))
  case h_7 hp => exact .resumed (.readTick hpt) (.drain (.inr hp))
  case h_8 hp => exact .resumed (.tailTick _ hp) (failPurge_resumes (.inr (.inl hp)))
  case h_9 hp => exact .resumed (.readTick hpt) (failPurge_resumes (.inr (.inr hp)))
  case h_10 hp => exact .resumed (.readTick hpt) (purgeTimeout_resumes hp)
  all_goals
    next hp => cases hpt.symm.trans (congrArg Point.isRead hp)

theorem writeDone_resumes {v : State} (hpt : v.hid.pt.isWrite = true) : Resumes v (writeDone v) := by
  unfold writeDone
  split
  case h_1 hp => exact .reads _ (by rw [hp]; rfl)
  case h_2 hp => exact .reads _ (by rw [hp]; rfl)
  case h_3 hp => exact .reads _ (by rw [hp]; rfl)
  case h_4 hp => exact .blockTaken hp
  case h_5 hp => exact .reads _ (by rw [hp]; rfl)
  case h_6 hp => exact .succeeded (.inr hp)
  case h_7 hp => exact .aborted _ hp
  all_goals
    next hp => cases hpt.symm.trans (congrArg Point.isWrite hp)

/-- The link events: the ones that the link and the timebase raise (20_memory.md R120, R121; 60_exceptions.md R520). -/
def Event.isLink : Event → Bool
  | .rx _ => true
  | .txtake => true
  | .tick => true
  | _ => false

/-- What handling an enabled link event can do. -/
theorem handle_link {e : Event} {s t : State} (he : e.isLink = true) (hen : Event.enabled s.hid.pt e = true)
    (h : handle e s = .next t) : LinkMove s e t := by
  cases e with
  | rx b =>
    rcases onRx_cases b s with ⟨-, ho⟩ | ⟨hk, ho⟩ <;> rw [handle, ho] at h
    · exact readDone_move hen h
    · cases h; exact .gathered b hen hk
  | txtake =>
    rcases onTake_cases s with ⟨-, ho⟩ | ⟨b, hb, ⟨-, ho⟩ | ⟨hj, ho⟩⟩ <;> rw [handle, ho] at h <;> cases h
    · exact .resumed (.taken b hen hb) (writeDone_resumes hen)
    · exact .sent b hen hb hj
  | tick =>
    cases h
    rcases onTick_cases s with ⟨hp, -, ho⟩ | ⟨hp, -, ho⟩ | ⟨hp, -, ho⟩ | ⟨hr, hw, ho⟩ <;> rw [ho]
    · exact readTimeout_move hp
    · exact .resumed (.writeTick hp) (writeDone_resumes hp)
    · exact .counted hp
    · exact .ignored (Point.idle_of_not_read_write hr hw)
  | hostWr width off v => cases he
  | hostRd width off => cases he
  | reset => cases he

end Sys2Proof.Machine
end

section
/-! PROOF. Everything a command's accepting step and a host access can do, said once (spec/20_memory.md R101 to R108;
spec/42_sequencer_common.md R302). -/

namespace Sys2Proof.Machine

/-! ## The accepting step -/

/-- What the immediate commands may write before they complete (40_integrity.md R208 to R212, 41_framing.md R259 to R261). -/
def setEngine (crc : Half) (csum : Byte) (hdr : BitVec 24) (trl : Half) (valid : Bool) (s : State) : State :=
  { s with crc := crc, csum := csum, hdr := hdr, trl := trl, status := { s.status with valid := valid } }

/-- Everything the accepting step of a command can do. -/
inductive Accepts (s : State) : Instr → State → Prop
  | immediate {i : Instr} (hi : isImmediate i = true) (code : ResultCode) (hcode : code ≠ .none) (crc : Half) (csum : Byte)
      (hdr : BitVec 24) (trl : Half) (valid : Bool) :
      Accepts s i (complete code (setEngine crc csum hdr trl valid s))
  | rejected {i : Instr} (code : ResultCode) (hcode : code ≠ .none) : Accepts s i (complete code s)
  | txNeg (hm : modeLegal s.ctrl.mode = true) : Accepts s .txNeg (readOne .txnRd (sessionOpen (startCmd .txNeg s)))
  | txBlk (hp : s.status.phase = .tx) (hlen : txLenLegal s.txLen (txSize s.sessCfg) = true) :
      Accepts s .txBlk (sendFrame (buildFrame (startCmd .txBlk s)))
  | txEot (hp : s.status.phase = .tx) : Accepts s .txEot (sendEot (clearErrors (startCmd .txEot s)))
  | rxNeg (hm : modeLegal s.ctrl.mode = true) : Accepts s .rxNeg (sendProbe (sessionOpen (startCmd .rxNeg s)))
  | rxBlk (hp : s.status.phase = .rx) : Accepts s .rxBlk (awaitStart (startCmd .rxBlk s))

theorem exec_accepts {i : Instr} {s t : State} (h : exec i s = .next t) : Accepts s i t := by
  cases i with
  | engClr => cases h; exact .immediate rfl .ok nofun 0 0 s.hdr s.trl s.status.valid
  | engLdcrc c => cases h; exact .immediate rfl .ok nofun c s.csum s.hdr s.trl s.status.valid
  | engLdsum b => cases h; exact .immediate rfl .ok nofun s.crc b s.hdr s.trl s.status.valid
  | engFeed b => cases h; exact .immediate rfl .ok nofun _ _ s.hdr s.trl s.status.valid
  | engFeedbuf n =>
    simp only [exec, execEngFeedbuf] at h
    split at h <;> cases h
    · exact .immediate rfl .ok nofun _ _ s.hdr s.trl s.status.valid
    · exact .rejected .badLength nofun
  | frmHdr size seq =>
    simp only [exec, execFrmHdr] at h
    split at h <;> cases h
    · exact .rejected .invalidMode nofun
    · exact .immediate rfl .ok nofun s.crc s.csum _ s.trl s.status.valid
  | frmTrl size u =>
    simp only [exec, execFrmTrl] at h
    split at h <;> cases h
    · exact .rejected .invalidMode nofun
    · exact .immediate rfl .ok nofun _ _ s.hdr _ s.status.valid
  | frmChk size u =>
    simp only [exec, execFrmChk] at h
    split at h <;> cases h
    · exact .rejected .invalidMode nofun
    · exact .immediate rfl .ok nofun _ _ s.hdr s.trl _
  | txNeg =>
    simp only [exec, execTxNeg] at h
    split at h <;> cases h
    · exact .txNeg ‹_›
    · exact .rejected .invalidMode nofun
  | txBlk =>
    simp only [exec, execTxBlk] at h
    split at h
    · cases h; exact .rejected .badCmd nofun
    · split at h <;> cases h
      · exact .txBlk (not_ne_iff.mp ‹_›) ‹_›
      · exact .rejected .badLength nofun
  | txEot =>
    simp only [exec, execTxEot] at h
    split at h <;> cases h
    · exact .rejected .badCmd nofun
    · exact .txEot (not_ne_iff.mp ‹_›)
  | rxNeg =>
    simp only [exec, execRxNeg] at h
    split at h <;> cases h
    · exact .rxNeg ‹_›
    · exact .rejected .invalidMode nofun
  | rxBlk =>
    simp only [exec, execRxBlk] at h
    split at h <;> cases h
    · exact .rejected .badCmd nofun
    · exact .rxBlk (not_ne_iff.mp ‹_›)

/-! ## The host's write -/

/-- Everything a 32-bit write of `v` at an offset can do (20_memory.md R102, R105, R107; 42_sequencer_common.md R302): nothing,
STATUS's write-1-to-clear, the record of a dropped command, a command word, or the store of a plain register or of a buffer byte. -/
inductive HostMove (v : Word) (s : State) : Byte → State → Prop
  | ignored (off : Byte) : HostMove v s off s
  | status : HostMove v s 0x10#8 { s with status := Status.write v s.status }
  | overrun (hb : s.status.busy = true) : HostMove v s 0x0C#8 (overrun s)
  | badCmd (hb : s.status.busy = false) : HostMove v s 0x0C#8 (complete .badCmd (accept (fieldB v) (fieldH v) s))
  | command {i : Instr} {t : State} (hb : s.status.busy = false) (hd : decode v = .ok i)
      (ht : Accepts (accept (fieldB v) (fieldH v) s) i t) : HostMove v s 0x0C#8 t
  | seq (hb : s.status.busy = false) : HostMove v s 0x1C#8 { s with seq := v.setWidth 8 }
  | bufData (hb : s.status.busy = false) : HostMove v s 0x50#8 (bufStore v s)
  | plain (off : Byte) (hb : s.status.busy = false) (ctrl : Ctrl) (timeout trl : Half) (txLen : BitVec 11)
      (bufAddr : BitVec 10) :
      HostMove v s off
        { s with ctrl := ctrl, timeout := timeout, trl := trl, txLen := txLen, bufAddr := bufAddr }

/-- A write that only an idle block performs: dropped, or the register's own store. -/
theorem HostMove.of_whenIdle {v : Word} {off : Byte} {f : State → State} {s : State}
    (h : s.status.busy = false → HostMove v s off (f s)) : HostMove v s off (whenIdle f s) := by
  rcases whenIdle_cases f s with ⟨-, he⟩ | ⟨hb, he⟩ <;> rw [he]
  · exact .ignored off
  · exact h hb

theorem submit_move {v : Word} {s t : State} (h : submit v s = .next t) : HostMove v s 0x0C#8 t := by
  rcases submit_cases v s with ⟨hb, he⟩ | ⟨hb, ⟨op, -, he⟩ | ⟨i, hd, he⟩⟩ <;> rw [he] at h
  · cases h; exact .overrun hb
  · cases h; exact .badCmd hb
  · exact .command hb hd (exec_accepts h)

/-- STATUS sits at one offset. -/
theorem regAt_status {off : Byte} (h : regAt off = some .status) : off = 0x10#8 := by
  unfold regAt at h
  split at h <;> simp_all

theorem writeReg_move {r : Reg} {off : Byte} {v : Word} {s t : State} (hr : regAt off = some r)
    (h : writeReg r v s = .next t) : HostMove v s off t := by
  cases r
  case cmd => cases regAt_cmd hr; exact submit_move h
  case status => cases regAt_status hr; cases h; exact .status
  case seq => cases regAt_seq hr; cases h; exact .of_whenIdle .seq
  case bufData => cases regAt_bufData hr; cases h; exact .of_whenIdle .bufData
  case ctrl => cases h; exact .of_whenIdle fun hb => .plain off hb _ s.timeout s.trl s.txLen s.bufAddr
  case timeout => cases h; exact .of_whenIdle fun hb => .plain off hb s.ctrl _ s.trl s.txLen s.bufAddr
  case trl => cases h; exact .of_whenIdle fun hb => .plain off hb s.ctrl s.timeout _ s.txLen s.bufAddr
  case txLen => cases h; exact .of_whenIdle fun hb => .plain off hb s.ctrl s.timeout s.trl _ s.bufAddr
  case bufAddr => cases h; exact .of_whenIdle fun hb => .plain off hb s.ctrl s.timeout s.trl s.txLen _
  all_goals cases h; exact .ignored off

/-- A host write does nothing unless it is 32 bits wide (20_memory.md R101). -/
theorem hostWrite_cases {width : Nat} {off : Byte} {v : Word} {s t : State} (h : hostWrite width off v s = .next t) :
    t = s ∨ width = 32 ∧ HostMove v s off t := by
  unfold hostWrite at h
  split at h
  · cases h; exact .inl rfl
  · next r hr =>
    obtain ⟨hw, -, hreg⟩ := target_eq_some hr
    exact .inr ⟨hw, writeReg_move hreg h⟩

/-- A host read appends the value read and touches at most BUFADDR. -/
theorem hostRead_eq (width : Nat) (off : Byte) (s : State) :
    ∃ v a, hostRead width off s = { s with reads := s.reads ++ [v], bufAddr := a } := by
  unfold hostRead
  split
  · exact ⟨0, s.bufAddr, rfl⟩
  · next r _ =>
    cases r
    case bufData =>
      simp only [readEffect]
      split
      · exact ⟨_, s.bufAddr, rfl⟩
      · exact ⟨_, s.bufAddr + 1, rfl⟩
    all_goals exact ⟨_, s.bufAddr, rfl⟩

end Sys2Proof.Machine
end

section
/-! PROOF. Every step keeps the invariant of the block (spec/10_state.md R53 to R56; spec/42_sequencer_common.md R301 to R312). -/

namespace Sys2Proof.Machine

/-! ## A running command and where it waits -/

/-- A command runs, in a block whose buffer, latched mode and RXLEN are as the invariant has them. -/
def Running (s : State) : Prop :=
  s.buf.wf = true ∧ modeLegal s.sessCfg.mode = true ∧ (s.rxLen = 0 ∨ s.rxLen = 128 ∨ s.rxLen = 1024) ∧
    s.status.busy = true ∧ s.status.done = false ∧ s.status.result = .none

/-- FR is the frame of SEQ (43_sender.md R353). -/
def FrameBuilt (s : State) : Prop :=
  (framePayload s).length = (txSize s.sessCfg).bytes ∧
    s.hid.fr = header (txSize s.sessCfg) s.seq ++ framePayload s ++ trailer s.status.useCrc (framePayload s)

/-- ERRCNT is at most Limit, and below it in an open phase (42_sequencer_common.md R308). -/
def IdleBudget (s : State) : Prop := s.errCnt.toNat ≤ limit s ∧ (s.status.phase ≠ .idle → s.errCnt.toNat < limit s)

/-- What the invariant asks of a running command that waits at `pt`, its LinkRead or LinkWrite apart. -/
structure Fits (pt : Point) (s : State) : Prop where
  cmd : cmdFits pt s.hid.cmd = true
  phase : phaseFits pt s.status.phase = true
  budget : s.errCnt.toNat ≤ limit s
  below : pt.code ≠ 0x30#8 → s.errCnt.toNat < limit s
  frame : pt = .txbWr ∨ pt = .txbRd → FrameBuilt s
  trailer : pt = .rxsRd ∨ pt = .rxcRd ∨ pt = .rxdRd ∨ pt = .rxxRd → s.hid.t = trailerLen s.status.useCrc
  probe : pt = .rxnWr ∨ pt = .rxnRd → s.hid.lastProbe = CRQ ∨ s.hid.lastProbe = NAK

/-- A point where a command waits is no idle point. -/
theorem Point.ne_idle {pt : Point} (h : pt.isRead = true ∨ pt.isWrite = true) : pt ≠ .idle := by
  rintro rfl
  exact h.elim nofun nofun

/-- No LinkRead waits at the abort's write. -/
theorem Point.code_ne_of_isRead {pt : Point} (h : pt.isRead = true) : pt.code ≠ 0x30#8 := by
  cases pt <;> simp [Point.isRead, Point.code] at h ⊢

/-- The invariant of a state whose command waits. -/
theorem blockInv_of_waiting {t : State} (hpt : t.hid.pt.isRead = true ∨ t.hid.pt.isWrite = true) (hr : Running t)
    (hf : Fits t.hid.pt t) (hl : LinkOk t) : BlockInv t := by
  obtain ⟨hbuf, hmode, hlen, hbusy, hdone, hres⟩ := hr
  have hne := Point.ne_idle hpt
  refine ⟨hbuf, hmode, ⟨⟨fun _ => hne, fun _ => hbusy⟩, hf.cmd, hf.phase, fun _ => ⟨hdone, hres⟩, ?_⟩,
    ⟨hf.budget, ?_⟩, hl, hf.frame, hf.trailer, hf.probe, hlen⟩
  · rw [hdone]; nofun
  · rintro (h | ⟨-, h⟩ | ⟨-, h⟩)
    · exact hf.below (Point.code_ne_of_isRead h)
    · exact hf.below h
    · exact absurd h hne

/-- The invariant at the start of a LinkRead (R120). -/
theorem blockInv_beginRead {pt : Point} {n : Nat} {tmo : Half} {s : State} (hr : Running s) (hf : Fits pt s)
    (hpt : pt.isRead = true) (hn : n = readCount s pt) (hpos : 0 < n) : BlockInv (beginRead pt n tmo s) := by
  refine blockInv_of_waiting (.inl hpt) hr ⟨hf.cmd, hf.phase, hf.budget, hf.below, hf.frame, hf.trailer, hf.probe⟩
    ⟨fun _ => ⟨?_, rfl, hpos⟩, fun hw => absurd ⟨hpt, hw⟩ pt.not_read_and_write⟩
  rw [beginRead_hid, hn]
  cases pt <;> rfl

/-- The invariant at the start of a LinkRead(1, STMO). -/
theorem blockInv_readOne {pt : Point} {s : State} (hr : Running s) (hf : Fits pt s) (hpt : pt.isRead = true)
    (hn : readCount s pt = 1) : BlockInv (readOne pt s) :=
  blockInv_beginRead hr hf hpt hn.symm Nat.one_pos

/-- The invariant at the start of a LinkWrite (R121). -/
theorem blockInv_beginWrite {pt : Point} {ws : List Byte} {s : State} (hr : Running s) (hf : Fits pt s)
    (hpt : pt.isWrite = true) (hw : ws = writeBytes s pt) (hpos : 0 < ws.length) : BlockInv (beginWrite pt ws s) := by
  refine blockInv_of_waiting (.inr hpt) hr ⟨hf.cmd, hf.phase, hf.budget, hf.below, hf.frame, hf.trailer, hf.probe⟩
    ⟨fun hread => absurd ⟨hread, hpt⟩ pt.not_read_and_write, fun _ => ⟨?_, hpos⟩⟩
  rw [beginWrite_hid, hw]
  cases pt <;> rfl

/-- The invariant where a command ends (R305). -/
theorem blockInv_complete {code : ResultCode} {s : State} (hr : Running s) (hb : IdleBudget s) (hcode : code ≠ .none) :
    BlockInv (complete code s) := by
  obtain ⟨hbuf, hmode, hlen, -, -, -⟩ := hr
  refine ⟨hbuf, hmode, ⟨⟨nofun, fun h => absurd rfl h⟩, rfl, rfl, nofun, fun _ => hcode⟩, ⟨hb.1, ?_⟩, ⟨nofun, nofun⟩,
    nofun, nofun, nofun, hlen⟩
  rintro (h | ⟨h, -⟩ | ⟨h, -⟩)
  · cases h
  · cases h
  · exact hb.2 h

/-! ## The invariant while a primitive returns -/

/-- The invariant without its clause on the LinkRead or LinkWrite in progress. -/
structure PointOk (s : State) : Prop where
  buf : s.buf.wf = true
  mode : modeLegal s.sessCfg.mode = true
  control : ControlOk s
  budget : BudgetOk s
  frame : FrameOk s
  receiver : ReceiverOk s

theorem BlockInv.pointOk {s : State} (h : BlockInv s) : PointOk s := by
  obtain ⟨hbuf, hmode, hcontrol, hbudget, -, hframe, hreceiver⟩ := h
  exact ⟨hbuf, hmode, hcontrol, hbudget, hframe, hreceiver⟩

theorem BlockInv.linkOk {s : State} (h : BlockInv s) : LinkOk s := by
  obtain ⟨-, -, -, -, hlink, -⟩ := h
  exact hlink

theorem PointOk.blockInv {s : State} (h : PointOk s) (hl : LinkOk s) : BlockInv s :=
  ⟨h.buf, h.mode, h.control, h.budget, hl, h.frame, h.receiver⟩

theorem PointOk.gather {s : State} (h : PointOk s) (b : Byte) : PointOk (gather b s) :=
  ⟨h.buf, h.mode, h.control, h.budget, h.frame, h.receiver⟩

theorem PointOk.noteCan {s : State} (h : PointOk s) (c : Byte) : PointOk (noteCan c s) :=
  ⟨h.buf, h.mode, h.control, h.budget, h.frame, h.receiver⟩

theorem PointOk.bufReceive {s : State} (h : PointOk s) (d : List Byte) : PointOk (bufReceive d s) :=
  ⟨bufReceive_wf d h.buf, h.mode, h.control, h.budget, h.frame, h.receiver⟩

theorem PointOk.takeTail {s : State} (h : PointOk s) (d : List Byte) : PointOk (takeTail d s) :=
  have hb := h.bufReceive d
  ⟨hb.buf, hb.mode, hb.control, hb.budget, hb.frame, hb.receiver⟩

theorem PointOk.sendByte {s : State} (h : PointOk s) (b : Byte) : PointOk (sendByte b s) :=
  ⟨h.buf, h.mode, h.control, h.budget, h.frame, h.receiver⟩

theorem PointOk.setTxto {s : State} (h : PointOk s) : PointOk (setTxto s) :=
  ⟨h.buf, h.mode, h.control, h.budget, h.frame, h.receiver⟩

/-- What a link event stores keeps everything but the progress of its LinkRead or LinkWrite. -/
theorem Stores.pointOk {s v : State} {e : Event} (hv : Stores s e v) (h : PointOk s) : PointOk v := by
  cases hv with
  | byte b => exact h.gather b
  | control b c => exact (h.gather b).noteCan c
  | tail b d => exact (h.gather b).takeTail d
  | taken b => exact h.sendByte b
  | readTick => exact h
  | tailTick d => exact h.bufReceive d
  | writeTick => exact h.setTxto

/-- At a point where a command waits, it runs. -/
theorem PointOk.running {s : State} (h : PointOk s) (hpt : s.hid.pt ≠ .idle) : Running s := by
  obtain ⟨hbusy, -, -, hdone, -⟩ := h.control
  obtain ⟨-, -, hlen⟩ := h.receiver
  exact ⟨h.buf, h.mode, hlen, hbusy.mpr hpt, hdone (hbusy.mpr hpt)⟩

/-- A waiting command fits its point. -/
theorem PointOk.fits {s : State} {pt : Point} (h : PointOk s) (hpt : s.hid.pt = pt) (hne : pt ≠ .idle) : Fits pt s := by
  obtain ⟨-, hcmd, hphase, -⟩ := h.control
  obtain ⟨hle, hlt⟩ := h.budget
  obtain ⟨htrailer, hprobe, -⟩ := h.receiver
  subst hpt
  refine ⟨hcmd, hphase, hle, fun hc => ?_, h.frame, htrailer, hprobe⟩
  cases hr : s.hid.pt.isRead with
  | true => exact hlt (.inl hr)
  | false =>
    refine hlt (.inr (.inl ⟨?_, hc⟩))
    cases hw : s.hid.pt.isWrite with
    | true => rfl
    | false => exact absurd (Point.idle_of_not_read_write hr hw) hne

/-! ## Retry accounting -/

theorem limit_pos (s : State) : 0 < limit s := (limit_bounds s).1

/-- Below the limit, counting a failure does not wrap. -/
theorem countFailure_errCnt_toNat {s : State} (h : s.errCnt.toNat < limit s) :
    (countFailure s).errCnt.toNat = s.errCnt.toNat + 1 := by
  have := (limit_bounds s).2
  rw [countFailure_errCnt, BitVec.toNat_add]
  exact Nat.mod_eq_of_lt (by simp; omega)

/-- A failure that leaves budget leaves ERRCNT below the limit. -/
theorem countFailure_below {s : State} (h : s.errCnt.toNat + 1 < limit s) :
    (countFailure s).errCnt.toNat < limit (countFailure s) := by
  rw [countFailure_errCnt_toNat (by omega)]
  exact h

/-- A counted failure keeps ERRCNT at most the limit. -/
theorem countFailure_budget {s : State} (h : s.errCnt.toNat < limit s) :
    (countFailure s).errCnt.toNat ≤ limit (countFailure s) := by
  rw [countFailure_errCnt_toNat h]
  exact h

/-! ## The ends and the abort -/

/-- A command that ends with the session closed. -/
theorem blockInv_closed {code : ResultCode} {s : State} (hr : Running s) (hb : s.errCnt.toNat ≤ limit s)
    (hcode : code ≠ .none) : BlockInv (complete code (setPhase .idle s)) :=
  blockInv_complete hr ⟨hb, fun h => absurd rfl h⟩ hcode

/-- The abort's write of two CANs (R306). -/
theorem blockInv_abort {code : ResultCode} {s : State} (hr : Running s) (hb : s.errCnt.toNat ≤ limit s)
    (hcmd : cmdFits (.canWr code) s.hid.cmd = true) : BlockInv (abortWithCancel code s) :=
  blockInv_beginWrite hr ⟨hcmd, rfl, hb, fun h => absurd rfl h, by simp, by simp, by simp⟩ rfl rfl (by simp)

/-! ## The points -/

theorem Point.isRead_of_isControl {pt : Point} (h : pt.isControl = true) : pt.isRead = true := by
  cases pt <;> simp [Point.isControl, Point.isRead] at h ⊢

/-- Failures are counted at reads, and the abort belongs to the command that failed. -/
theorem failCode_fits {pt : Point} {code : ResultCode} (h : failCode pt = some code) :
    pt.isRead = true ∧ ∀ c, cmdFits pt c = true → cmdFits (.canWr code) c = true := by
  cases pt <;> cases h <;> simp [Point.isRead, cmdFits]

/-- The read that follows without a failure asks for one byte. -/
theorem nextRead_isRead {pt pt' : Point} (h : nextRead pt = some pt') :
    pt ≠ .idle ∧ pt'.isRead = true ∧ ∀ s, readCount s pt' = 1 := by
  cases pt <;> cases h <;> simp [Point.isRead, readCount]

/-- A command that goes on to its next LinkRead(1, STMO) fits there. -/
theorem Fits.nextRead {pt pt' : Point} {s : State} (hf : Fits pt s) (h : nextRead pt = some pt') : Fits pt' s := by
  obtain ⟨hcmd, hphase, hbudget, hbelow, hframe, -, hprobe⟩ := hf
  cases pt <;> cases h
  all_goals
    refine ⟨?_, ?_, hbudget, fun _ => hbelow (by decide), ?_, by simp, ?_⟩
    all_goals simp_all [cmdFits, phaseFits]

/-- The points of block reception with the phase at RX, the end of a transfer apart (R403 to R410). -/
def Point.isReception : Point → Bool
  | .rxaRd => true
  | .rxsRd => true
  | .rxcRd => true
  | .rxdRd => true
  | .rxxRd => true
  | .rxpRd => true
  | .rxkWr => true
  | .rxn2Wr => true
  | _ => false

/-- A command that receives a block, as RX.NEG does after its negotiation and RX.BLK does (R401, R403). -/
def InReception (s : State) : Prop := (s.hid.cmd = some .rxNeg ∨ s.hid.cmd = some .rxBlk) ∧ s.status.phase = .rx

theorem Fits.inReception {pt : Point} {s : State} (hf : Fits pt s) (hpt : pt.isReception = true) : InReception s := by
  have hcmd := hf.cmd
  have hphase := hf.phase
  cases pt <;> cases hpt <;> simpa [cmdFits, phaseFits, InReception] using And.intro hcmd hphase

theorem InReception.fits {pt : Point} {s : State} (h : InReception s) (hpt : pt.isReception = true)
    (hb : s.errCnt.toNat < limit s)
    (ht : pt = .rxsRd ∨ pt = .rxcRd ∨ pt = .rxdRd ∨ pt = .rxxRd → s.hid.t = trailerLen s.status.useCrc) :
    Fits pt s := by
  obtain ⟨hcmd, hphase⟩ := h
  refine ⟨?_, ?_, hb.le, fun _ => hb, ?_, ht, ?_⟩
  · cases pt <;> cases hpt <;> simpa [cmdFits] using hcmd
  · cases pt <;> cases hpt <;> simpa [phaseFits] using hphase
  · rintro (rfl | rfl) <;> cases hpt
  · rintro (rfl | rfl) <;> cases hpt

/-! ## Starting the next LinkRead or LinkWrite -/

/-- The probe is 'C' or NAK (R401). -/
theorem probeByte_cases (s : State) : probeByte s = CRQ ∨ probeByte s = NAK := by
  unfold probeByte
  split
  · exact .inl rfl
  · exact .inr rfl

theorem blockInv_sendProbe {s : State} (hr : Running s) (hc : s.hid.cmd = some .rxNeg) (hp : s.status.phase = .idle)
    (hb : s.errCnt.toNat < limit s) : BlockInv (sendProbe s) :=
  blockInv_beginWrite hr ⟨by simp [hc, cmdFits], by simp [hp, phaseFits], hb.le, fun _ => hb, by simp, by simp,
    fun _ => probeByte_cases s⟩ rfl rfl Nat.one_pos

theorem blockInv_sendEot {s : State} (hr : Running s) (hc : s.hid.cmd = some .txEot) (hp : s.status.phase = .tx)
    (hb : s.errCnt.toNat < limit s) : BlockInv (sendEot s) :=
  blockInv_beginWrite hr ⟨by simp [hc, cmdFits], by simp [hp, phaseFits], hb.le, fun _ => hb, by simp, by simp, by simp⟩
    rfl rfl Nat.one_pos

theorem blockInv_txnRead {s : State} (hr : Running s) (hc : s.hid.cmd = some .txNeg) (hp : s.status.phase = .idle)
    (hb : s.errCnt.toNat < limit s) : BlockInv (readOne .txnRd s) :=
  blockInv_readOne hr ⟨by simp [hc, cmdFits], by simp [hp, phaseFits], hb.le, fun _ => hb, by simp, by simp, by simp⟩
    rfl rfl

/-- A transfer ends in the negotiation or in block reception (R401, R404). -/
theorem blockInv_eotEnd {s : State} (hr : Running s) (hc : s.hid.cmd = some .rxNeg ∨ s.hid.cmd = some .rxBlk)
    (hp : s.status.phase = .idle ∨ s.status.phase = .rx) (hb : s.errCnt.toNat < limit s) : BlockInv (eotEnd s) :=
  blockInv_beginWrite hr ⟨by simpa [cmdFits] using hc, by simpa [phaseFits] using hp, hb.le, fun _ => hb, by simp, by simp,
    by simp⟩ rfl rfl Nat.one_pos

/-- The frame goes out again unchanged (R354). -/
theorem blockInv_sendFrame {s : State} (hr : Running s) (hc : s.hid.cmd = some .txBlk) (hp : s.status.phase = .tx)
    (hb : s.errCnt.toNat < limit s) (hframe : FrameBuilt s) : BlockInv (sendFrame s) := by
  refine blockInv_beginWrite hr ⟨by simp [hc, cmdFits], by simp [hp, phaseFits], hb.le, fun _ => hb, fun _ => hframe,
    by simp, by simp⟩ rfl rfl ?_
  rw [hframe.2]
  simp

theorem blockInv_sendNak {s : State} (hr : Running s) (h : InReception s) (hb : s.errCnt.toNat < limit s) :
    BlockInv (sendNak s) :=
  blockInv_beginWrite hr (h.fits rfl hb (by simp)) rfl rfl Nat.one_pos

theorem blockInv_purgeRead {s : State} (hr : Running s) (h : InReception s) (hb : s.errCnt.toNat < limit s) :
    BlockInv (purgeRead s) :=
  blockInv_beginRead hr (h.fits rfl hb (by simp)) rfl rfl Nat.one_pos

theorem blockInv_awaitStart {s : State} (hr : Running s) (h : InReception s) (hb : s.errCnt.toNat < limit s) :
    BlockInv (awaitStart s) :=
  blockInv_readOne hr (h.fits rfl hb (by simp)) rfl rfl

/-- BlockBody(P) latches T from USECRC (R405). -/
theorem blockInv_blockBody {p : BlockSize} {s : State} (hr : Running s) (h : InReception s) (hb : s.errCnt.toNat < limit s) :
    BlockInv (blockBody p s) :=
  have hf : Fits .rxsRd { s with hid := { s.hid with p := p, t := trailerLen s.status.useCrc } } :=
    InReception.fits h rfl hb fun _ => rfl
  blockInv_readOne hr hf rfl rfl

/-- The tail's read, into the buffer or drained, asks for P + T bytes (R407, R408). -/
theorem blockInv_tailRead {pt : Point} {s : State} (hr : Running s) (h : InReception s) (hb : s.errCnt.toNat < limit s)
    (ht : s.hid.t = trailerLen s.status.useCrc) (hpt : pt = .rxdRd ∨ pt = .rxxRd) :
    BlockInv (beginRead pt (tailLength s) s.sessTmo s) := by
  have hpos : 0 < tailLength s := Nat.add_pos_left s.hid.p.bytes_bounds.1 _
  rcases hpt with rfl | rfl <;> exact blockInv_beginRead hr (h.fits rfl hb fun _ => ht) rfl rfl hpos

/-- Accept clears ERRCNT and records the block's size (R409). -/
theorem blockInv_acceptBlock {s : State} (hr : Running s) (h : InReception s) : BlockInv (acceptBlock s) := by
  obtain ⟨hbuf, hmode, -, hbusy⟩ := hr
  have hlen : BitVec.ofNat 11 s.hid.p.bytes = 0 ∨ BitVec.ofNat 11 s.hid.p.bytes = 128 ∨
      BitVec.ofNat 11 s.hid.p.bytes = 1024 := by
    cases s.hid.p <;> decide
  exact blockInv_beginWrite ⟨hbuf, hmode, hlen, hbusy⟩ (InReception.fits h rfl (limit_pos _) (by simp)) rfl rfl Nat.one_pos

/-! ## The invariant where a command goes on -/

/-- Where a command waits, it runs and fits its point. -/
theorem PointOk.waiting {v : State} {pt : Point} (h : PointOk v) (hpt : v.hid.pt = pt) (hne : pt ≠ .idle := by nofun) :
    Running v ∧ Fits pt v :=
  ⟨h.running (hpt ▸ hne), h.fits hpt hne⟩

/-- The heart of the step: where a command goes on, the next state meets the invariant. -/
theorem Resumes.blockInv {v t : State} (ht : Resumes v t) (h : PointOk v) : BlockInv t := by
  cases ht with
  | peerCancel hpt =>
    obtain ⟨hr, hf⟩ := h.waiting rfl (Point.ne_idle (.inl (Point.isRead_of_isControl hpt)))
    exact blockInv_closed hr hf.budget nofun
  | negotiated u hpt =>
    obtain ⟨hr, hf⟩ := h.waiting hpt
    exact blockInv_complete (s := setPhase .tx (setUseCrc u v)) hr ⟨hf.budget, fun _ => hf.below (by decide)⟩ nofun
  | declined hpt =>
    obtain ⟨hr, hf⟩ := h.waiting hpt
    exact blockInv_abort hr hf.budget hf.cmd
  | acked hpt =>
    exact blockInv_complete (s := advanceSeq (emitProgress (clearErrors { v with succCnt := v.succCnt + 1 })))
      (h.waiting hpt).1 ⟨Nat.zero_le _, fun _ => limit_pos v⟩ nofun
  | succeeded hpt =>
    rcases hpt with hpt | hpt <;>
    · obtain ⟨hr, hf⟩ := h.waiting hpt
      exact blockInv_closed hr hf.budget nofun
  | blockTaken hpt =>
    obtain ⟨hr, hf⟩ := h.waiting hpt
    exact blockInv_complete (s := advanceSeq v) hr ⟨hf.budget, fun _ => hf.below (by decide)⟩ nofun
  | aborted code hpt =>
    obtain ⟨hr, hf⟩ := h.waiting hpt
    exact blockInv_closed hr hf.budget (by rintro rfl; cases hf.cmd)
  | exhausted code hpt hl =>
    obtain ⟨hread, hcmd⟩ := failCode_fits hpt
    obtain ⟨hr, hf⟩ := h.waiting rfl (Point.ne_idle (.inl hread))
    exact blockInv_abort (s := countFailure v) hr (countFailure_budget (hf.below (Point.code_ne_of_isRead hread)))
      (hcmd _ hf.cmd)
  | blkExhausted hpt hl =>
    obtain ⟨hr, hf⟩ := h.waiting hpt
    exact blockInv_abort (s := emitProgress (countFailure v)) hr (countFailure_budget (hf.below (by decide)))
      (by simp [cmdFits, beq_iff_eq.mp hf.cmd])
  | retryBlk hpt hl =>
    obtain ⟨hr, hf⟩ := h.waiting hpt
    exact blockInv_sendFrame (s := emitProgress (countFailure v)) hr (beq_iff_eq.mp hf.cmd) (beq_iff_eq.mp hf.phase)
      (countFailure_below hl) (hf.frame (.inr rfl))
  | retryNeg hpt hl =>
    obtain ⟨hr, hf⟩ := h.waiting hpt
    exact blockInv_txnRead (s := countFailure v) hr (beq_iff_eq.mp hf.cmd) (beq_iff_eq.mp hf.phase) (countFailure_below hl)
  | retryEot hpt hl =>
    obtain ⟨hr, hf⟩ := h.waiting hpt
    exact blockInv_sendEot (s := countFailure v) hr (beq_iff_eq.mp hf.cmd) (beq_iff_eq.mp hf.phase) (countFailure_below hl)
  | retryProbe hpt hl =>
    obtain ⟨hr, hf⟩ := h.waiting hpt
    exact blockInv_sendProbe (s := countFailure v) hr (beq_iff_eq.mp hf.cmd) (beq_iff_eq.mp hf.phase)
      (countFailure_below hl)
  | retryNak hpt hl =>
    obtain ⟨hr, hf⟩ := h.waiting hpt
    exact blockInv_sendNak (s := countFailure v) hr (hf.inReception rfl) (countFailure_below hl)
  | retryPurge hpt hl =>
    rcases hpt with hpt | hpt | hpt <;>
    · obtain ⟨hr, hf⟩ := h.waiting hpt
      exact blockInv_purgeRead (s := notePurge false (countFailure v)) hr (hf.inReception rfl) (countFailure_below hl)
  | reads pt hpt =>
    obtain ⟨hne, hread, hone⟩ := nextRead_isRead hpt
    obtain ⟨hr, hf⟩ := h.waiting rfl hne
    exact blockInv_readOne hr (hf.nextRead hpt) hread (hone v)
  | probe hpt =>
    obtain ⟨hr, hf⟩ := h.waiting hpt
    exact blockInv_sendProbe hr (beq_iff_eq.mp hf.cmd) (beq_iff_eq.mp hf.phase) (hf.below (by decide))
  | rxNegotiated p hpt =>
    obtain ⟨hr, hf⟩ := h.waiting hpt
    exact blockInv_blockBody (s := setPhase .rx (clearErrors (setUseCrc (decide (v.hid.lastProbe = CRQ)) v))) hr
      ⟨.inl (beq_iff_eq.mp hf.cmd), rfl⟩ (limit_pos v)
  | eotEnd hpt =>
    rcases hpt with hpt | hpt
    · obtain ⟨hr, hf⟩ := h.waiting hpt
      exact blockInv_eotEnd hr (.inl (beq_iff_eq.mp hf.cmd)) (.inl (beq_iff_eq.mp hf.phase)) (hf.below (by decide))
    · obtain ⟨hr, hf⟩ := h.waiting hpt
      obtain ⟨hcmd, hphase⟩ := hf.inReception rfl
      exact blockInv_eotEnd hr hcmd (.inr hphase) (hf.below (by decide))
  | block p hpt =>
    obtain ⟨hr, hf⟩ := h.waiting hpt
    exact blockInv_blockBody hr (hf.inReception rfl) (hf.below (by decide))
  | seqByte b hpt =>
    obtain ⟨hr, hf⟩ := h.waiting hpt
    have hf' : Fits .rxcRd { v with hid := { v.hid with q1 := b } } :=
      InReception.fits (hf.inReception rfl) rfl (hf.below (by decide)) fun _ => hf.trailer (.inl rfl)
    exact blockInv_readOne hr hf' rfl rfl
  | drain hpt =>
    rcases hpt with hpt | hpt <;>
    · obtain ⟨hr, hf⟩ := h.waiting hpt
      exact blockInv_tailRead hr (hf.inReception rfl) (hf.below (by decide)) (hf.trailer (by simp)) (.inr rfl)
  | readData hpt =>
    obtain ⟨hr, hf⟩ := h.waiting hpt
    exact blockInv_tailRead hr (hf.inReception rfl) (hf.below (by decide)) (hf.trailer (by simp)) (.inl rfl)
  | accept hpt =>
    obtain ⟨hr, hf⟩ := h.waiting hpt
    exact blockInv_acceptBlock hr (hf.inReception rfl)
  | purgeByte hpt =>
    obtain ⟨hr, hf⟩ := h.waiting hpt
    exact blockInv_purgeRead (s := notePurge true v) hr (hf.inReception rfl) (hf.below (by decide))
  | purgeEnds hpt =>
    obtain ⟨hr, hf⟩ := h.waiting hpt
    exact blockInv_sendNak hr (hf.inReception rfl) (hf.below (by decide))
  | purgeEndsDrawn hpt =>
    obtain ⟨hr, hf⟩ := h.waiting hpt
    exact blockInv_sendNak (s := drawPurge v) hr (hf.inReception rfl) (hf.below (by decide))
  | purgeGoesOn hpt =>
    obtain ⟨hr, hf⟩ := h.waiting hpt
    exact blockInv_purgeRead (s := notePurge false (drawPurge v)) hr (hf.inReception rfl) (hf.below (by decide))

/-- A link event keeps the invariant. -/
theorem LinkMove.blockInv {e : Event} {s t : State} (hm : LinkMove s e t) (h : BlockInv s) : BlockInv t := by
  cases hm with
  | ignored => exact h
  | counted => exact h
  | gathered b hpt hk =>
    refine (h.pointOk.gather b).blockInv ⟨fun _ => ?_, fun hw => absurd ⟨hpt, hw⟩ (Point.not_read_and_write _)⟩
    obtain ⟨hn, hlen, hlt⟩ := h.linkOk.1 hpt
    refine ⟨hn.trans ?_, ?_, ?_⟩
    · simp only [gather_hid]
      cases s.hid.pt <;> rfl
    · simp [hlen]
    · simp only [gather_hid]
      omega
  | sent b hpt hb hj =>
    refine (h.pointOk.sendByte b).blockInv ⟨fun hr => absurd ⟨hr, hpt⟩ (Point.not_read_and_write _), fun _ => ?_⟩
    obtain ⟨hws, hlt⟩ := h.linkOk.2 hpt
    refine ⟨hws.trans ?_, ?_⟩
    · simp only [sendByte_hid]
      cases s.hid.pt <;> rfl
    · simp only [sendByte_hid]
      omega
  | resumed hv ht => exact ht.blockInv (hv.pointOk h.pointOk)

/-! ## The invariant at the host port -/

/-- An idle block that accepts a command word runs it, before its checks, with the budget it had. -/
theorem BlockInv.accept {s : State} (h : BlockInv s) (hb : s.status.busy = false) (b : Byte) (w : Half) :
    Running (accept b w s) ∧ IdleBudget (accept b w s) := by
  obtain ⟨hbuf, hmode, ⟨hbusy, -⟩, ⟨hle, hlt⟩, -, -, -, -, hlen⟩ := h
  have hpt : s.hid.pt = .idle := by
    by_contra hne
    rw [hbusy.mpr hne] at hb
    cases hb
  exact ⟨⟨hbuf, hmode, hlen, rfl, rfl, rfl⟩, hle, fun hp => hlt (.inr (.inr ⟨hp, hpt⟩))⟩

/-- The payload that TX.BLK pads to P bytes. -/
theorem txPayload_length {s : State} (h : txLenLegal s.txLen (txSize s.sessCfg) = true) :
    (txPayload s).length = (txSize s.sessCfg).bytes := by
  refine pad_length _ ?_
  rw [bufRun_length]
  exact ((txLenLegal_iff _ _).mp h).2

theorem buildFrame_fr (s : State) :
    (buildFrame s).hid.fr = header (txSize s.sessCfg) s.seq ++ txPayload s ++ trailer s.status.useCrc (txPayload s) := rfl

@[simp] theorem buildFrame_sessCfg (s : State) : (buildFrame s).sessCfg = s.sessCfg := by simp [buildFrame]
@[simp] theorem buildFrame_seq (s : State) : (buildFrame s).seq = s.seq := by simp [buildFrame]
@[simp] theorem buildFrame_status (s : State) : (buildFrame s).status = s.status := by simp [buildFrame]
@[simp] theorem buildFrame_buf (s : State) : (buildFrame s).buf = s.buf := by simp [buildFrame]
@[simp] theorem buildFrame_rxLen (s : State) : (buildFrame s).rxLen = s.rxLen := by simp [buildFrame]

theorem Running.buildFrame {s : State} (h : Running s) : Running (buildFrame s) := by
  simpa only [Running, buildFrame_buf, buildFrame_sessCfg, buildFrame_rxLen, buildFrame_status] using h

/-- The payload inside the frame just built is the padded chunk. -/
theorem framePayload_buildFrame {s : State} (h : txLenLegal s.txLen (txSize s.sessCfg) = true) :
    framePayload (buildFrame s) = txPayload s := by
  rw [framePayload, buildFrame_fr, buildFrame_sessCfg, List.append_assoc, List.drop_left' (header_length _ _),
    List.take_left' (txPayload_length h)]

/-- TX.BLK's frame build leaves FR as the frame of SEQ (R353). -/
theorem frameBuilt_buildFrame {s : State} (h : txLenLegal s.txLen (txSize s.sessCfg) = true) :
    FrameBuilt (buildFrame s) := by
  rw [FrameBuilt, framePayload_buildFrame h, buildFrame_fr, buildFrame_sessCfg, buildFrame_seq, buildFrame_status]
  exact ⟨txPayload_length h, rfl⟩

/-- The accepting step of a command leads into the invariant. -/
theorem Accepts.blockInv {i : Instr} {s t : State} (ht : Accepts s i t) (hr : Running s) (hb : IdleBudget s) :
    BlockInv t := by
  obtain ⟨hbuf, hmode, hlen, hrun⟩ := id hr
  have hopen {c : LinkCmd} (hm : modeLegal s.ctrl.mode = true) : Running (sessionOpen (startCmd c s)) :=
    ⟨hbuf, hm, .inl rfl, hrun⟩
  cases ht with
  | immediate _ code hcode crc csum hdr trl valid =>
    exact blockInv_complete (s := setEngine crc csum hdr trl valid s) hr hb hcode
  | rejected code hcode => exact blockInv_complete hr hb hcode
  | txNeg hm => exact blockInv_txnRead (hopen hm) rfl rfl (limit_pos _)
  | txBlk hp hl =>
    have hs : Running (startCmd .txBlk s) := hr
    exact blockInv_sendFrame hs.buildFrame rfl (by simpa using hp) (limit_pos _)
      (frameBuilt_buildFrame (s := startCmd .txBlk s) hl)
  | txEot hp => exact blockInv_sendEot (s := clearErrors (startCmd .txEot s)) hr rfl hp (limit_pos s)
  | rxNeg hm => exact blockInv_sendProbe (hopen hm) rfl rfl (limit_pos _)
  | rxBlk hp =>
    exact blockInv_awaitStart (s := startCmd .rxBlk s) hr ⟨.inr rfl, hp⟩ (hb.2 (by rw [hp]; nofun))

/-- STATUS's write-1-to-clear keeps the invariant: it clears DONE and OVR at most. -/
theorem BlockInv.statusWrite {s : State} (h : BlockInv s) (v : Word) :
    BlockInv { s with status := Status.write v s.status } := by
  obtain ⟨hbuf, hmode, ⟨hbusy, hcmd, hphase, hrun, hdone⟩, hrest⟩ := h
  refine ⟨hbuf, hmode, ⟨hbusy, hcmd, hphase, fun hb => ⟨?_, (hrun hb).2⟩, fun hd => hdone ?_⟩, hrest⟩
  · simp [Status.write, (hrun hb).1]
  · exact (Bool.and_eq_true_iff.mp hd).1

/-- While the block is idle the invariant says nothing of SEQ. -/
theorem BlockInv.seqWrite {s : State} (h : BlockInv s) (hb : s.status.busy = false) (q : Byte) :
    BlockInv { s with seq := q } := by
  obtain ⟨hbuf, hmode, hcontrol, hbudget, hlink, -, hreceiver⟩ := h
  refine ⟨hbuf, hmode, hcontrol, hbudget, hlink, fun hpt => ?_, hreceiver⟩
  have hne : s.hid.pt ≠ .idle := by rintro he; simp [he] at hpt
  rw [hcontrol.1.mpr hne] at hb
  cases hb

theorem HostMove.blockInv {v : Word} {off : Byte} {s t : State} (ht : HostMove v s off t) (h : BlockInv s) :
    BlockInv t := by
  cases ht with
  | ignored => exact h
  | status => exact h.statusWrite v
  | overrun => exact h
  | badCmd hb =>
    obtain ⟨hr, hi⟩ := h.accept hb (fieldB v) (fieldH v)
    exact blockInv_complete hr hi nofun
  | command hb _ ht =>
    obtain ⟨hr, hi⟩ := h.accept hb (fieldB v) (fieldH v)
    exact ht.blockInv hr hi
  | seq hb => exact h.seqWrite hb _
  | bufData =>
    obtain ⟨hbuf, hrest⟩ := h
    exact ⟨bufStore_wf v hbuf, hrest⟩
  | plain => exact h

/-- A reset event leads into the invariant, whatever the block was doing. -/
theorem blockInv_resetBlock (s : State) : BlockInv (resetBlock s) := by
  have h : BlockInv State.reset := by decide
  exact h

/-! ## The obligation -/

theorem handle_blockInv {e : Event} {s t : State} (hen : Event.enabled s.hid.pt e = true) (h : handle e s = .next t)
    (hi : BlockInv s) : BlockInv t := by
  cases e with
  | hostWr width off v =>
    rcases hostWrite_cases h with rfl | ⟨-, hm⟩
    · exact hi
    · exact hm.blockInv hi
  | hostRd width off =>
    cases h
    obtain ⟨v, a, he⟩ := hostRead_eq width off s
    rw [he]
    exact hi
  | reset => cases h; exact blockInv_resetBlock s
  | rx b => exact (handle_link rfl hen h).blockInv hi
  | txtake => exact (handle_link rfl hen h).blockInv hi
  | tick => exact (handle_link rfl hen h).blockInv hi

/-- Settles O59: a step takes nothing, or handles one enabled event, and each event's move keeps the invariant. -/
theorem stepKeepsTheInvariant : Obligations.StepKeepsTheInvariant := by
  intro s t hi h
  rcases step_cases h with ⟨-, he⟩ | ⟨e, pre, post, -, hen, -, he⟩
  · cases he; exact hi
  · exact handle_blockInv (s := withInputs (pre ++ post) s) hen he.symm hi

end Sys2Proof.Machine
end

section
/-! PROOF. The frame of the accepting step of every command (spec/42_sequencer_common.md R302, R311). -/

namespace Sys2Proof.Machine

/-! ## The frame of the accepting step -/

section Frame
variable {i : Instr} {s t : State} (ht : Accepts s i t)
include ht

/-- What no accepting step writes (R302, R311). -/
theorem Accepts.fixed_eq :
    t.ctrl = s.ctrl ∧ t.timeout = s.timeout ∧ t.rxTrl = s.rxTrl ∧ t.txLen = s.txLen ∧ t.bufAddr = s.bufAddr ∧
      t.unit = s.unit ∧ t.bufDraw = s.bufDraw ∧ t.purgeHeard = s.purgeHeard ∧ t.purgeDraw = s.purgeDraw ∧
      t.inputs = s.inputs ∧ t.status.ovr = s.status.ovr ∧ t.status.txto = s.status.txto := by
  cases ht <;> simp [setEngine, readOne, sendFrame, buildFrame, sendEot, sendProbe, awaitStart]

theorem Accepts.outputs_eq : t.trace = s.trace ∧ t.progress = s.progress ∧ t.reads = s.reads := by
  cases ht <;> simp [setEngine, readOne, sendFrame, buildFrame, sendEot, sendProbe, awaitStart]

theorem Accepts.buf_eq : t.buf = s.buf := by
  cases ht <;> simp [setEngine, readOne, sendFrame, sendEot, sendProbe, awaitStart]

theorem Accepts.bufByte_eq (a : Nat) : bufByte t a = bufByte s a := by
  obtain ⟨-, -, -, -, -, hunit, hdraw, -⟩ := ht.fixed_eq
  exact bufByte_congr ht.buf_eq hunit hdraw a

/-- Only a session open writes the session's registers, the received counts, CANSEEN, USECRC and PHASE (R304); TX.BLK also counts
in TOTCNT, and TX.BLK and TX.EOT clear ERRCNT (R353, R355). -/
theorem Accepts.session_eq (h1 : i ≠ .txNeg) (h2 : i ≠ .rxNeg) :
    t.sessCfg = s.sessCfg ∧ t.sessTmo = s.sessTmo ∧ t.seq = s.seq ∧ t.succCnt = s.succCnt ∧ t.byteCnt = s.byteCnt ∧
      t.rxLen = s.rxLen ∧ t.status.canSeen = s.status.canSeen ∧ t.status.useCrc = s.status.useCrc ∧
      t.status.phase = s.status.phase ∧ (i ≠ .txBlk → t.totCnt = s.totCnt ∧ (i ≠ .txEot → t.errCnt = s.errCnt)) := by
  cases ht with
  | txNeg => exact absurd rfl h1
  | rxNeg => exact absurd rfl h2
  | _ => simp [setEngine, sendFrame, buildFrame, sendEot, awaitStart, readOne]

/-- The immediate commands and TX.BLK alone write the engine's registers, HDR and TRL (R208 to R212, R259 to R261, R353). -/
theorem Accepts.engine_eq (h : i = .txNeg ∨ i = .txEot ∨ i = .rxNeg ∨ i = .rxBlk) :
    t.crc = s.crc ∧ t.csum = s.csum ∧ t.hdr = s.hdr ∧ t.trl = s.trl ∧ t.status.valid = s.status.valid := by
  cases ht with
  | immediate hi => rcases h with rfl | rfl | rfl | rfl <;> cases hi
  | txBlk => rcases h with h | h | h | h <;> cases h
  | _ => exact ⟨rfl, rfl, rfl, rfl, rfl⟩

/-- TX.BLK leaves VALID. -/
theorem Accepts.valid_eq (h : i = .txBlk) : t.status.valid = s.status.valid := by
  cases ht with
  | immediate hi => subst h; cases hi
  | _ => simp [sendFrame, sendEot, sendProbe, awaitStart, readOne]

end Frame

/-- Settles O11, from the frames of the accepting step. -/
theorem acceptingStepFrame : Obligations.AcceptingStepFrame := by
  intro i s t h
  have ht := exec_accepts h
  obtain ⟨hctrl, htimeout, hrx, hlen, haddr, hunit, hdraw, hheard, hpurge, hinputs, hovr, htxto⟩ := ht.fixed_eq
  obtain ⟨htrace, hprogress, hreads⟩ := ht.outputs_eq
  exact ⟨hctrl, htimeout, hrx, hlen, haddr, hunit, hdraw, hheard, hpurge, htrace, hprogress, hreads, hinputs, hovr, htxto,
    ht.bufByte_eq, ht.session_eq, ht.engine_eq, ht.valid_eq⟩

end Sys2Proof.Machine
end

section
/-! PROOF. The frame of every link event, and who writes the buffer, the outputs and SEQ (spec/10_state.md R53 to R55;
spec/41_framing.md R258). -/

namespace Sys2Proof.Machine

theorem failCode_mem {pt : Point} {code : ResultCode} (h : failCode pt = some code) :
    pt ∈ [Point.txnRd, .txbRd, .txeRd, .rxnRd, .rxaRd, .rxdRd, .rxxRd] := by
  cases pt <;> cases h <;> simp

/-! ## What no link event writes -/

/-- The part of the state that no link event writes, the rest blanked (10_state.md R54 to R57, 70_reset_and_hazards.md R605). -/
def linkFixed (s : State) : State :=
  { State.reset with
    ctrl := s.ctrl
    timeout := s.timeout
    sessCfg := s.sessCfg
    sessTmo := s.sessTmo
    totCnt := s.totCnt
    hdr := s.hdr
    trl := s.trl
    txLen := s.txLen
    bufAddr := s.bufAddr
    bufDraw := s.bufDraw
    unit := s.unit
    reads := s.reads
    inputs := s.inputs
    status := { Status.reset with ovr := s.status.ovr, valid := s.status.valid } }

/-- A field that `linkFixed` does not blank agrees where `linkFixed` does. -/
theorem linkFixed_field {α : Type} {s t : State} (f : State → α) (h : linkFixed t = linkFixed s)
    (hf : ∀ x, f (linkFixed x) = f x := by intro _; rfl) : f t = f s := by
  rw [← hf t, h, hf s]

theorem linkFixed_of_resumes {v t : State} (ht : Resumes v t) : linkFixed t = linkFixed v := by
  cases ht <;>
    simp [linkFixed, endPeerCancel, txNegotiated, abortWithCancel, txBlkAcked, transferEnded, blockTaken, finishAbort,
      sendFrame, sendEot, sendProbe, sendNak, startPurge, purgeRead, purgeByte, readOne, rxNegotiated, blockBody, eotEnd,
      rxSeqByte, drain, readData, acceptBlock]

/-- The part of the state that a link event leaves as it is until the command goes on: all but the bytes and the time counted,
the trace, CANSEEN, TXTO and what the data read takes. -/
def unstored (s : State) : State :=
  { s with
    rxTrl := 0
    crc := 0
    csum := 0
    buf := []
    trace := []
    status := { s.status with canSeen := false, txto := false }
    hid := { s.hid with rb := [], rk := 0, wj := 0, tmr := 0 } }

/-- A field that `unstored` does not blank agrees where `unstored` does. -/
theorem unstored_field {α : Type} {s v : State} (f : State → α) (h : unstored v = unstored s)
    (hf : ∀ x, f (unstored x) = f x := by intro _; rfl) : f v = f s := by
  rw [← hf v, h, hf s]

theorem Stores.unstored_eq {e : Event} {s v : State} (hv : Stores s e v) : unstored v = unstored s := by
  cases hv <;> simp [unstored, takeTail]

/-! ## Where a continuation writes -/

section Continuation
variable {v t : State} (ht : Resumes v t)
include ht

/-- SEQ advances by one, where TX.BLK is acknowledged or a received block is taken (R258). -/
theorem Resumes.seq_cases :
    t.seq = v.seq ∨ t.seq = v.seq + 1 ∧
      (v.hid.pt = .txbRd ∧ t.status.result = .acked ∨ v.hid.pt = .rxkWr ∧ t.status.result = .block) := by
  cases ht with
  | acked hpt => exact .inr ⟨rfl, .inl ⟨hpt, rfl⟩⟩
  | blockTaken hpt => exact .inr ⟨rfl, .inr ⟨hpt, rfl⟩⟩
  | _ => exact .inl rfl

theorem Resumes.seq_eq (h1 : v.hid.pt ≠ .txbRd) (h2 : v.hid.pt ≠ .rxkWr) : t.seq = v.seq :=
  ht.seq_cases.resolve_right fun ⟨_, h⟩ => h.elim (fun h => h1 h.1) fun h => h2 h.1

/-- TX.BLK's reply emits one progress event with the counters as they then stand (R358). -/
theorem Resumes.progress_cases :
    t.progress = v.progress ∨ v.hid.pt = .txbRd ∧ t.progress = v.progress ++ [⟨t.totCnt, t.succCnt, t.errCnt⟩] := by
  cases ht with
  | acked hpt => exact .inr ⟨hpt, rfl⟩
  | blkExhausted hpt => exact .inr ⟨hpt, rfl⟩
  | retryBlk hpt => exact .inr ⟨hpt, rfl⟩
  | _ => exact .inl rfl

theorem Resumes.progress_eq (h : v.hid.pt ≠ .txbRd) : t.progress = v.progress :=
  ht.progress_cases.resolve_right fun hp => h hp.1

theorem Resumes.succCnt_eq (h1 : v.hid.pt ≠ .txbRd) (h2 : v.hid.pt ≠ .rxdRd) : t.succCnt = v.succCnt := by
  cases ht with
  | acked hpt => exact absurd hpt h1
  | accept hpt => exact absurd hpt h2
  | _ => rfl

theorem Resumes.byteCnt_eq (h : v.hid.pt ≠ .rxdRd) : t.byteCnt = v.byteCnt := by
  cases ht with
  | accept hpt => exact absurd hpt h
  | _ => rfl

theorem Resumes.rxLen_eq (h : v.hid.pt ≠ .rxdRd) : t.rxLen = v.rxLen := by
  cases ht with
  | accept hpt => exact absurd hpt h
  | _ => rfl

/-! The data read's bytes are taken before the command goes on (R408): RXTRL, the accumulators and the buffer stay. -/

theorem Resumes.rxTrl_eq : t.rxTrl = v.rxTrl := by cases ht <;> rfl
theorem Resumes.crc_eq : t.crc = v.crc := by cases ht <;> rfl
theorem Resumes.csum_eq : t.csum = v.csum := by cases ht <;> rfl
theorem Resumes.buf_eq : t.buf = v.buf := by cases ht <;> rfl

theorem Resumes.bufByte_eq (i : Nat) : bufByte t i = bufByte v i :=
  bufByte_congr ht.buf_eq (linkFixed_field State.unit (linkFixed_of_resumes ht))
    (linkFixed_field State.bufDraw (linkFixed_of_resumes ht)) i

theorem Resumes.useCrc_eq (h1 : v.hid.pt ≠ .txnRd) (h2 : v.hid.pt ≠ .rxnRd) : t.status.useCrc = v.status.useCrc := by
  cases ht with
  | negotiated u hpt => exact absurd hpt h1
  | rxNegotiated p hpt => exact absurd hpt h2
  | _ => rfl

theorem Resumes.canSeen_eq : t.status.canSeen = v.status.canSeen := by cases ht <;> rfl
theorem Resumes.txto_eq : t.status.txto = v.status.txto := by cases ht <;> rfl
theorem Resumes.trace_eq : t.trace = v.trace := by cases ht <;> rfl

/-- The reads at which ERRCNT can change: those that can fail, the reply that ends TX.BLK and the start of a reception (R310). -/
theorem Resumes.errCnt_eq
    (h : v.hid.pt ∉ [Point.txnRd, .txbRd, .txeRd, .rxnRd, .rxaRd, .rxdRd, .rxxRd]) : t.errCnt = v.errCnt := by
  cases ht with
  | exhausted code hpt => exact absurd (failCode_mem hpt) h
  | acked hpt => simp [hpt] at h
  | blkExhausted hpt => simp [hpt] at h
  | retryBlk hpt => simp [hpt] at h
  | retryNeg hpt => simp [hpt] at h
  | retryEot hpt => simp [hpt] at h
  | retryProbe hpt => simp [hpt] at h
  | retryNak hpt => simp [hpt] at h
  | retryPurge hpt => rcases hpt with hpt | hpt | hpt <;> simp [hpt] at h
  | rxNegotiated p hpt => simp [hpt] at h
  | accept hpt => simp [hpt] at h
  | _ => rfl

theorem Resumes.purgeDraw_eq (h : v.hid.pt ≠ .rxpRd) : t.purgeDraw = v.purgeDraw := by
  cases ht with
  | purgeEndsDrawn hpt => exact absurd hpt h
  | purgeGoesOn hpt => exact absurd hpt h
  | _ => rfl

/-- The running command stays the running one until it ends. -/
theorem Resumes.cmd_eq (h : t.hid.pt ≠ .idle) : t.hid.cmd = v.hid.cmd := by
  cases ht with
  | peerCancel => exact absurd rfl h
  | negotiated => exact absurd rfl h
  | acked => exact absurd rfl h
  | succeeded => exact absurd rfl h
  | blockTaken => exact absurd rfl h
  | aborted => exact absurd rfl h
  | _ => rfl

theorem Resumes.opb_eq : t.hid.opb = v.hid.opb := by cases ht <;> rfl
theorem Resumes.oph_eq : t.hid.oph = v.hid.oph := by cases ht <;> rfl
theorem Resumes.fr_eq : t.hid.fr = v.hid.fr := by cases ht <;> rfl

theorem Resumes.lastProbe_eq (h : v.hid.pt ≠ .rxnRd) : t.hid.lastProbe = v.hid.lastProbe := by
  cases ht with
  | retryProbe hpt => exact absurd hpt h
  | probe hpt => exact absurd hpt h
  | _ => rfl

theorem Resumes.p_eq (h1 : v.hid.pt ≠ .rxnRd) (h2 : v.hid.pt ≠ .rxaRd) : t.hid.p = v.hid.p := by
  cases ht with
  | rxNegotiated p hpt => exact absurd hpt h1
  | block p hpt => exact absurd hpt h2
  | _ => rfl

theorem Resumes.t_eq (h1 : v.hid.pt ≠ .rxnRd) (h2 : v.hid.pt ≠ .rxaRd) : t.hid.t = v.hid.t := by
  cases ht with
  | rxNegotiated p hpt => exact absurd hpt h1
  | block p hpt => exact absurd hpt h2
  | _ => rfl

theorem Resumes.q1_eq (h : v.hid.pt ≠ .rxsRd) : t.hid.q1 = v.hid.q1 := by
  cases ht with
  | seqByte b hpt => exact absurd hpt h
  | _ => rfl

/-- A write starts where a read returned, never where a write did. -/
theorem Resumes.isRead_of_isWrite (h : t.hid.pt.isWrite = true) : v.hid.pt.isRead = true := by
  cases ht with
  | declined hpt => rw [hpt]; rfl
  | exhausted code hpt => exact (failCode_fits hpt).1
  | blkExhausted hpt => rw [hpt]; rfl
  | retryBlk hpt => rw [hpt]; rfl
  | retryEot hpt => rw [hpt]; rfl
  | retryProbe hpt => rw [hpt]; rfl
  | retryNak hpt => rw [hpt]; rfl
  | reads pt hpt => exact absurd ⟨(nextRead_isRead hpt).2.1, h⟩ pt.not_read_and_write
  | probe hpt => rw [hpt]; rfl
  | eotEnd hpt => rcases hpt with hpt | hpt <;> rw [hpt] <;> rfl
  | accept hpt => rw [hpt]; rfl
  | purgeEnds hpt => rw [hpt]; rfl
  | purgeEndsDrawn hpt => rw [hpt]; rfl
  | _ => cases h

end Continuation

/-! ## What an event stores before the continuation -/

/-- How `v` stands to `s` after a link event has done its own part: `unstored` agrees, and each blanked item changes only where
its rule says. -/
structure Passed (e : Event) (s v : State) : Prop where
  rest : unstored v = unstored s
  tail : s.hid.pt ≠ .rxdRd → v.rxTrl = s.rxTrl ∧ v.crc = s.crc ∧ v.csum = s.csum
  bytes : ∀ i, bufByte v i ≠ bufByte s i → (e = .tick ∨ ∃ b, e = .rx b) ∧ s.hid.pt = .rxdRd ∧ i < s.hid.p.bytes
  canSeen : (∀ b, e ≠ .rx b) ∨ s.hid.pt.isControl = false → v.status.canSeen = s.status.canSeen
  txto : s.hid.pt.isWrite = false → v.status.txto = s.status.txto
  trace : e ≠ .txtake → v.trace = s.trace
  sent : e = .txtake → ∃ b, s.hid.ws[s.hid.wj]? = some b ∧ v.trace = s.trace ++ [b]

theorem bufByte_takeTail (d : List Byte) (s : State) (i : Nat) : bufByte (takeTail d s) i = bufByte (bufReceive d s) i :=
  bufByte_congr rfl rfl rfl i

/-- The data read leaves the bytes from index P on (R408). -/
theorem lt_of_bufByte_bufReceive_ne {d : List Byte} {s : State} {i : Nat} (h : bufByte (bufReceive d s) i ≠ bufByte s i) :
    i < s.hid.p.bytes := by
  by_contra hi
  refine h ?_
  rw [bufByte_bufReceive, List.getElem?_eq_none (by rw [List.length_take]; omega)]
  rfl

/-- An event that takes no byte and sends none passes with nothing but its own count. -/
theorem Passed.of_kept {e : Event} {s v : State} (hrest : unstored v = unstored s) (hrx : v.rxTrl = s.rxTrl)
    (hcrc : v.crc = s.crc) (hcsum : v.csum = s.csum) (hbuf : v.buf = s.buf) (hcan : v.status.canSeen = s.status.canSeen)
    (htxto : v.status.txto = s.status.txto) (htrace : v.trace = s.trace) (he : e ≠ .txtake) : Passed e s v := by
  have hbytes : ∀ i, bufByte v i = bufByte s i :=
    bufByte_congr hbuf (unstored_field State.unit hrest) (unstored_field State.bufDraw hrest)
  exact ⟨hrest, fun _ => ⟨hrx, hcrc, hcsum⟩, fun i h => absurd (hbytes i) h, fun _ => hcan, fun _ => htxto,
    fun _ => htrace, fun h => absurd h he⟩

theorem Stores.passed {e : Event} {s v : State} (hv : Stores s e v) : Passed e s v := by
  have hrest := hv.unstored_eq
  have hbytes (hbuf : v.buf = s.buf) (i : Nat) : bufByte v i = bufByte s i :=
    bufByte_congr hbuf (unstored_field State.unit hrest) (unstored_field State.bufDraw hrest) i
  cases hv with
  | byte b hpt => exact .of_kept hrest rfl rfl rfl rfl rfl rfl rfl nofun
  | readTick hpt => exact .of_kept hrest rfl rfl rfl rfl rfl rfl rfl nofun
  | control b c hpt =>
    refine ⟨hrest, fun _ => ⟨rfl, rfl, rfl⟩, fun i h => absurd (hbytes rfl i) h, ?_, fun _ => rfl, fun _ => rfl, nofun⟩
    rintro (h | h)
    · exact absurd rfl (h b)
    · rw [hpt] at h; cases h
  | tail b d hpt =>
    refine ⟨hrest, fun h => absurd hpt h, fun i h => ⟨.inr ⟨b, rfl⟩, hpt, ?_⟩, fun _ => rfl, fun _ => rfl, fun _ => rfl,
      nofun⟩
    rw [bufByte_takeTail] at h
    exact lt_of_bufByte_bufReceive_ne (s := gather b s) (d := d) h
  | taken b hpt hb =>
    exact ⟨hrest, fun _ => ⟨rfl, rfl, rfl⟩, fun i h => absurd (hbytes rfl i) h, fun _ => rfl, fun _ => rfl,
      fun h => absurd rfl h, fun _ => ⟨b, hb, rfl⟩⟩
  | tailTick d hpt =>
    exact ⟨hrest, fun h => absurd hpt h, fun i h => ⟨.inl rfl, hpt, lt_of_bufByte_bufReceive_ne h⟩, fun _ => rfl,
      fun _ => rfl, fun _ => rfl, nofun⟩
  | writeTick hpt =>
    refine ⟨hrest, fun _ => ⟨rfl, rfl, rfl⟩, fun i h => absurd (hbytes rfl i) h, fun _ => rfl, fun h => ?_, fun _ => rfl,
      nofun⟩
    rw [hpt] at h; cases h

/-- A link event does its own part; then the command waits on, or goes on. -/
theorem LinkMove.passed {e : Event} {s t : State} (hm : LinkMove s e t) : ∃ v, Passed e s v ∧ (t = v ∨ Resumes v t) := by
  cases hm with
  | ignored => exact ⟨s, .of_kept rfl rfl rfl rfl rfl rfl rfl rfl nofun, .inl rfl⟩
  | counted => exact ⟨countTick s, .of_kept rfl rfl rfl rfl rfl rfl rfl rfl nofun, .inl rfl⟩
  | gathered b hpt => exact ⟨_, (Stores.byte b hpt).passed, .inl rfl⟩
  | sent b hpt hb => exact ⟨_, (Stores.taken b hpt hb).passed, .inl rfl⟩
  | resumed hv ht => exact ⟨_, hv.passed, .inr ht⟩

/-! ## The obligations on every event -/

/-- Settles O51: the event's own part leaves everything it does not store, and a continuation writes only at its points. -/
theorem linkEventFrame : Obligations.LinkEventFrame := by
  intro e s t he hen h
  have hlink : e.isLink = true := by rcases he with ⟨b, rfl⟩ | rfl | rfl <;> rfl
  obtain ⟨v, hv, hc⟩ := (handle_link hlink hen ((takes_iff hen).mp h)).passed
  have hrest := hv.rest
  have hpt : v.hid.pt = s.hid.pt := unstored_field (fun x => x.hid.pt) hrest
  have cont {α : Type} (f : State → α) (hf : Resumes v t → f t = f v) : f t = f v := hc.elim (congrArg f) hf
  have keeps {α : Type} (f : State → α) (hf : Resumes v t → f t = f v)
      (hu : ∀ x, f (unstored x) = f x := by intro _; rfl) : f t = f s :=
    (cont f hf).trans (unstored_field f hrest hu)
  have hfix : linkFixed t = linkFixed s := keeps linkFixed linkFixed_of_resumes
  refine ⟨linkFixed_field State.ctrl hfix, linkFixed_field State.timeout hfix, linkFixed_field State.sessCfg hfix,
    linkFixed_field State.sessTmo hfix, linkFixed_field State.txLen hfix, linkFixed_field State.bufAddr hfix,
    linkFixed_field State.unit hfix, linkFixed_field State.bufDraw hfix, linkFixed_field State.hdr hfix,
    linkFixed_field State.trl hfix, linkFixed_field State.totCnt hfix, linkFixed_field State.reads hfix,
    linkFixed_field State.inputs hfix, linkFixed_field (fun x => x.status.ovr) hfix,
    linkFixed_field (fun x => x.status.valid) hfix, fun h1 h2 => ?seq, fun h1 h2 => ?succCnt, fun h1 => ?progress,
    fun h1 => ?dataRead, fun h1 h2 => ?useCrc, fun h1 => ?canSeen, fun h1 => ?errCnt, fun h1 => ?purgeDraw,
    fun hne => ?hidden, fun h1 => ?trace, fun h1 => ?txto⟩
  case seq => exact keeps State.seq fun ht => ht.seq_eq (hpt ▸ h1) (hpt ▸ h2)
  case succCnt => exact keeps State.succCnt fun ht => ht.succCnt_eq (hpt ▸ h1) (hpt ▸ h2)
  case progress => exact keeps State.progress fun ht => ht.progress_eq (hpt ▸ h1)
  case dataRead =>
    obtain ⟨hrx, hcrc, hcsum⟩ := hv.tail h1
    refine ⟨keeps State.byteCnt fun ht => ht.byteCnt_eq (hpt ▸ h1),
      keeps State.rxLen fun ht => ht.rxLen_eq (hpt ▸ h1), (cont State.rxTrl Resumes.rxTrl_eq).trans hrx,
      (cont State.crc Resumes.crc_eq).trans hcrc, (cont State.csum Resumes.csum_eq).trans hcsum,
      fun i => (cont (bufByte · i) fun ht => ht.bufByte_eq i).trans ?_⟩
    by_contra hi
    obtain ⟨-, hp, -⟩ := hv.bytes i hi
    exact h1 hp
  case useCrc => exact keeps (fun x => x.status.useCrc) fun ht => ht.useCrc_eq (hpt ▸ h1) (hpt ▸ h2)
  case canSeen => exact (cont (fun x => x.status.canSeen) Resumes.canSeen_eq).trans (hv.canSeen h1)
  case errCnt => exact keeps State.errCnt fun ht => ht.errCnt_eq (hpt ▸ h1)
  case purgeDraw => exact keeps State.purgeDraw fun ht => ht.purgeDraw_eq (hpt ▸ h1)
  case hidden =>
    refine ⟨keeps (fun x => x.hid.cmd) fun ht => ht.cmd_eq hne, keeps (fun x => x.hid.opb) Resumes.opb_eq,
      keeps (fun x => x.hid.oph) Resumes.oph_eq, keeps (fun x => x.hid.fr) Resumes.fr_eq,
      fun h1 => keeps (fun x => x.hid.lastProbe) fun ht => ht.lastProbe_eq (hpt ▸ h1),
      fun h1 h2 => ⟨keeps (fun x => x.hid.p) fun ht => ht.p_eq (hpt ▸ h1) (hpt ▸ h2),
        keeps (fun x => x.hid.t) fun ht => ht.t_eq (hpt ▸ h1) (hpt ▸ h2)⟩,
      fun h1 => keeps (fun x => x.hid.q1) fun ht => ht.q1_eq (hpt ▸ h1),
      fun hw hsame => keeps (fun x => x.hid.ws) fun ht => ?_⟩
    have hr := ht.isRead_of_isWrite hw
    rw [hpt, ← hsame] at hr
    exact absurd ⟨hr, hw⟩ (Point.not_read_and_write _)
  case trace => exact (cont State.trace Resumes.trace_eq).trans (hv.trace h1)
  case txto => exact (cont (fun x => x.status.txto) Resumes.txto_eq).trans (hv.txto h1)

/-! ## The buffer -/

/-- Only BUFDATA's write reaches the buffer from the host port. -/
theorem HostMove.bufByte_ne {v : Word} {off : Byte} {s t : State} {i : Nat} (hm : HostMove v s off t)
    (h : bufByte t i ≠ bufByte s i) :
    off = 0x50#8 ∧ s.status.busy = false ∧ i = s.bufAddr.toNat ∧ bufByte t i = v.extractLsb' 0 8 := by
  cases hm with
  | bufData hb =>
    rw [bufByte_bufStore] at h ⊢
    split at h
    · next hi => exact ⟨rfl, hb, hi, by rw [if_pos hi]; rfl⟩
    · exact absurd rfl h
  | ignored => exact absurd rfl h
  | command hb hd ht => exact absurd (ht.bufByte_eq i) h
  | _ => exact absurd (bufByte_congr rfl rfl rfl i) h

/-- Settles O52: a host write reaches the buffer at BUFDATA only, and a link event by its data read only. -/
theorem onlyTwoWritersOfTheBuffer : Obligations.OnlyTwoWritersOfTheBuffer := by
  intro e i s t hen h hne
  have hh := (takes_iff hen).mp h
  have link (hl : e.isLink = true) : (e = .tick ∨ ∃ b, e = .rx b) ∧ s.hid.pt = .rxdRd ∧ i < s.hid.p.bytes := by
    obtain ⟨v, hv, hc⟩ := (handle_link hl hen hh).passed
    refine hv.bytes i ?_
    rwa [← hc.elim (congrArg (bufByte · i)) fun ht => ht.bufByte_eq i]
  cases e with
  | hostWr width off v =>
    rcases hostWrite_cases hh with rfl | ⟨rfl, hm⟩
    · exact absurd rfl hne
    · obtain ⟨rfl, hb, hi, hv⟩ := hm.bufByte_ne hne
      exact .inl ⟨v, rfl, hb, hi, hv⟩
  | hostRd width off =>
    cases hh
    obtain ⟨v, a, he⟩ := hostRead_eq width off s
    exact absurd (by rw [he]; exact bufByte_congr rfl rfl rfl i) hne
  | reset => exact .inr (.inr rfl)
  | rx b => exact .inr (.inl (link rfl))
  | txtake => exact .inr (.inl (link rfl))
  | tick => exact .inr (.inl (link rfl))

/-! ## The outputs -/

/-- A host write makes no output. -/
theorem HostMove.outputs_eq {v : Word} {off : Byte} {s t : State} (hm : HostMove v s off t) :
    t.trace = s.trace ∧ t.progress = s.progress ∧ t.reads = s.reads := by
  cases hm with
  | command hb hd ht => exact ht.outputs_eq
  | _ => exact ⟨rfl, rfl, rfl⟩

/-- Settles O53: only a host read appends to the values read, only txtake to the trace, and only TX.BLK's reply to the progress
events. -/
theorem outputsOnlyGrow : Obligations.OutputsOnlyGrow := by
  intro e s t hen h
  have hh := (takes_iff hen).mp h
  have link (hl : e.isLink = true) : (e ≠ .txtake → t.trace = s.trace) ∧
      (e = .txtake → ∃ b, s.hid.ws[s.hid.wj]? = some b ∧ t.trace = s.trace ++ [b]) ∧
      (t.progress = s.progress ∨ s.hid.pt = .txbRd ∧ t.progress = s.progress ++ [⟨t.totCnt, t.succCnt, t.errCnt⟩]) ∧
      t.reads = s.reads := by
    obtain ⟨v, hv, hc⟩ := (handle_link hl hen hh).passed
    have htrace : t.trace = v.trace := hc.elim (congrArg State.trace) Resumes.trace_eq
    have hreads : t.reads = v.reads :=
      hc.elim (congrArg State.reads) fun ht => linkFixed_field State.reads (linkFixed_of_resumes ht)
    have hprogress : t.progress = v.progress ∨
        v.hid.pt = .txbRd ∧ t.progress = v.progress ++ [⟨t.totCnt, t.succCnt, t.errCnt⟩] :=
      hc.elim (fun h => .inl (congrArg State.progress h)) Resumes.progress_cases
    rw [htrace, hreads]
    rw [unstored_field State.progress hv.rest, unstored_field (fun x => x.hid.pt) hv.rest] at hprogress
    exact ⟨hv.trace, hv.sent, hprogress, unstored_field State.reads hv.rest⟩
  cases e with
  | hostWr width off v =>
    rcases hostWrite_cases hh with rfl | ⟨-, hm⟩
    · exact ⟨fun _ => rfl, nofun, .inl rfl, .inl rfl⟩
    · obtain ⟨htrace, hprogress, hreads⟩ := hm.outputs_eq
      exact ⟨fun _ => htrace, nofun, .inl hprogress, .inl hreads⟩
  | hostRd width off =>
    cases hh
    obtain ⟨v, a, he⟩ := hostRead_eq width off s
    rw [he]
    exact ⟨fun _ => rfl, nofun, .inl rfl, .inr ⟨width, off, v, rfl, rfl⟩⟩
  | reset => cases hh; exact ⟨fun _ => rfl, nofun, .inl rfl, .inl rfl⟩
  | rx b =>
    obtain ⟨htrace, hsent, hprogress, hreads⟩ := link rfl
    exact ⟨htrace, hsent, hprogress.imp_right fun ⟨hp, hg⟩ => ⟨hp, .inr ⟨b, rfl⟩, hg⟩, .inl hreads⟩
  | txtake =>
    obtain ⟨htrace, hsent, hprogress, hreads⟩ := link rfl
    have hpt : s.hid.pt ≠ .txbRd := by intro hp; rw [hp] at hen; cases hen
    exact ⟨htrace, hsent, .inl (hprogress.resolve_right fun hp => hpt hp.1), .inl hreads⟩
  | tick =>
    obtain ⟨htrace, hsent, hprogress, hreads⟩ := link rfl
    exact ⟨htrace, hsent, hprogress.imp_right fun ⟨hp, hg⟩ => ⟨hp, .inl rfl, hg⟩, .inl hreads⟩

/-! ## The sequence number -/

/-- The host port changes SEQ by a write of it or by a session open. -/
theorem HostMove.seq_ne {v : Word} {off : Byte} {s t : State} (hm : HostMove v s off t) (h : t.seq ≠ s.seq) :
    (off = 0x1C#8 ∧ s.status.busy = false ∧ t.seq = v.extractLsb' 0 8) ∨
      (t.seq = 1#8 ∧ off = 0x0C#8 ∧ s.status.busy = false ∧ (decode v = .ok .txNeg ∨ decode v = .ok .rxNeg)) := by
  cases hm with
  | seq hb => exact .inl ⟨rfl, hb, rfl⟩
  | command hb hd ht =>
    cases ht with
    | txNeg => exact .inr ⟨rfl, rfl, hb, .inl hd⟩
    | rxNeg => exact .inr ⟨rfl, rfl, hb, .inr hd⟩
    | txBlk => exact absurd (buildFrame_seq _) h
    | _ => exact absurd rfl h
  | _ => exact absurd rfl h

/-- Settles O56: a continuation advances SEQ at the two acceptances only, and the host port writes it at two offsets only. -/
theorem sequenceAdvancesOnlyOnAcceptance : Obligations.SequenceAdvancesOnlyOnAcceptance := by
  intro e s t hen h hne
  have hh := (takes_iff hen).mp h
  have link (hl : e.isLink = true) : t.seq.toNat = (s.seq.toNat + 1) % 256 ∧
      (s.hid.pt = .txbRd ∧ t.status.result = .acked ∨ s.hid.pt = .rxkWr ∧ t.status.result = .block) := by
    obtain ⟨v, hv, hc⟩ := (handle_link hl hen hh).passed
    have hseq : v.seq = s.seq := unstored_field State.seq hv.rest
    rw [← unstored_field (fun x => x.hid.pt) hv.rest, ← hseq]
    rw [← hseq] at hne
    rcases hc with rfl | ht
    · exact absurd rfl hne
    · obtain ⟨hadd, hpoint⟩ := ht.seq_cases.resolve_left hne
      exact ⟨by rw [hadd, BitVec.toNat_add]; rfl, hpoint⟩
  cases e with
  | hostWr width off v =>
    rcases hostWrite_cases hh with rfl | ⟨rfl, hm⟩
    · exact absurd rfl hne
    · rcases hm.seq_ne hne with ⟨rfl, hb, hv⟩ | ⟨hone, rfl, hb, hd⟩
      · exact .inr (.inl ⟨v, rfl, hb, hv⟩)
      · exact .inr (.inr ⟨hone, .inr ⟨v, rfl, hb, hd⟩⟩)
  | hostRd width off =>
    cases hh
    obtain ⟨v, a, he⟩ := hostRead_eq width off s
    exact absurd (by rw [he]) hne
  | reset => cases hh; exact .inr (.inr ⟨rfl, .inl rfl⟩)
  | rx b => exact .inl (link rfl)
  | txtake => exact .inl (link rfl)
  | tick => exact .inl (link rfl)

end Sys2Proof.Machine
end

section
/-! PROOF. STATUS's layout and the host's accesses while the block is idle (spec/10_state.md R31 to R51). -/

namespace Sys2Proof.Machine

/-! ## STATUS -/

/-- A bit of STATUS, with the width of the word as the sum of its fields' widths. -/
theorem getLsbD_statusWord (s : State) (i : Nat) : (statusWord s).getLsbD i =
    (0#8 ++ s.hid.pt.code ++ s.status.result.code ++ 0#2 ++ s.status.phase.code ++ 0#1 ++ bit s.status.canSeen ++
      bit s.status.useCrc ++ bit s.status.valid ++ bit s.status.txto ++ bit s.status.ovr ++ bit s.status.done ++
      bit s.status.busy).getLsbD i := rfl

theorem statusWord_flags (s : State) :
    (statusWord s).getLsbD 0 = s.status.busy ∧ (statusWord s).getLsbD 1 = s.status.done ∧
      (statusWord s).getLsbD 2 = s.status.ovr ∧ (statusWord s).getLsbD 3 = s.status.txto ∧
      (statusWord s).getLsbD 4 = s.status.valid ∧ (statusWord s).getLsbD 5 = s.status.useCrc ∧
      (statusWord s).getLsbD 6 = s.status.canSeen ∧ (statusWord s).getLsbD 7 = false := by
  simp only [getLsbD_statusWord, BitVec.getLsbD_append]
  simp [bit]

theorem statusWord_fields (s : State) :
    (statusWord s).extractLsb' 8 2 = s.status.phase.code ∧ (statusWord s).extractLsb' 10 2 = 0#2 ∧
      (statusWord s).extractLsb' 12 4 = s.status.result.code ∧ (statusWord s).extractLsb' 16 8 = s.hid.pt.code ∧
      (statusWord s).extractLsb' 24 8 = 0#8 := by
  refine ⟨?_, ?_, ?_, ?_, ?_⟩
  all_goals
    refine BitVec.eq_of_getLsbD_eq fun i hi => ?_
    rw [BitVec.getLsbD_extractLsb', getLsbD_statusWord]
    simp only [BitVec.getLsbD_append]
    interval_cases i <;> simp

/-- Settles O46: each field of the word is the part packed there, and its code is the table's. -/
theorem statusLayout : Obligations.StatusLayout := by
  intro s
  obtain ⟨h0, h1, h2, h3, h4, h5, h6, h7⟩ := statusWord_flags s
  obtain ⟨hphase, hgap, hresult, hstate, htop⟩ := statusWord_fields s
  refine ⟨h0, h1, h2, h3, h4, h5, h6, h7, ?_, hgap, ?_, ?_, htop, ?_, ?_⟩
  · rw [hphase]; cases s.status.phase <;> rfl
  · rw [hresult]; cases s.status.result <;> rfl
  · rw [hstate]; cases s.hid.pt <;> rfl
  · rw [hphase]; cases s.status.phase <;> decide
  · rw [hresult]; cases s.status.result <;> decide

/-! ## Host accesses while the block is idle -/

/-- A read of any register but BUFDATA appends its value and has no side effect (R104, R110). -/
theorem takes_hostRd {off : Byte} (r : Reg) (s : State) (ha : off.extractLsb' 0 2 = 0#2) (hr : regAt off = some r)
    (hb : r ≠ .bufData) : Takes (.hostRd 32 off) s { s with reads := s.reads ++ [regValue r s] } := by
  refine (takes_iff rfl).mpr ?_
  have htarget : target 32 off = some r := by rw [target, if_pos ⟨rfl, ha⟩, hr]
  have heffect : readEffect r s = s := by
    cases r
    case bufData => exact absurd rfl hb
    all_goals rfl
  rw [handle, hostRead, htarget]
  simp only [heffect]
  rfl

/-- A write to an idle block stores into its register. -/
theorem takes_hostWr {off : Byte} {r : Reg} {v : Word} {s t : State} (ha : off.extractLsb' 0 2 = 0#2)
    (hr : regAt off = some r) (hw : writeReg r v s = .next t) : Takes (.hostWr 32 off v) s t := by
  refine (takes_iff rfl).mpr ?_
  have htarget : target 32 off = some r := by rw [target, if_pos ⟨rfl, ha⟩, hr]
  rw [handle, hostWrite, htarget]
  exact hw

/-- A field written from a word and read back is the word's low bits (R31). -/
theorem setWidth_setWidth_and {n : Nat} (v m : Word) (hm : m = (BitVec.allOnes n).setWidth 32) :
    (v.setWidth n).setWidth 32 = v &&& m := by
  subst hm
  refine BitVec.eq_of_getLsbD_eq fun i hi => ?_
  simp [BitVec.getLsbD_setWidth, hi, Bool.and_comm]

/-- A bit of CTRL, with the width of the word as the sum of its fields' widths. -/
theorem getLsbD_ctrlWord (c : Ctrl) (i : Nat) : c.word.getLsbD i =
    (0#8 ++ c.retry ++ c.pad ++ 0#4 ++ bit c.ie ++ bit c.crcPref ++ c.mode).getLsbD i := rfl

/-- CTRL read back is the word written, its reserved bits 0 (R33). -/
theorem ctrlWord_ofWord (v : Word) : (Ctrl.ofWord v).word = v &&& 0x00FFFF0F#32 := by
  refine BitVec.eq_of_getLsbD_eq fun i hi => ?_
  rw [getLsbD_ctrlWord, BitVec.getLsbD_and]
  simp only [BitVec.getLsbD_append]
  interval_cases i <;> simp [Ctrl.ofWord, bit]

/-- A write that only an idle block performs is performed. -/
theorem whenIdle_of_idle {f : State → State} {s : State} (hb : s.status.busy = false) : whenIdle f s = f s := by
  rcases whenIdle_cases f s with ⟨hb', -⟩ | ⟨-, he⟩
  · rw [hb] at hb'; cases hb'
  · exact he

/-- A write to a plain register of an idle block, which stores what `f` says, and the read of it that follows. -/
theorem reads_back {off : Byte} {v w : Word} {s : State} {P : State → Prop} (r : Reg) (f : State → State)
    (hidle : s.status.busy = false) (ha : off.extractLsb' 0 2 = 0#2) (hr : regAt off = some r) (hb : r ≠ .bufData)
    (hw : writeReg r v s = .next (whenIdle f s)) (hreads : (f s).reads = s.reads) (hv : regValue r (f s) = w)
    (hP : P (f s)) :
    ∃ t u, Takes (.hostWr 32 off v) s t ∧ Takes (.hostRd 32 off) t u ∧
      u = { t with reads := s.reads ++ [w] } ∧ P t := by
  rw [whenIdle_of_idle hidle] at hw
  refine ⟨f s, _, takes_hostWr ha hr hw, takes_hostRd r (f s) ha hr hb, ?_, hP⟩
  rw [hreads, hv]

/-- Settles O45: the idle reads register by register, then each plain register's write and the read of it. -/
theorem registerWritesReadBack : Obligations.RegisterWritesReadBack := by
  intro v s hb
  constructor
  · have hcrc : regValue .crc s = s.crc.setWidth 32 := by simp [regValue, hb]
    have hcsum : regValue .csum s = s.csum.setWidth 32 := by simp [regValue, hb]
    simp only [List.forall_mem_cons]
    rw [← hcrc, ← hcsum]
    exact ⟨takes_hostRd .id s rfl rfl nofun,
      takes_hostRd .ctrl s rfl rfl nofun,
      takes_hostRd .timeout s rfl rfl nofun,
      takes_hostRd .cmd s rfl rfl nofun,
      takes_hostRd .status s rfl rfl nofun,
      takes_hostRd .sessCfg s rfl rfl nofun,
      takes_hostRd .sessTmo s rfl rfl nofun,
      takes_hostRd .seq s rfl rfl nofun,
      takes_hostRd .errCnt s rfl rfl nofun,
      takes_hostRd .succCnt s rfl rfl nofun,
      takes_hostRd .totCnt s rfl rfl nofun,
      takes_hostRd .byteCnt s rfl rfl nofun,
      takes_hostRd .crc s rfl rfl nofun,
      takes_hostRd .csum s rfl rfl nofun,
      takes_hostRd .hdr s rfl rfl nofun,
      takes_hostRd .trl s rfl rfl nofun,
      takes_hostRd .rxTrl s rfl rfl nofun,
      takes_hostRd .txLen s rfl rfl nofun,
      takes_hostRd .rxLen s rfl rfl nofun,
      takes_hostRd .bufAddr s rfl rfl nofun, nofun⟩
  · simp only [List.forall_mem_cons]
    exact ⟨reads_back .ctrl (fun s => { s with ctrl := Ctrl.ofWord v }) hb rfl rfl nofun rfl rfl (ctrlWord_ofWord v) rfl,
      reads_back .timeout (fun s => { s with timeout := v.setWidth 16 }) hb rfl rfl nofun rfl rfl
        (setWidth_setWidth_and v _ rfl) rfl,
      reads_back .seq (fun s => { s with seq := v.setWidth 8 }) hb rfl rfl nofun rfl rfl (setWidth_setWidth_and v _ rfl) rfl,
      reads_back .trl (fun s => { s with trl := v.setWidth 16 }) hb rfl rfl nofun rfl rfl (setWidth_setWidth_and v _ rfl) rfl,
      reads_back .txLen (fun s => { s with txLen := v.setWidth 11 }) hb rfl rfl nofun rfl rfl
        (setWidth_setWidth_and v _ rfl) rfl,
      reads_back .bufAddr (fun s => { s with bufAddr := v.setWidth 10 }) hb rfl rfl nofun rfl rfl
        (setWidth_setWidth_and v _ rfl) rfl,
      nofun⟩

end Sys2Proof.Machine
end

section
/-! PROOF. The host port's accesses: undefined, reserved, while a command runs, and the buffer port (spec/20_memory.md R101, R102,
R105 to R108). -/

namespace Sys2Proof.Machine

/-! ## Accesses that reach no register -/

/-- An access of another width or alignment reaches no register (R101). -/
theorem target_of_undefined {width : Nat} {off : Byte} (h : width ≠ 32 ∨ off.toNat % 4 ≠ 0) : target width off = none := by
  refine if_neg fun ⟨hw, ha⟩ => h.elim (fun h => h hw) fun h => h ?_
  have hlow := congrArg BitVec.toNat ha
  simpa using hlow

/-- No register lies past BUFDATA (10_state.md R31). -/
theorem regAt_lt {off : Byte} {r : Reg} (h : regAt off = some r) : off.toNat < 0x54 := by
  unfold regAt at h
  split at h <;> cases h <;> decide

/-- The unmapped offsets (R102). -/
theorem target_of_unmapped (width : Nat) {off : Byte} (h : 0x54 ≤ off.toNat) : target width off = none := by
  by_contra hne
  obtain ⟨r, hr⟩ := Option.ne_none_iff_exists'.mp hne
  obtain ⟨-, -, hreg⟩ := target_eq_some hr
  exact absurd (regAt_lt hreg) (Nat.not_lt.mpr h)

section NoRegister
variable {width : Nat} {off : Byte} (ht : target width off = none)
include ht

theorem takes_hostWr_of_target_none (v : Word) (s : State) : Takes (.hostWr width off v) s s := by
  refine (takes_iff rfl).mpr ?_
  rw [handle, hostWrite, ht]

theorem takes_hostRd_of_target_none (s : State) :
    Takes (.hostRd width off) s { s with reads := s.reads ++ [0#32] } := by
  refine (takes_iff rfl).mpr ?_
  rw [handle, hostRead, ht]
  rfl

end NoRegister

/-- Settles O41: such an access reaches no register. -/
theorem undefinedAccessesDoNothing : Obligations.UndefinedAccessesDoNothing := by
  intro width off v s h
  have ht := target_of_undefined h
  exact ⟨takes_hostWr_of_target_none ht v s, takes_hostRd_of_target_none ht s⟩

/-! ## Reserved bits -/

/-- A mask that leaves a field alone has no bit in it. -/
theorem getLsbD_of_extractLsb'_eq_zero {m : Word} {k n i : Nat} (hm : m.extractLsb' k n = 0#n) (hi : i < n) :
    m.getLsbD (k + i) = false := by
  have hbit := congrArg (BitVec.getLsbD · i) hm
  simpa [BitVec.getLsbD_extractLsb', hi] using hbit

/-- A value narrower than a word reads 0 in the bits above it. -/
theorem setWidth_and_eq_zero {n : Nat} (x : BitVec n) {m : Word} (hm : m.extractLsb' 0 n = 0#n) :
    x.setWidth 32 &&& m = 0#32 := by
  refine BitVec.eq_of_getLsbD_eq fun i hi => ?_
  rw [BitVec.getLsbD_and, BitVec.getLsbD_setWidth]
  by_cases hn : i < n
  · have hbit := getLsbD_of_extractLsb'_eq_zero hm hn
    rw [Nat.zero_add] at hbit
    simp [hbit]
  · simp [BitVec.getLsbD_of_ge x i (Nat.le_of_not_lt hn)]

/-- Clearing the bits of a mask outside a field leaves the field. -/
theorem extractLsb'_and_not (v : Word) {m : Word} {k n : Nat} (hm : m.extractLsb' k n = 0#n) (hk : k + n ≤ 32) :
    (v &&& ~~~m).extractLsb' k n = v.extractLsb' k n := by
  refine BitVec.eq_of_getLsbD_eq fun i hi => ?_
  have hbit := getLsbD_of_extractLsb'_eq_zero hm hi
  have hlt : k + i < 32 := by omega
  simp only [BitVec.getLsbD_extractLsb', BitVec.getLsbD_and, BitVec.getLsbD_not, hbit, hlt]
  simp

/-- Clearing the bits of a mask above a field that fills the low bits leaves the field. -/
theorem setWidth_and_not (v : Word) {m : Word} {n : Nat} (hm : m.extractLsb' 0 n = 0#n) (hn : n ≤ 32) :
    (v &&& ~~~m).setWidth n = v.setWidth n := by
  rw [BitVec.setWidth_eq_extractLsb' hn, BitVec.setWidth_eq_extractLsb' hn]
  exact extractLsb'_and_not v hm (by omega)

/-- Clearing the bits of a mask leaves a bit outside it. -/
theorem getLsbD_and_not (v : Word) {m : Word} {i : Nat} (hm : m.getLsbD i = false) (hi : i < 32) :
    (v &&& ~~~m).getLsbD i = v.getLsbD i := by
  rw [BitVec.getLsbD_and, BitVec.getLsbD_not, hm, decide_eq_true hi]
  exact Bool.and_true _

theorem ctrlWord_reserved (c : Ctrl) : c.word &&& reservedBits .ctrl = 0#32 := by
  refine BitVec.eq_of_getLsbD_eq fun i hi => ?_
  rw [BitVec.getLsbD_and, getLsbD_ctrlWord]
  simp only [BitVec.getLsbD_append]
  interval_cases i <;> simp [reservedBits]

theorem statusWord_reserved (s : State) : statusWord s &&& reservedBits .status = 0#32 := by
  refine BitVec.eq_of_getLsbD_eq fun i hi => ?_
  rw [BitVec.getLsbD_and, getLsbD_statusWord]
  simp only [BitVec.getLsbD_append]
  interval_cases i <;> simp [reservedBits]

/-- A bit of SESSCFG, with the width of the word as the sum of its fields' widths. -/
theorem getLsbD_sessCfgWord (c : SessCfg) (i : Nat) : c.word.getLsbD i =
    (0#8 ++ c.retry ++ c.pad ++ 0#4 ++ 0#1 ++ bit c.crcPref ++ c.mode).getLsbD i := rfl

theorem sessCfgWord_reserved (c : SessCfg) : c.word &&& reservedBits .sessCfg = 0#32 := by
  refine BitVec.eq_of_getLsbD_eq fun i hi => ?_
  rw [BitVec.getLsbD_and, getLsbD_sessCfgWord]
  simp only [BitVec.getLsbD_append]
  interval_cases i <;> simp [reservedBits]

/-- A value that reads 0 while a command runs keeps clear of a mask that it keeps clear of while none does. -/
theorem ite_zero_and_eq_zero {b : Bool} {x m : Word} (h : x &&& m = 0#32) : (if b then 0 else x) &&& m = 0#32 := by
  cases b
  · exact h
  · exact BitVec.zero_and

/-- Every register reads 0 in its reserved bits (R102; 10_state.md R32 to R52). -/
theorem regValue_reserved (r : Reg) (s : State) : regValue r s &&& reservedBits r = 0#32 := by
  cases r
  case ctrl => exact ctrlWord_reserved s.ctrl
  case status => exact statusWord_reserved s
  case sessCfg => exact sessCfgWord_reserved s.sessCfg
  case crc => exact ite_zero_and_eq_zero (setWidth_and_eq_zero s.crc rfl)
  case csum => exact ite_zero_and_eq_zero (setWidth_and_eq_zero s.csum rfl)
  case bufData => exact ite_zero_and_eq_zero (setWidth_and_eq_zero (bufByte s s.bufAddr.toNat) rfl)
  case id | cmd | succCnt | totCnt | byteCnt => exact BitVec.and_zero
  all_goals exact setWidth_and_eq_zero _ rfl

/-- A read-only register ignores a write (R102). -/
theorem writeReg_readOnly {r : Reg} (h : isReadOnly r = true) (v : Word) (s : State) : writeReg r v s = .next s := by
  cases r
  case ctrl | timeout | cmd | status | seq | trl | txLen | bufAddr | bufData => cases h
  all_goals rfl

theorem ctrl_ofWord_reserved (v : Word) : Ctrl.ofWord (v &&& ~~~reservedBits .ctrl) = Ctrl.ofWord v := by
  unfold Ctrl.ofWord
  rw [extractLsb'_and_not v rfl (by decide), extractLsb'_and_not v rfl (by decide), extractLsb'_and_not v rfl (by decide),
    getLsbD_and_not v rfl (by decide), getLsbD_and_not v rfl (by decide)]

theorem status_write_reserved (v : Word) (st : Status) :
    Status.write (v &&& ~~~reservedBits .status) st = Status.write v st := by
  unfold Status.write
  rw [getLsbD_and_not v rfl (by decide), getLsbD_and_not v rfl (by decide)]

theorem bufStore_reserved (v : Word) : bufStore (v &&& ~~~reservedBits .bufData) = bufStore v := by
  funext s
  unfold bufStore
  rw [setWidth_and_not v rfl (by decide)]

/-- A register ignores what a write puts into its reserved bits (R102). -/
theorem writeReg_reserved (r : Reg) (v : Word) (s : State) :
    writeReg r (v &&& ~~~reservedBits r) s = writeReg r v s := by
  cases r
  case cmd => exact congrArg (submit · s) BitVec.and_allOnes
  case ctrl => simp only [writeReg, ctrl_ofWord_reserved]
  case status => simp only [writeReg, status_write_reserved]
  case bufData => simp only [writeReg, bufStore_reserved]
  case timeout | seq | trl | txLen | bufAddr =>
    simp only [writeReg]
    rw [setWidth_and_not v rfl (by decide)]
  all_goals rfl

/-- Settles O42: no register lies past BUFDATA, and the rest goes register by register. -/
theorem reservedAndReadOnlyAccesses : Obligations.ReservedAndReadOnlyAccesses := by
  refine ⟨fun off v s hlo _ => ?_, fun r v s => ?_, fun s => takes_hostRd .cmd s rfl rfl nofun⟩
  · have ht := target_of_unmapped 32 hlo
    exact ⟨takes_hostWr_of_target_none ht v s, takes_hostRd_of_target_none ht s⟩
  · exact ⟨regValue_reserved r s, fun h => writeReg_readOnly h v s, writeReg_reserved r v s⟩

/-! ## Accesses while a command runs -/

/-- A read returns the register's value and has its side effect (R104). -/
theorem takes_hostRd_reg {off : Byte} {r : Reg} {s : State} (ha : off.extractLsb' 0 2 = 0#2) (hr : regAt off = some r) :
    Takes (.hostRd 32 off) s (answerRead (regValue r s) (readEffect r s)) := by
  refine (takes_iff rfl).mpr ?_
  have htarget : target 32 off = some r := by rw [target, if_pos ⟨rfl, ha⟩, hr]
  rw [handle, hostRead, htarget]

/-- A write that only an idle block performs is dropped. -/
theorem whenIdle_of_busy {s : State} (hb : s.status.busy = true) (f : State → State) : whenIdle f s = s := by
  rcases whenIdle_cases f s with ⟨-, he⟩ | ⟨hb', -⟩
  · exact he
  · rw [hb] at hb'; cases hb'

/-- A CMD write while a command runs is dropped and recorded (42_sequencer_common.md R302). -/
theorem submit_of_busy {s : State} (hb : s.status.busy = true) (v : Word) : submit v s = .next (overrun s) := by
  rcases submit_cases v s with ⟨-, he⟩ | ⟨hb', -⟩
  · exact he
  · rw [hb] at hb'; cases hb'

/-- A write to a register that takes writes while idle only is dropped while a command runs (R105). -/
theorem takes_hostWr_of_busy {off : Byte} {v : Word} {s : State} {f : State → State} (r : Reg) (hb : s.status.busy = true)
    (ha : off.extractLsb' 0 2 = 0#2) (hr : regAt off = some r) (hw : writeReg r v s = .next (whenIdle f s)) :
    Takes (.hostWr 32 off v) s s :=
  takes_hostWr ha hr (by rw [hw, whenIdle_of_busy hb])

/-- No read has a side effect while a command runs (R105, R110). -/
theorem readEffect_of_busy {s : State} (hb : s.status.busy = true) (r : Reg) : readEffect r s = s := by
  cases r
  case bufData => exact if_pos hb
  all_goals rfl

/-- A read while a command runs returns the register's value and changes nothing else (R105). -/
theorem takes_hostRd_of_busy {off : Byte} {w : Word} {s : State} (r : Reg) (hb : s.status.busy = true)
    (ha : off.extractLsb' 0 2 = 0#2) (hr : regAt off = some r) (hv : regValue r s = w) :
    Takes (.hostRd 32 off) s { s with reads := s.reads ++ [w] } := by
  have h := takes_hostRd_reg (s := s) ha hr
  rwa [readEffect_of_busy hb, hv] at h

/-- Settles O43: the writes dropped, CMD's and STATUS's, the reads that return 0, then each other register's read. -/
theorem busyAccesses : Obligations.BusyAccesses := by
  intro v s hb
  refine ⟨?writes, takes_hostWr (r := .cmd) rfl rfl (submit_of_busy hb v), takes_hostWr (r := .status) rfl rfl rfl,
    ?hidden, ?reads⟩ <;> simp only [List.forall_mem_cons]
  case writes =>
    exact ⟨takes_hostWr_of_busy .ctrl hb rfl rfl rfl,
      takes_hostWr_of_busy .timeout hb rfl rfl rfl,
      takes_hostWr_of_busy .seq hb rfl rfl rfl,
      takes_hostWr_of_busy .trl hb rfl rfl rfl,
      takes_hostWr_of_busy .txLen hb rfl rfl rfl,
      takes_hostWr_of_busy .bufAddr hb rfl rfl rfl,
      takes_hostWr_of_busy .bufData hb rfl rfl rfl, nofun⟩
  case hidden =>
    exact ⟨takes_hostRd_of_busy .bufData hb rfl rfl (if_pos hb),
      takes_hostRd_of_busy .crc hb rfl rfl (if_pos hb),
      takes_hostRd_of_busy .csum hb rfl rfl (if_pos hb), nofun⟩
  case reads =>
    exact ⟨takes_hostRd_of_busy .id hb rfl rfl rfl,
      takes_hostRd_of_busy .ctrl hb rfl rfl rfl,
      takes_hostRd_of_busy .timeout hb rfl rfl rfl,
      takes_hostRd_of_busy .cmd hb rfl rfl rfl,
      takes_hostRd_of_busy .status hb rfl rfl rfl,
      takes_hostRd_of_busy .sessCfg hb rfl rfl rfl,
      takes_hostRd_of_busy .sessTmo hb rfl rfl rfl,
      takes_hostRd_of_busy .seq hb rfl rfl rfl,
      takes_hostRd_of_busy .errCnt hb rfl rfl rfl,
      takes_hostRd_of_busy .succCnt hb rfl rfl rfl,
      takes_hostRd_of_busy .totCnt hb rfl rfl rfl,
      takes_hostRd_of_busy .byteCnt hb rfl rfl rfl,
      takes_hostRd_of_busy .hdr hb rfl rfl rfl,
      takes_hostRd_of_busy .trl hb rfl rfl rfl,
      takes_hostRd_of_busy .rxTrl hb rfl rfl rfl,
      takes_hostRd_of_busy .txLen hb rfl rfl rfl,
      takes_hostRd_of_busy .rxLen hb rfl rfl rfl,
      takes_hostRd_of_busy .bufAddr hb rfl rfl rfl, nofun⟩

/-! ## The buffer port -/

/-- BUFADDR wraps at the end of the buffer (R106, R107). -/
theorem bufAddr_succ_toNat (s : State) : (s.bufAddr + 1).toNat = (s.bufAddr.toNat + 1) % 1024 :=
  BitVec.toNat_add _ _

/-- A BUFDATA read of an idle block returns the byte at BUFADDR and advances it (R106). -/
theorem takes_hostRd_bufData {s : State} (hb : s.status.busy = false) :
    Takes (.hostRd 32 0x50#8) s (answerRead ((bufByte s s.bufAddr.toNat).setWidth 32) (advanceBufAddr s)) := by
  have h := takes_hostRd_reg (off := 0x50#8) (r := .bufData) (s := s) rfl rfl
  have hne : ¬ s.status.busy = true := by simp [hb]
  have hv : regValue .bufData s = (bufByte s s.bufAddr.toNat).setWidth 32 := if_neg hne
  have he : readEffect .bufData s = advanceBufAddr s := if_neg hne
  rwa [hv, he] at h

/-- A write to an idle block's register is performed (R107, R108). -/
theorem takes_hostWr_of_idle {off : Byte} {v : Word} {s : State} {f : State → State} (r : Reg) (hb : s.status.busy = false)
    (ha : off.extractLsb' 0 2 = 0#2) (hr : regAt off = some r) (hw : writeReg r v s = .next (whenIdle f s)) :
    Takes (.hostWr 32 off v) s (f s) :=
  takes_hostWr ha hr (by rw [hw, whenIdle_of_idle hb])

/-- Settles O44: the buffer's own law for BUFDATA's store, and BUFADDR as a plain register. -/
theorem bufferPortReadsAndWrites : Obligations.BufferPortReadsAndWrites := by
  intro v s hb
  refine ⟨⟨_, takes_hostRd_bufData hb, rfl, bufAddr_succ_toNat s, ?value⟩,
    ⟨bufStore v s, takes_hostWr_of_idle .bufData hb rfl rfl rfl, rfl, bufAddr_succ_toNat s, bufByte_bufStore v s⟩,
    takes_hostWr_of_idle .bufAddr hb rfl rfl rfl, _, takes_hostRd .bufAddr s rfl rfl nofun, rfl⟩
  case value => rw [BitVec.ofNat_toNat]; rfl

end Sys2Proof.Machine
end

section
/-! PROOF. The link primitives and the purge (spec/20_memory.md R120 to R123). -/

namespace Sys2Proof.Machine

/-! ## LinkRead and LinkWrite -/

/-- rx while a LinkRead waits: the byte is gathered, and the last one asked for resumes the command (R120). -/
theorem takes_rx {b : Byte} {s : State} (hr : s.hid.pt.isRead = true) :
    (s.hid.rk + 1 ≠ s.hid.rn → Takes (.rx b) s (gather b s)) ∧
      (s.hid.rk + 1 = s.hid.rn → ∀ t, Takes (.rx b) s t ↔ readDone (gather b s) b = .next t) := by
  have hen : Event.enabled s.hid.pt (.rx b) = true := hr
  rcases onRx_cases b s with ⟨hk, ho⟩ | ⟨hk, ho⟩
  · exact ⟨fun h => absurd hk h, fun _ t => by rw [takes_iff hen, handle, ho]⟩
  · exact ⟨fun _ => (takes_iff hen).mpr ho, fun h => absurd h hk⟩

/-- txtake while a LinkWrite waits: the byte presented leaves, and the last one resumes the command (R121). -/
theorem takes_txtake {b : Byte} {s : State} (hw : s.hid.pt.isWrite = true) (hb : s.hid.ws[s.hid.wj]? = some b) :
    (s.hid.wj + 1 ≠ s.hid.ws.length → Takes .txtake s (sendByte b s)) ∧
      (s.hid.wj + 1 = s.hid.ws.length → Takes .txtake s (writeDone (sendByte b s))) := by
  have hen : Event.enabled s.hid.pt .txtake = true := hw
  rcases onTake_cases s with ⟨hnone, -⟩ | ⟨c, hc, h⟩
  · rw [hb] at hnone; cases hnone
  · obtain rfl : b = c := Option.some.inj (hb.symm.trans hc)
    rcases h with ⟨hj, ho⟩ | ⟨hj, ho⟩
    · exact ⟨fun h => absurd hj h, fun _ => (takes_iff hen).mpr ho⟩
    · exact ⟨fun _ => (takes_iff hen).mpr ho, fun h => absurd h hj⟩

/-- tick while a primitive waits: TMR counts down, and the last tick ends the primitive (R120, R121; 60_exceptions.md R521). -/
theorem takes_tick {s : State} (hpt : s.hid.pt.isRead = true ∨ s.hid.pt.isWrite = true) :
    (1 < s.hid.tmr.toNat → Takes .tick s (countTick s)) ∧
      (s.hid.tmr.toNat ≤ 1 →
        Takes .tick s (if s.hid.pt.isRead then readTimeout s else writeDone (setTxto s))) := by
  have hticks : Takes .tick s (onTick s) := (takes_iff rfl).mpr rfl
  rcases onTick_cases s with ⟨hr, ht, ho⟩ | ⟨hw, ht, ho⟩ | ⟨-, ht, ho⟩ | ⟨hr, hw, -⟩
  · refine ⟨fun h => absurd h (Nat.not_lt.mpr ht), fun _ => ?_⟩
    rwa [if_pos hr, ← ho]
  · refine ⟨fun h => absurd h (Nat.not_lt.mpr ht), fun _ => ?_⟩
    rwa [if_neg fun hr => Point.not_read_and_write _ ⟨hr, hw⟩, ← ho]
  · exact ⟨fun _ => ho ▸ hticks, fun h => absurd h (Nat.not_le.mpr ht)⟩
  · exact absurd hpt (by simp [hr, hw])

/-- Settles O23: the two starts by definition, then the three events, each from the lemma that says all it can do. -/
theorem linkPrimitivesRun : Obligations.LinkPrimitivesRun :=
  ⟨fun _ _ _ _ => rfl, fun _ _ _ => rfl, fun _ _ => takes_rx, fun _ _ => takes_txtake, fun _ => takes_tick⟩

/-! ## The purge -/

theorem nextRead_ne_rxpRd (pt : Point) : nextRead pt ≠ some .rxpRd := by
  cases pt <;> nofun

/-- A continuation enters a purge through the purge's start alone (R123). -/
theorem Resumes.eq_startPurge {v t : State} (ht : Resumes v t) (hv : v.hid.pt ≠ .rxpRd) (hpt : t.hid.pt = .rxpRd) :
    ∃ u, t = startPurge u := by
  cases ht with
  | retryPurge => exact ⟨_, rfl⟩
  | reads pt hnext =>
    obtain rfl : pt = .rxpRd := hpt
    exact absurd hnext (nextRead_ne_rxpRd _)
  | purgeByte h => exact absurd h hv
  | purgeGoesOn h => exact absurd h hv
  | _ => cases hpt

/-- No command's accepting step ends in a purge. -/
theorem Accepts.pt_ne_rxpRd {i : Instr} {s t : State} (ht : Accepts s i t) : t.hid.pt ≠ .rxpRd := by
  cases ht <;> nofun

/-- No host write starts a purge. -/
theorem HostMove.pt_ne_rxpRd {v : Word} {off : Byte} {s t : State} (hm : HostMove v s off t) (hs : s.hid.pt ≠ .rxpRd) :
    t.hid.pt ≠ .rxpRd := by
  cases hm with
  | badCmd => nofun
  | command hb hd ht => exact ht.pt_ne_rxpRd
  | _ => exact hs

/-- Whatever the event, a purge is entered through its start alone. -/
theorem eq_startPurge_of_handle {e : Event} {s t : State} (hen : Event.enabled s.hid.pt e = true) (h : handle e s = .next t)
    (hs : s.hid.pt ≠ .rxpRd) (hpt : t.hid.pt = .rxpRd) : ∃ u, t = startPurge u := by
  have link (hl : e.isLink = true) : ∃ u, t = startPurge u := by
    obtain ⟨v, hv, hc⟩ := (handle_link hl hen h).passed
    rw [← unstored_field (fun x => x.hid.pt) hv.rest] at hs
    rcases hc with rfl | ht
    · exact absurd hpt hs
    · exact ht.eq_startPurge hs hpt
  cases e with
  | hostWr width off v =>
    rcases hostWrite_cases h with rfl | ⟨-, hm⟩
    · exact absurd hpt hs
    · exact absurd hpt (hm.pt_ne_rxpRd hs)
  | hostRd width off =>
    cases h
    obtain ⟨v, a, he⟩ := hostRead_eq width off s
    rw [he] at hpt
    exact absurd hpt hs
  | reset => cases h; cases hpt
  | rx b => exact link rfl
  | txtake => exact link rfl
  | tick => exact link rfl

/-- A byte that reaches a purge's read is discarded, and the purge reads on (R123). -/
theorem takes_rx_purge {s : State} (h : Awaits .rxpRd s) (b : Byte) : Takes (.rx b) s (purgeByte (gather b s)) := by
  obtain ⟨hpt, hn, hk, -⟩ := h
  refine ((takes_rx (by rw [hpt]; rfl)).2 (by rw [hn, hk]) _).mpr ?_
  simp [readDone, hpt]

/-- The last tick of a purge's read ends the purge or lets it read on (R123; log entry 21). -/
theorem takes_tick_purge {s : State} (hpt : s.hid.pt = .rxpRd) (ht : s.hid.tmr.toNat ≤ 1) :
    Takes .tick s (purgeTimeout s) := by
  have hr : s.hid.pt.isRead = true := by rw [hpt]; rfl
  have h := (takes_tick (.inl hr)).2 ht
  rw [if_pos hr] at h
  simpa [readTimeout, hpt] using h

/-- Settles O25: a purge is entered through its start alone; then the discarded byte, and the three ways a tick ends its read. -/
theorem purgeDiscardsUntilQuiet : Obligations.PurgeDiscardsUntilQuiet := by
  refine ⟨fun e s t hen h hs hpt => ?entered, fun s hawaits => ⟨fun b => ?byte, fun ht => ?tick⟩⟩
  case entered =>
    obtain ⟨u, rfl⟩ := eq_startPurge_of_handle hen ((takes_iff hen).mp h) hs hpt
    exact ⟨rfl, rfl, rfl, rfl, rfl⟩
  case byte =>
    exact ⟨_, takes_rx_purge hawaits b, ⟨rfl, rfl, rfl, rfl, rfl, rfl, rfl, rfl, rfl⟩, rfl, rfl, rfl, rfl, rfl⟩
  case tick =>
    obtain ⟨hpt, -⟩ := hawaits
    have htakes := takes_tick_purge hpt ht
    have hnak (u : State) : WritesNext .rxn2Wr [NAK] u (sendNak u) := ⟨rfl, rfl, rfl, rfl, rfl, rfl, rfl, rfl⟩
    rcases purgeTimeout_cases s with ⟨hquiet, he⟩ | ⟨hheard, he | he⟩ <;> rw [he] at htakes
    · exact ⟨_, htakes, rfl, rfl, rfl, rfl, fun _ => hnak s, fun h => absurd (hquiet.symm.trans h) nofun⟩
    · exact ⟨_, htakes, rfl, rfl, rfl, rfl, fun h => absurd (hheard.symm.trans h) nofun, fun _ => .inl (hnak (drawPurge s))⟩
    · exact ⟨_, htakes, rfl, rfl, rfl, rfl, fun h => absurd (hheard.symm.trans h) nofun,
        fun _ => .inr ⟨⟨rfl, rfl, rfl, rfl, rfl, rfl, rfl, rfl, rfl⟩, rfl⟩⟩

end Sys2Proof.Machine
end

section
/-! PROOF. Decoding and encoding of command words (spec/30_encoding.md R150 to R157). -/

namespace Sys2Proof

/-! ## A word and its fields -/

/-- A bit of a packed word, found in its field. -/
theorem getLsbD_packWord (h : Half) (b op : Byte) (i : Nat) : (packWord h b op).getLsbD i =
    if i < 8 then op.getLsbD i else if i < 16 then b.getLsbD (i - 8) else h.getLsbD (i - 16) := by
  have hpack : (packWord h b op).getLsbD i = (h ++ b ++ op).getLsbD i := rfl
  have hi : i - 8 < 8 ↔ i < 16 := by omega
  rw [hpack, BitVec.getLsbD_append, BitVec.getLsbD_append]
  simp only [hi, Nat.sub_sub, Nat.reduceAdd]

@[simp] theorem fieldOp_packWord (h : Half) (b op : Byte) : fieldOp (packWord h b op) = op := by
  refine BitVec.eq_of_getLsbD_eq fun i hi => ?_
  rw [fieldOp, BitVec.getLsbD_extractLsb', getLsbD_packWord]
  simp [hi]

@[simp] theorem fieldB_packWord (h : Half) (b op : Byte) : fieldB (packWord h b op) = b := by
  refine BitVec.eq_of_getLsbD_eq fun i hi => ?_
  rw [fieldB, BitVec.getLsbD_extractLsb', getLsbD_packWord]
  have hlt : 8 + i < 16 := by omega
  simp [hi, hlt]

@[simp] theorem fieldH_packWord (h : Half) (b op : Byte) : fieldH (packWord h b op) = h := by
  refine BitVec.eq_of_getLsbD_eq fun i hi => ?_
  rw [fieldH, BitVec.getLsbD_extractLsb', getLsbD_packWord]
  have hge : ¬ 16 + i < 8 := by omega
  simp [hi, hge]

/-- A word is its three fields (R150). -/
theorem packWord_fields (w : Word) : packWord (fieldH w) (fieldB w) (fieldOp w) = w := by
  refine BitVec.eq_of_getLsbD_eq fun i hi => ?_
  rw [getLsbD_packWord]
  simp only [fieldH, fieldB, fieldOp, BitVec.getLsbD_extractLsb']
  split
  · simp [*]
  · split
    · have hb : i - 8 < 8 ∧ 8 + (i - 8) = i := by omega
      simp [hb]
    · have hh : i - 16 < 16 ∧ 16 + (i - 16) = i := by omega
      simp [hh]

/-- Masking a word masks each of its fields. -/
theorem and_packWord (w : Word) (h : Half) (b op : Byte) :
    w &&& packWord h b op = packWord (fieldH w &&& h) (fieldB w &&& b) (fieldOp w &&& op) := by
  have hH : fieldH (w &&& packWord h b op) = fieldH w &&& h := by
    rw [fieldH, BitVec.extractLsb'_and, ← fieldH, ← fieldH, fieldH_packWord]
  have hB : fieldB (w &&& packWord h b op) = fieldB w &&& b := by
    rw [fieldB, BitVec.extractLsb'_and, ← fieldB, ← fieldB, fieldB_packWord]
  have hOp : fieldOp (w &&& packWord h b op) = fieldOp w &&& op := by
    rw [fieldOp, BitVec.extractLsb'_and, ← fieldOp, ← fieldOp, fieldOp_packWord]
  rw [← packWord_fields (w &&& packWord h b op), hH, hB, hOp]

/-- The useCrc operand of a word is bit 0 of B (R157). -/
theorem and_one_eq_useCrcByte (b : Byte) : b &&& 0x01#8 = useCrcByte (b.getLsbD 0) := by
  rw [BitVec.and_one_eq_setWidth_ofBool_getLsbD]
  cases b.getLsbD 0 <;> rfl

@[simp] theorem useCrcByte_getElem_zero (u : Bool) : (useCrcByte u)[0] = u := by
  cases u <;> rfl

/-! ## A command and the word it is read from -/

/-- The command of the same opcode whose operands are those of `w` (R152). -/
def Instr.readFrom (w : Word) : Instr → Instr
  | .engClr => .engClr
  | .engLdcrc _ => .engLdcrc (fieldH w)
  | .engLdsum _ => .engLdsum (fieldB w)
  | .engFeed _ => .engFeed (fieldB w)
  | .engFeedbuf _ => .engFeedbuf (fieldH w)
  | .frmHdr _ _ => .frmHdr (fieldH w) (fieldB w)
  | .frmTrl _ _ => .frmTrl (fieldH w) ((fieldB w).getLsbD 0)
  | .frmChk _ _ => .frmChk (fieldH w) ((fieldB w).getLsbD 0)
  | .txNeg => .txNeg
  | .txBlk => .txBlk
  | .txEot => .txEot
  | .rxNeg => .rxNeg
  | .rxBlk => .rxBlk

@[simp] theorem Instr.opcode_readFrom (w : Word) (i : Instr) : (i.readFrom w).opcode = i.opcode := by
  cases i <;> rfl

@[simp] theorem fieldOp_encode (i : Instr) : fieldOp (encode i) = i.opcode := by
  cases i <;> exact fieldOp_packWord _ _ _

/-- The operands of a command's own word are its operands. -/
theorem Instr.readFrom_encode (i : Instr) : i.readFrom (encode i) = i := by
  cases i <;> simp [Instr.readFrom, encode]

/-- A word with a command's opcode decodes to that command with the word's operands (R153). -/
theorem decode_of_fieldOp {w : Word} {i : Instr} (h : fieldOp w = i.opcode) : decode w = .ok (i.readFrom w) := by
  cases i <;> simp only [decode, h, Instr.opcode, Instr.readFrom]

/-- A word decodes to the command that has the word's opcode and the word's operands, and to no other (R153). -/
theorem decode_eq_ok_iff {w : Word} {i : Instr} : decode w = .ok i ↔ fieldOp w = i.opcode ∧ i.readFrom w = i := by
  constructor
  · intro h
    have hop : fieldOp w = i.opcode := by
      unfold decode at h
      split at h <;> cases h <;> assumption
    rw [decode_of_fieldOp hop] at h
    exact ⟨hop, Except.ok.inj h⟩
  · rintro ⟨hop, hread⟩
    rw [decode_of_fieldOp hop, hread]

theorem decode_encode (i : Instr) : decode (encode i) = .ok i :=
  decode_eq_ok_iff.mpr ⟨fieldOp_encode i, i.readFrom_encode⟩

theorem encode_injective : Function.Injective encode := fun i j h =>
  Except.ok.inj ((decode_encode i).symm.trans ((congrArg decode h).trans (decode_encode j)))

/-! ## The bits a command uses -/

/-- Every command uses the whole of OP (R151). -/
theorem fieldOp_and_usedBits (w : Word) (i : Instr) : fieldOp (w &&& i.usedBits) = fieldOp w := by
  have hOp : fieldOp w &&& 0xFF#8 = fieldOp w := BitVec.and_allOnes
  cases i <;> rw [Instr.usedBits, and_packWord, fieldOp_packWord, hOp]

/-- The word of a command with the operands of `w` is `w` with its unused bits cleared (R151, R157). -/
theorem encode_readFrom {w : Word} {i : Instr} (h : fieldOp w = i.opcode) : encode (i.readFrom w) = w &&& i.usedBits := by
  have hH : fieldH w &&& 0xFFFF#16 = fieldH w := BitVec.and_allOnes
  have hB : fieldB w &&& 0xFF#8 = fieldB w := BitVec.and_allOnes
  cases i <;> simp [Instr.readFrom, encode, Instr.usedBits, and_packWord, hH, hB, h, Instr.opcode, and_one_eq_useCrcByte]

/-- A word decodes to a command just when the bits that command uses are those of the command's own word (R155). -/
theorem decode_eq_ok_iff_and_usedBits {w : Word} {i : Instr} : decode w = .ok i ↔ w &&& i.usedBits = encode i := by
  constructor
  · intro h
    obtain ⟨hop, hread⟩ := decode_eq_ok_iff.mp h
    rw [← encode_readFrom hop, hread]
  · intro h
    have hop : fieldOp w = i.opcode := by rw [← fieldOp_and_usedBits w i, h, fieldOp_encode]
    have hread : i.readFrom w = i := encode_injective ((encode_readFrom hop).trans h)
    exact decode_eq_ok_iff.mpr ⟨hop, hread⟩

/-- Settles O1: a command's own word has its opcode and its operands, and `decode_eq_ok_iff_and_usedBits` gives the other way. -/
theorem encodeDecodeRoundTrip : Obligations.EncodeDecodeRoundTrip :=
  ⟨decode_encode, fun _ _ h => (decode_eq_ok_iff_and_usedBits.mp h).symm⟩

/-- Settles O2: both words agree with the command's own word on its used bits; and OP alone fixes the opcode. -/
theorem unusedFieldsAreIgnored : Obligations.UnusedFieldsAreIgnored := by
  refine ⟨fun w w' i h hused => ?used, fun w w' i h hop => ⟨i.readFrom w', decode_of_fieldOp ?opcode, i.opcode_readFrom w'⟩⟩
  case used => exact decode_eq_ok_iff_and_usedBits.mpr (hused.trans (decode_eq_ok_iff_and_usedBits.mp h))
  case opcode => exact hop.trans (decode_eq_ok_iff.mp h).1

/-- Settles O4: thirteen closed words, each decoded as it stands. -/
theorem exampleWordsDecode : Obligations.ExampleWordsDecode := by
  unfold Obligations.ExampleWordsDecode
  decide

/-! ## The reserved opcodes -/

/-- OP's reserved values (R154). -/
abbrev ReservedOp (op : Nat) : Prop :=
  op = 0x00 ∨ (0x06 ≤ op ∧ op ≤ 0x0F) ∨ (0x13 ≤ op ∧ op ≤ 0x1F) ∨ (0x23 ≤ op ∧ op ≤ 0x27) ∨ 0x2A ≤ op

theorem Instr.not_reservedOp_opcode (i : Instr) : ¬ReservedOp i.opcode.toNat := by
  cases i <;> simp [Instr.opcode]

/-- Each value of OP outside the reserved ranges is the opcode of a command (R153, R154). -/
theorem exists_opcode_of_not_reservedOp {op : Byte} (h : ¬ReservedOp op.toNat) : ∃ i : Instr, op = i.opcode := by
  have hval : op.toNat = 1 ∨ op.toNat = 2 ∨ op.toNat = 3 ∨ op.toNat = 4 ∨ op.toNat = 5 ∨ op.toNat = 0x10 ∨
      op.toNat = 0x11 ∨ op.toNat = 0x12 ∨ op.toNat = 0x20 ∨ op.toNat = 0x21 ∨ op.toNat = 0x22 ∨ op.toNat = 0x28 ∨
      op.toNat = 0x29 := by omega
  rcases hval with hv | hv | hv | hv | hv | hv | hv | hv | hv | hv | hv | hv | hv
  · exact ⟨.engClr, BitVec.eq_of_toNat_eq hv⟩
  · exact ⟨.engLdcrc 0, BitVec.eq_of_toNat_eq hv⟩
  · exact ⟨.engLdsum 0, BitVec.eq_of_toNat_eq hv⟩
  · exact ⟨.engFeed 0, BitVec.eq_of_toNat_eq hv⟩
  · exact ⟨.engFeedbuf 0, BitVec.eq_of_toNat_eq hv⟩
  · exact ⟨.frmHdr 0 0, BitVec.eq_of_toNat_eq hv⟩
  · exact ⟨.frmTrl 0 false, BitVec.eq_of_toNat_eq hv⟩
  · exact ⟨.frmChk 0 false, BitVec.eq_of_toNat_eq hv⟩
  · exact ⟨.txNeg, BitVec.eq_of_toNat_eq hv⟩
  · exact ⟨.txBlk, BitVec.eq_of_toNat_eq hv⟩
  · exact ⟨.txEot, BitVec.eq_of_toNat_eq hv⟩
  · exact ⟨.rxNeg, BitVec.eq_of_toNat_eq hv⟩
  · exact ⟨.rxBlk, BitVec.eq_of_toNat_eq hv⟩

/-- The words that decode to no command are those with a reserved OP (R154). -/
theorem exists_decode_iff_not_reservedOp (w : Word) : (∃ i, decode w = .ok i) ↔ ¬ReservedOp (fieldOp w).toNat := by
  constructor
  · rintro ⟨i, h⟩
    rw [(decode_eq_ok_iff.mp h).1]
    exact i.not_reservedOp_opcode
  · intro h
    obtain ⟨i, hop⟩ := exists_opcode_of_not_reservedOp h
    exact ⟨_, decode_of_fieldOp hop⟩

end Sys2Proof

namespace Sys2Proof.Machine

/-- A CMD write of a reserved opcode to an idle block is accepted and completes with BAD_CMD (R154). -/
theorem submit_of_reservedOp {w : Word} {s : State} (hb : s.status.busy = false) (hop : ReservedOp (fieldOp w).toNat) :
    submit w s = .next (complete .badCmd (accept (fieldB w) (fieldH w) s)) := by
  rcases submit_cases w s with ⟨hb', -⟩ | ⟨-, ⟨op, -, he⟩ | ⟨i, hd, -⟩⟩
  · rw [hb] at hb'; cases hb'
  · exact he
  · exact absurd hop ((exists_decode_iff_not_reservedOp w).mp ⟨i, hd⟩)

/-- Settles O3: the reserved values are those of no command's opcode, and a CMD write with one is `submit_of_reservedOp`. -/
theorem reservedOpcodesEndBadCmd : Obligations.ReservedOpcodesEndBadCmd := fun w =>
  ⟨(exists_decode_iff_not_reservedOp w).mpr, fun hop _ hb => takes_hostWr rfl rfl (submit_of_reservedOp hb hop)⟩

end Sys2Proof.Machine
end

section
/-! PROOF. fill, ENG.CALC and drain as host programs (spec/30_encoding.md R159; spec/20_memory.md R106 to R108). -/

namespace Sys2Proof.Machine

/-! ## A run of events -/

theorem runEvents_cons {e : Event} {es : List Event} {s t : State} (h : Takes e s t) :
    runEvents (e :: es) s = runEvents es t := by
  unfold Takes at h
  rw [runEvents, h]

theorem runEvents_append {es es' : List Event} {s t : State} (h : runEvents es s = .next t) :
    runEvents (es ++ es') s = runEvents es' t := by
  induction es generalizing s with
  | nil => cases h; rfl
  | cons e es ih =>
    rw [List.cons_append, runEvents]
    rw [runEvents] at h
    cases hs : step (withInputs (e :: s.inputs) s) with
    | next u =>
      rw [hs] at h
      exact ih h
    | fault r => rw [hs] at h; cases h
    | refused r => rw [hs] at h; cases h

/-! ## The buffer from an index on -/

/-- Buf[k .. k+n-1]. -/
def bufFrom (s : State) (k n : Nat) : List Byte := (List.range' k n).map (bufByte s)

theorem bufRun_eq_bufFrom (s : State) (n : Nat) : bufRun s n = bufFrom s 0 n := by
  rw [bufRun, bufFrom, List.range_eq_range']

theorem bufFrom_succ (s : State) (k n : Nat) : bufFrom s k (n + 1) = bufByte s k :: bufFrom s (k + 1) n := rfl

theorem bufFrom_congr {s t : State} (h : ∀ i, bufByte t i = bufByte s i) (k n : Nat) : bufFrom t k n = bufFrom s k n :=
  List.map_congr_left fun i _ => h i

/-- The index BUFADDR points at, where it is inside the buffer. -/
theorem bufAddr_toNat_of_eq {s : State} {k : Nat} (h : s.bufAddr = BitVec.ofNat 10 k) (hk : k < 1024) :
    s.bufAddr.toNat = k := by
  rw [h, BitVec.toNat_ofNat, Nat.mod_eq_of_lt hk]

theorem bufAddr_succ_of_eq {s : State} {k : Nat} (h : s.bufAddr = BitVec.ofNat 10 k) :
    s.bufAddr + 1 = BitVec.ofNat 10 (k + 1) := by
  rw [h, BitVec.ofNat_add]
  rfl

/-- The write both fill and drain begin with (R108). -/
theorem takes_bufAddr_zero {s : State} (hb : s.status.busy = false) :
    Takes (.hostWr 32 0x4C#8 0) s { s with bufAddr := 0 } :=
  takes_hostWr_of_idle .bufAddr hb rfl rfl rfl

/-! ## fill -/

/-- `t` is `s` with the bytes `d` stored into the buffer from index `k` on; the registers are kept. -/
structure Filled (k : Nat) (d : List Byte) (s t : State) : Prop where
  bytes : bufFrom t k d.length = d
  below : ∀ i < k, bufByte t i = bufByte s i
  status : t.status = s.status
  trace : t.trace = s.trace

/-- BUFDATA writes of an idle block store the bytes one after another from BUFADDR on (R107). -/
theorem runEvents_bufData_writes {d : List Byte} {k : Nat} {s : State} (hb : s.status.busy = false)
    (ha : s.bufAddr = BitVec.ofNat 10 k) (hk : k + d.length ≤ 1024) :
    ∃ t, runEvents (d.map fun b => .hostWr 32 0x50#8 (b.setWidth 32)) s = .next t ∧ Filled k d s t := by
  induction d generalizing k s with
  | nil => exact ⟨s, rfl, rfl, fun _ _ => rfl, rfl, rfl⟩
  | cons b d ih =>
    rw [List.length_cons] at hk
    have hstore : Takes (.hostWr 32 0x50#8 (b.setWidth 32)) s (bufStore (b.setWidth 32) s) :=
      takes_hostWr_of_idle .bufData hb rfl rfl rfl
    have hat : s.bufAddr.toNat = k := bufAddr_toNat_of_eq ha (by omega)
    have hbyte (i : Nat) : bufByte (bufStore (b.setWidth 32) s) i = if i = k then b else bufByte s i := by
      rw [bufByte_bufStore, hat, BitVec.setWidth_setWidth_of_le _ (by omega), BitVec.setWidth_eq]
    obtain ⟨t, hrun, hbytes, hbelow, hstatus, htrace⟩ :=
      ih (s := bufStore (b.setWidth 32) s) hb (bufAddr_succ_of_eq ha) (by omega)
    refine ⟨t, (runEvents_cons hstore).trans hrun, ?bytes, fun i hi => ?below, hstatus, htrace⟩
    case bytes => rw [List.length_cons, bufFrom_succ, hbytes, hbelow k (by omega), hbyte, if_pos rfl]
    case below => rw [hbelow i (by omega), hbyte, if_neg (by omega)]

/-- fill stores its bytes from index 0 on (R159). -/
theorem runEvents_fillBuffer {d : List Byte} {s : State} (hb : s.status.busy = false) (hd : d.length ≤ 1024) :
    ∃ t, runEvents (hostEvents (fillBuffer d)) s = .next t ∧ Filled 0 d s t := by
  obtain ⟨t, hrun, hbytes, -, hstatus, htrace⟩ :=
    runEvents_bufData_writes (d := d) (k := 0) (s := { s with bufAddr := 0 }) hb rfl (by omega)
  have hevents : hostEvents (fillBuffer d) = .hostWr 32 0x4C#8 0 :: d.map fun b => .hostWr 32 0x50#8 (b.setWidth 32) := by
    simp [hostEvents, fillBuffer, HostOp.event]
  exact ⟨t, by rw [hevents, runEvents_cons (takes_bufAddr_zero hb), hrun], hbytes, nofun, hstatus, htrace⟩

/-! ## ENG.CALC -/

/-- A command line of a host program, on an idle block, runs the command on the state acceptance leaves (R302). -/
theorem takes_cmd {i : Instr} {s t : State} (hb : s.status.busy = false)
    (h : exec i (accept (fieldB (encode i)) (fieldH (encode i)) s) = .next t) : Takes (HostOp.cmd i).event s t := by
  refine takes_hostWr (r := .cmd) rfl rfl ?_
  simp [writeReg, submit, acceptWord, hb, decode_encode, h]

/-- An engine command has taken `s` to `t`: it ended OK with the accumulators at `c` and `a`, and the buffer is kept. -/
structure EngineEnds (c : Half) (a : Byte) (s t : State) : Prop where
  crc : t.crc = c
  csum : t.csum = a
  result : t.status.result = .ok
  idle : t.status.busy = false
  trace : t.trace = s.trace
  bytes : ∀ i, bufByte t i = bufByte s i

/-- ENG.CLR on an idle block (R208). -/
theorem takes_engClr {s : State} (hb : s.status.busy = false) :
    ∃ t, Takes (HostOp.cmd .engClr).event s t ∧ EngineEnds 0 0 s t :=
  ⟨_, takes_cmd hb rfl, rfl, rfl, rfl, rfl, rfl, bufByte_congr rfl rfl rfl⟩

/-- ENG.FEEDBUF with a legal count on an idle block (R212). -/
theorem takes_engFeedbuf {n : Half} {s : State} (hb : s.status.busy = false) (hn : n.toNat ≤ 1024) :
    ∃ t, Takes (HostOp.cmd (.engFeedbuf n)).event s t ∧
      EngineEnds (crc16 (bufRun s n.toNat) s.crc) (checksum (bufRun s n.toNat) s.csum) s t := by
  have hexec (u : State) : exec (.engFeedbuf n) u = .next (complete .ok (feedAll (bufRun u n.toNat) u)) := by
    rw [exec, execEngFeedbuf, if_pos ((feedCountLegal_iff n).mpr hn)]
  exact ⟨_, takes_cmd hb (hexec _), rfl, rfl, rfl, rfl, rfl, bufByte_congr rfl rfl rfl⟩

/-- ENG.CALC over at most the whole buffer leaves the accumulators of its bytes (R159). -/
theorem runEvents_engCalc {n : Half} {s : State} (hb : s.status.busy = false) (hn : n.toNat ≤ 1024) :
    ∃ t, runEvents (hostEvents (engCalc n)) s = .next t ∧
      EngineEnds (crc16 (bufFrom s 0 n.toNat) 0) (checksum (bufFrom s 0 n.toNat) 0) s t := by
  obtain ⟨v, hclr, hv⟩ := takes_engClr hb
  obtain ⟨t, hfeed, ht⟩ := takes_engFeedbuf hv.idle hn
  have hrun : bufRun v n.toNat = bufFrom s 0 n.toNat := by rw [bufRun_eq_bufFrom, bufFrom_congr hv.bytes]
  refine ⟨t, (runEvents_cons hclr).trans (runEvents_cons hfeed), ?crc, ?csum, ht.result, ht.idle, ht.trace.trans hv.trace,
    fun i => (ht.bytes i).trans (hv.bytes i)⟩
  case crc => rw [ht.crc, hrun, hv.crc]
  case csum => rw [ht.csum, hrun, hv.csum]

/-! ## drain -/

/-- BUFDATA reads of an idle block return the buffer's bytes one after another from BUFADDR on (R106). -/
theorem runEvents_bufData_reads {n k : Nat} {s : State} (hb : s.status.busy = false)
    (ha : s.bufAddr = BitVec.ofNat 10 k) (hk : k + n ≤ 1024) :
    ∃ t, runEvents (List.replicate n (.hostRd 32 0x50#8)) s = .next t ∧
      t.reads = s.reads ++ (bufFrom s k n).map fun b => b.setWidth 32 := by
  induction n generalizing k s with
  | zero => exact ⟨s, rfl, (List.append_nil _).symm⟩
  | succ n ih =>
    have hread := takes_hostRd_bufData hb
    rw [bufAddr_toNat_of_eq ha (by omega)] at hread
    obtain ⟨t, hrun, hreads⟩ :=
      ih (s := answerRead ((bufByte s k).setWidth 32) (advanceBufAddr s)) hb (bufAddr_succ_of_eq ha) (by omega)
    have hkept : bufFrom (answerRead ((bufByte s k).setWidth 32) (advanceBufAddr s)) (k + 1) n = bufFrom s (k + 1) n :=
      bufFrom_congr (bufByte_congr rfl rfl rfl) _ _
    refine ⟨t, (runEvents_cons hread).trans hrun, ?_⟩
    rw [hreads, hkept, bufFrom_succ, answerRead_reads, List.map_cons, List.append_assoc]
    rfl

/-- drain returns the buffer's bytes from index 0 on (R159). -/
theorem runEvents_drainBuffer {n : Nat} {s : State} (hb : s.status.busy = false) (hn : n ≤ 1024) :
    ∃ t, runEvents (hostEvents (drainBuffer n)) s = .next t ∧
      t.reads = s.reads ++ (bufFrom s 0 n).map fun b => b.setWidth 32 := by
  obtain ⟨t, hrun, hreads⟩ :=
    runEvents_bufData_reads (n := n) (k := 0) (s := { s with bufAddr := 0 }) hb rfl (by omega)
  have hevents : hostEvents (drainBuffer n) = .hostWr 32 0x4C#8 0 :: List.replicate n (.hostRd 32 0x50#8) := by
    simp [hostEvents, drainBuffer, HostOp.event]
  have hkept : bufFrom { s with bufAddr := 0 } 0 n = bufFrom s 0 n := bufFrom_congr (bufByte_congr rfl rfl rfl) _ _
  exact ⟨t, by rw [hevents, runEvents_cons (takes_bufAddr_zero hb), hrun], by rw [hreads, hkept]⟩

/-- Settles O50: fill, ENG.CALC and drain one after another, the buffer kept from the first to the last. -/
theorem fillThenCalcAndDrain : Obligations.FillThenCalcAndDrain := by
  intro d s hd hb _
  have hn : (BitVec.ofNat 16 d.length).toNat = d.length := by
    rw [BitVec.toNat_ofNat]; exact Nat.mod_eq_of_lt (by omega)
  obtain ⟨v, hfill, hv⟩ := runEvents_fillBuffer hb hd
  obtain ⟨t, hcalc, ht⟩ := runEvents_engCalc (n := BitVec.ofNat 16 d.length) (hv.status ▸ hb) (hn.trans_le hd)
  obtain ⟨u, hdrain, hreads⟩ := runEvents_drainBuffer ht.idle hd
  rw [hn, hv.bytes] at ht
  rw [bufFrom_congr ht.bytes, hv.bytes] at hreads
  refine ⟨t, u, ?run, ht.crc, ht.csum, ht.result, ht.trace.trans hv.trace, hdrain, hreads⟩
  rw [hostEvents, List.map_append]
  exact (runEvents_append hfill).trans hcalc

end Sys2Proof.Machine
end

section
/-! PROOF. The integrity functions and the integrity engine's commands (spec/40_integrity.md R200 to R212). -/

namespace Sys2Proof.Machine

/-! ## The table-driven and the bit-serial CRC step -/

/-- A shift is linear over XOR: where both top bits are set, the two polynomials cancel. -/
theorem crcShift_xor (v w : Half) : crcShift (v ^^^ w) = crcShift v ^^^ crcShift w := by
  have hcancel (x y p : Half) : (x ^^^ p) ^^^ (y ^^^ p) = (x ^^^ y) ^^^ (p ^^^ p) := by ac_rfl
  unfold crcShift
  rw [BitVec.msb_xor, BitVec.shiftLeft_xor_distrib]
  cases v.msb <;> cases w.msb
  case true.true => simp [hcancel]
  case true.false => simp; ac_rfl
  case false.true => simp; ac_rfl
  case false.false => rfl

theorem crcShift8_xor (v w : Half) : crcShift8 (v ^^^ w) = crcShift8 v ^^^ crcShift8 w := by
  simp only [crcShift8, crcShift_xor]

/-- A byte that has not reached the top bit is shifted without the polynomial. -/
theorem crcShift_of_byte (b : Byte) {k : Nat} (hk : k < 8) :
    crcShift (b.setWidth 16 <<< k) = b.setWidth 16 <<< (k + 1) := by
  have htop : b.getLsbD (15 - k) = false := BitVec.getLsbD_of_ge b _ (by omega)
  rw [crcShift, BitVec.msb_eq_getLsbD_last, BitVec.shiftLeft_add]
  simp [htop]

/-- Eight shifts move a low byte into the high byte. -/
theorem crcShift8_of_byte (b : Byte) : crcShift8 (b.setWidth 16) = b.setWidth 16 <<< 8 := by
  have hfirst : crcShift (b.setWidth 16) = b.setWidth 16 <<< 1 := by
    simpa using crcShift_of_byte b (k := 0) (by omega)
  simp [crcShift8, hfirst, crcShift_of_byte]

/-- CRC ^ (b << 8) holds R200's table index in its high byte and CRC's low byte below it. -/
theorem xor_byte_shiftLeft (c : Half) (b : Byte) :
    c ^^^ (b.setWidth 16 <<< 8) = (((c >>> 8).setWidth 8 ^^^ b).setWidth 16 <<< 8) ^^^ (c.setWidth 8).setWidth 16 := by
  refine BitVec.eq_of_getLsbD_eq fun i hi => ?_
  by_cases hlow : i < 8
  · simp [hlow, hi]
  · have hhigh : i - 8 < 8 ∧ 8 + (i - 8) = i := by omega
    simp [hlow, hhigh, hi]

/-- The high byte is shifted out. -/
theorem low_byte_shiftLeft (c : Half) : (c.setWidth 8).setWidth 16 <<< 8 = c <<< 8 := by
  refine BitVec.eq_of_getLsbD_eq fun i hi => ?_
  have hlow : i - 8 < 8 ∧ i - 8 < 16 := by omega
  simp [hlow]

/-- Settles O15: the shifts are linear, so the table index and CRC's low byte are shifted apart from one another. -/
theorem tableCrcEqualsBitSerialCrc : Obligations.TableCrcEqualsBitSerialCrc := fun c b => by
  rw [crcStepSerial, xor_byte_shiftLeft, crcShift8_xor, crcShift8_of_byte, low_byte_shiftLeft, BitVec.xor_comm]
  rfl

/-! ## The accumulators over a sequence -/

theorem checksum_append (a b : List Byte) (p : Byte) : checksum (a ++ b) p = checksum b (checksum a p) :=
  List.foldl_append

theorem crc16_append (a b : List Byte) (p : Half) : crc16 (a ++ b) p = crc16 b (crc16 a p) :=
  List.foldl_append

theorem checksum_perm {a b : List Byte} (h : a.Perm b) (p : Byte) : checksum a p = checksum b p :=
  haveI : RightCommutative sumStep := ⟨add_right_comm⟩
  h.foldl_eq p

/-- The accumulator's own high byte makes the table index 0. -/
theorem crcStep_high_byte (c : Half) : crcStep c (c.extractLsb' 8 8) = c <<< 8 := by
  have hzero : crct 0#8 = 0#16 := rfl
  rw [crcStep, BitVec.setWidth_ushiftRight_eq_extractLsb, BitVec.xor_self, hzero, BitVec.xor_zero]

/-- After its high byte, the accumulator's own low byte leaves 0. -/
theorem crcStep_low_byte (c : Half) : crcStep (c <<< 8) (c.extractLsb' 0 8) = 0#16 := by
  have hhigh : (c <<< 8).extractLsb' 8 8 = c.extractLsb' 0 8 := by
    refine BitVec.eq_of_getLsbD_eq fun i hi => ?_
    have hlt : 8 + i < 16 ∧ i < 16 := by omega
    simp [hi, hlt, BitVec.getLsbD_eq_getElem]
  rw [← hhigh, crcStep_high_byte]
  simp

/-- A sequence followed by its own big-endian CRC has CRC 0, from any prior value (R206). -/
theorem crc16_append_crc16 (s : List Byte) (p : Half) :
    crc16 (s ++ [(crc16 s p).extractLsb' 8 8, (crc16 s p).extractLsb' 0 8]) p = 0#16 := by
  rw [crc16_append, crc16_cons, crcStep_high_byte, crc16_cons, crcStep_low_byte, crc16_nil]

/-- Settles O16: the two bytes 0, 1 in either order have different CRCs; the worked example is evaluated. -/
theorem integrityChainLaws : Obligations.IntegrityChainLaws := by
  refine ⟨checksum_append, crc16_append, fun _ _ p h => checksum_perm h p,
    ⟨[0x00#8, 0x01#8], [0x01#8, 0x00#8], .swap _ _ _, ?order⟩, ?first, ?second, fun s => crc16_append_crc16 s 0⟩
  case order => decide
  case first => decide
  case second => decide

/-! ## The engine's commands -/

/-- A word with a command's opcode and operands decodes to it, whatever its unused fields hold (R153, R155). -/
theorem decode_packWord {i : Instr} (h : Half) (b op : Byte) (hop : op = i.opcode)
    (hread : i.readFrom (packWord h b op) = i) : decode (packWord h b op) = .ok i :=
  decode_eq_ok_iff.mpr ⟨(fieldOp_packWord h b op).trans hop, hread⟩

/-- Settles O12: each command's meaning is the completion the statement writes out. -/
theorem engineClearAndLoads : Obligations.EngineClearAndLoads :=
  ⟨fun h b => ⟨decode_packWord h b _ rfl rfl, decode_packWord h b _ rfl (congrArg Instr.engLdcrc (fieldH_packWord h b _)),
      decode_packWord h b _ rfl (congrArg Instr.engLdsum (fieldB_packWord h b _))⟩,
    fun _ _ _ => ⟨rfl, rfl, rfl⟩⟩

/-- The checksum's update is addition modulo 256 (R205). -/
theorem sumStep_eq_mod (a b : Byte) : sumStep a b = BitVec.ofNat 8 ((a.toNat + b.toNat) % 256) :=
  BitVec.eq_of_toNat_eq (by simp [sumStep])

/-- Settles O13: the accumulators over a single byte are those of one step each. -/
theorem engFeedAdvancesBothAccumulators : Obligations.EngFeedAdvancesBothAccumulators := by
  refine ⟨fun h b => decode_packWord h b _ rfl (congrArg Instr.engFeed (fieldB_packWord h b _)), fun b s => ?feed, rfl⟩
  case feed =>
    rw [← sumStep_eq_mod]
    rfl

/-- Settles O14: the count check of R152 picks the outcome. -/
theorem engFeedbufFeedsARun : Obligations.EngFeedbufFeedsARun := by
  refine ⟨fun h b => decode_packWord h b _ rfl (congrArg Instr.engFeedbuf (fieldH_packWord h b _)),
    fun n s => ⟨fun hn => ?above, fun hn => ?legal⟩⟩
  case above => rw [exec, execEngFeedbuf, if_neg fun h => hn.not_ge ((feedCountLegal_iff n).mp h)]
  case legal =>
    rw [exec, execEngFeedbuf, if_pos ((feedCountLegal_iff n).mpr hn)]
    rfl

end Sys2Proof.Machine
end

section
/-! PROOF. The framing functions and the framing commands (spec/41_framing.md R250 to R261). -/

namespace Sys2Proof.Machine

/-! ## The residue of a received tail -/

/-- A shift loses nothing: the polynomial's low bit marks where the top bit was set. -/
theorem crcShift_eq_zero {v : Half} (h : crcShift v = 0#16) : v = 0#16 := by
  unfold crcShift at h
  split at h
  case isTrue =>
    have hlow := congrArg (fun x : Half => x.getLsbD 0) h
    simp at hlow
  case isFalse htop =>
    have hlt : v.toNat < 2 ^ 15 := by simpa [BitVec.msb_eq_decide] using htop
    have hdouble := congrArg BitVec.toNat h
    simp only [BitVec.toNat_shiftLeft, BitVec.toNat_ofNat] at hdouble
    exact BitVec.eq_of_toNat_eq (by simp; omega)

theorem crcShift8_eq_zero {v : Half} (h : crcShift8 v = 0#16) : v = 0#16 := by
  unfold crcShift8 at h
  iterate 8 replace h := crcShift_eq_zero h
  exact h

theorem crcShift8_injective : Function.Injective crcShift8 := fun v w h =>
  BitVec.xor_eq_zero_iff.mp (crcShift8_eq_zero (by rw [crcShift8_xor, h, BitVec.xor_self]))

/-- The update of one byte undone (R200, R204). -/
theorem crcStep_eq_crcShift8_iff (c x : Half) (b : Byte) :
    crcStep c b = crcShift8 x ↔ c = x ^^^ (b.setWidth 16 <<< 8) := by
  rw [tableCrcEqualsBitSerialCrc, crcStepSerial, crcShift8_injective.eq_iff]
  constructor
  · rintro rfl; simp
  · rintro rfl; simp

theorem byte_xor_shiftLeft (a b : Byte) : b.setWidth 16 ^^^ (a.setWidth 16 <<< 8) = a ++ b := by
  refine BitVec.eq_of_getLsbD_eq fun i hi => ?_
  rw [BitVec.getLsbD_append]
  by_cases hlow : i < 8
  · simp [hlow, hi]
  · have hhigh : b.getLsbD i = false := BitVec.getLsbD_of_ge b _ (by omega)
    simp [hlow, hi, hhigh]

/-- Only the accumulator's own two bytes bring it to 0: the two updates are undone one after the other (R206, R255). -/
theorem crc16_pair_eq_zero_iff (c : Half) (a b : Byte) : crc16 [a, b] c = 0#16 ↔ c = a ++ b := by
  have hzero : crcShift8 0#16 = 0#16 := rfl
  calc crc16 [a, b] c = 0#16
    _ ↔ crcStep (crcStep c a) b = crcShift8 0#16 := by rw [hzero]; rfl
    _ ↔ crcStep c a = crcShift8 (b.setWidth 16) := by
      rw [crcStep_eq_crcShift8_iff, BitVec.zero_xor, crcShift8_of_byte]
    _ ↔ c = a ++ b := by rw [crcStep_eq_crcShift8_iff, byte_xor_shiftLeft]

theorem bigEndian_eq_iff (c : Half) (a b : Byte) : [a, b] = bigEndian c ↔ c = a ++ b := by
  rw [bigEndian]
  constructor
  · intro h
    injection h with ha h
    injection h with hb
    rw [ha, hb]
    exact (BitVec.extractLsb'_append_extractLsb' (w := 8) (len := 8)).symm
  · rintro rfl
    rw [BitVec.extractLsb'_append_eq_left, BitVec.extractLsb'_append_eq_right]

/-! ## verify on a payload followed by a trailer -/

theorem verify_append {payload : List Byte} {p : BlockSize} (u : Bool) (tl : List Byte) (hp : payload.length = p.bytes) :
    verify u (payload ++ tl) p = (decide (tl = trailer u payload), payload) := by
  rw [verify, List.take_left' hp, List.drop_left' hp]

/-- A list of `m + 2` elements is one of `m` followed by a pair. -/
theorem exists_append_pair {d : List Byte} {m : Nat} (h : d.length = m + 2) :
    ∃ payload a b, d = payload ++ [a, b] ∧ payload.length = m := by
  obtain ⟨a, b, hab⟩ := List.length_eq_two.mp (show (d.drop m).length = 2 by rw [List.length_drop]; omega)
  exact ⟨d.take m, a, b, by rw [← hab, List.take_append_drop], by rw [List.length_take]; omega⟩

/-- Settles O17: either side says that the last two bytes are the CRC of the payload before them. -/
theorem verifyMeansZeroResidue : Obligations.VerifyMeansZeroResidue := by
  intro p d hd
  obtain ⟨payload, a, b, rfl, hp⟩ := exists_append_pair hd
  rw [verify_append true _ hp, crc16_append, crc16_pair_eq_zero_iff, List.take_left' hp]
  exact ⟨by rw [decide_eq_true_iff]; exact bigEndian_eq_iff _ a b, rfl⟩

/-! ## The frame -/

/-- The complement is taken in the integers, since no byte exceeds 0xFF (R252, R257). -/
theorem toNat_add_toNat_complement (q : Byte) : q.toNat + (complement q).toNat = 0xFF := by
  unfold complement
  bv_omega

theorem frame_length {chunk : List Byte} {p : BlockSize} (q : Byte) (u : Bool) (c : Byte) (h : chunk.length ≤ p.bytes) :
    (frame p q u chunk c).length = 3 + p.bytes + (trailerLen u).bytes := by
  rw [frame, List.length_append, List.length_append, header_length, pad_length c h, trailer_length]

theorem frame_drop_header (p : BlockSize) (q : Byte) (u : Bool) (chunk : List Byte) (c : Byte) :
    (frame p q u chunk c).drop 3 = pad chunk p c ++ trailer u (pad chunk p c) := by
  rw [frame, List.append_assoc, List.drop_left' (header_length p q)]

/-- Settles O22: the frame is cut where its three parts meet. -/
theorem frameHasTheStatedShape : Obligations.FrameHasTheStatedShape := by
  intro p q u chunk c _ hle
  have hpad : (pad chunk p c).length = p.bytes := pad_length c hle
  refine ⟨?length, ?header, toNat_add_toNat_complement q, ?payload, ?trailer⟩
  case length => rw [frame_length q u c hle]; cases u <;> rfl
  case header => rw [frame, List.append_assoc, List.take_left' (header_length p q)]; rfl
  case payload => rw [frame_drop_header, List.take_left' hpad]; rfl
  case trailer => rw [← List.drop_drop, frame_drop_header, List.drop_left' hpad]; rfl

/-! ## The framing commands -/

theorem sizeOperand_eq_none {size : Half} (h : size ≠ 128#16) (h' : size ≠ 1024#16) : sizeOperand size = none := by
  simp [sizeOperand, h, h']

theorem exists_sizeOperand {size : Half} (h : size = 128#16 ∨ size = 1024#16) :
    ∃ p, sizeOperand size = some p ∧ size.toNat = p.bytes := by
  rcases h with rfl | rfl
  · exact ⟨.classic, rfl, rfl⟩
  · exact ⟨.extended, rfl, rfl⟩

/-- Settles O18: the size check of R152 picks the outcome. -/
theorem frmHdrBuildsTheHeader : Obligations.FrmHdrBuildsTheHeader := by
  refine ⟨fun h b => decode_packWord h b _ rfl ?operands, fun size q s => ⟨fun h h' => ?rejected, ?classic, ?extended⟩⟩
  case operands => rw [Instr.readFrom, fieldH_packWord, fieldB_packWord]
  case rejected => rw [exec, execFrmHdr, sizeOperand_eq_none h h']
  case classic => rintro rfl; rfl
  case extended => rintro rfl; rfl

/-- Settles O19: a legal size is P, and the accumulators run from 0 over Buf[0..P-1]. -/
theorem frmTrlBuildsTheTrailer : Obligations.FrmTrlBuildsTheTrailer := by
  refine ⟨fun h b => decode_packWord h b _ rfl ?operands, fun size u s => ⟨fun h h' => ?rejected, fun h => ?legal⟩⟩
  case operands => rw [Instr.readFrom, fieldH_packWord, fieldB_packWord]
  case rejected => rw [exec, execFrmTrl, sizeOperand_eq_none h h']
  case legal =>
    obtain ⟨p, hp, hbytes⟩ := exists_sizeOperand h
    rw [exec, execFrmTrl, hp, hbytes]
    rfl

/-- Settles O20: as for FRM.TRL, with the comparison in place of the latch. -/
theorem frmChkVerifiesTheTrailer : Obligations.FrmChkVerifiesTheTrailer := by
  refine ⟨fun h b => decode_packWord h b _ rfl ?operands, fun size u s => ⟨fun h h' => ?rejected, fun h => ?legal⟩⟩
  case operands => rw [Instr.readFrom, fieldH_packWord, fieldB_packWord]
  case rejected => rw [exec, execFrmChk, sizeOperand_eq_none h h']
  case legal =>
    obtain ⟨p, hp, hbytes⟩ := exists_sizeOperand h
    rw [exec, execFrmChk, hp, hbytes]
    rfl

/-- FRM.CHK's verdict on a trailer value `v` and the payload `run` (R261). -/
def trailerAgrees (u : Bool) (run : List Byte) (v : Half) : Bool :=
  if u then decide (crc16 run 0 = v) else decide (checksum run 0 = v.extractLsb' 0 8)

theorem low_byte_setWidth (b : Byte) : (b.setWidth 16).extractLsb' 0 8 = b := by
  rw [← BitVec.setWidth_eq_extractLsb' (by omega), BitVec.setWidth_setWidth_of_le _ (by omega), BitVec.setWidth_eq]

theorem trailerAgrees_trailerReg (u : Bool) (run : List Byte) : trailerAgrees u run (trailerReg u run) = true := by
  cases u
  case false => exact decide_eq_true (low_byte_setWidth _).symm
  case true => exact decide_eq_true rfl

/-- In either mode the trailer value's low byte is compared. -/
theorem low_byte_of_trailerAgrees {u : Bool} {run : List Byte} {v : Half} (h : trailerAgrees u run v = true) :
    v.extractLsb' 0 8 = (trailerReg u run).extractLsb' 0 8 := by
  cases u
  case false => exact (of_decide_eq_true h).symm.trans (low_byte_setWidth _).symm
  case true => exact congrArg _ (of_decide_eq_true h).symm

/-- Settles O21: FRM.CHK's verdict is on the trailer FRM.TRL latched, over the same buffer, or on another low byte. -/
theorem checkAfterTrailerIsValid : Obligations.CheckAfterTrailerIsValid := by
  intro size u s h
  have hchk (t : State) := (frmChkVerifiesTheTrailer.2 size u t).2 h
  refine ⟨_, _, (frmTrlBuildsTheTrailer.2 size u s).2 h, hchk _, ?same, fun v hv => ⟨_, hchk _, ?changed⟩⟩
  case same => exact trailerAgrees_trailerReg u _
  case changed => exact Bool.eq_false_iff.mpr fun h => hv (low_byte_of_trailerAgrees h)

end Sys2Proof.Machine
end

section
/-! PROOF. A receiver takes the frame its sender builds (spec/41_framing.md R255 to R257; spec/44_receiver.md R404 to R409). -/

namespace Sys2Proof.Machine

/-! ## A read of one byte -/

/-- The byte a fresh one-byte read waits for ends it (20_memory.md R120). -/
theorem takes_rx_of_awaits {pt : Point} {s t : State} {b : Byte} (h : Awaits pt s) (hr : pt.isRead = true)
    (hdone : readDone (gather b s) b = .next t) : Takes (.rx b) s t := by
  obtain ⟨rfl, hn, hk, -⟩ := h
  exact ((takes_rx hr).2 (by rw [hn, hk]) _).mpr hdone

/-- A start byte is neither a CAN nor EOT, so the block's header follows (R404). -/
theorem rxStartByte_start (p : BlockSize) (s : State) : rxStartByte p.start s = blockBody p (noteCan p.start s) := by
  cases p <;> rfl

/-- In `v` the receiver reads a block of size `p` in the mode of `s`, where it awaited the start byte; the registers that a block
accepted changes are still those of `s` (R405). -/
structure InBlock (p : BlockSize) (s v : State) : Prop where
  size : v.hid.p = p
  mode : v.hid.t = trailerLen s.status.useCrc
  seq : v.seq = s.seq
  phase : v.status.phase = s.status.phase
  byteCnt : v.byteCnt = s.byteCnt
  trace : v.trace = s.trace

theorem takes_rx_start {s : State} (p : BlockSize) (h : Awaits .rxaRd s) :
    ∃ v, Takes (.rx p.start) s v ∧ Awaits .rxsRd v ∧ InBlock p s v := by
  refine ⟨blockBody p (noteCan p.start (gather p.start s)), takes_rx_of_awaits h rfl ?_, ⟨rfl, rfl, rfl, rfl⟩,
    ⟨rfl, rfl, rfl, rfl, rfl, rfl⟩⟩
  obtain ⟨hpt, -, -, hrb⟩ := h
  simp only [readDone, gather_hid, hpt, hrb]
  exact congrArg _ (rxStartByte_start p _)

theorem takes_rx_seq {p : BlockSize} {s u : State} (q : Byte) (h : Awaits .rxsRd u) (hu : InBlock p s u) :
    ∃ v, Takes (.rx q) u v ∧ Awaits .rxcRd v ∧ v.hid.q1 = q ∧ InBlock p s v := by
  refine ⟨rxSeqByte q (gather q u), takes_rx_of_awaits h rfl ?_, ⟨rfl, rfl, rfl, rfl⟩, rfl,
    ⟨hu.size, hu.mode, hu.seq, hu.phase, hu.byteCnt, hu.trace⟩⟩
  obtain ⟨hpt, -, -, hrb⟩ := h
  simp [readDone, hpt, hrb]

/-- In `v` the data read waits for all its P + T bytes (R408). -/
structure AwaitsTail (v : State) : Prop where
  pt : v.hid.pt = .rxdRd
  count : v.hid.rn = tailLength v
  fresh : v.hid.rk = 0 ∧ v.hid.rb = []

/-- After SEQ, its complement matches, so the tail is read as data (R405, R406). -/
theorem takes_rx_complement {p : BlockSize} {s u : State} (h : Awaits .rxcRd u) (hq : u.hid.q1 = s.seq)
    (hu : InBlock p s u) : ∃ v, Takes (.rx (complement s.seq)) u v ∧ AwaitsTail v ∧ InBlock p s v := by
  refine ⟨readData (gather (complement s.seq) u), takes_rx_of_awaits h rfl ?_, ⟨rfl, rfl, rfl, rfl⟩,
    ⟨hu.size, hu.mode, hu.seq, hu.phase, hu.byteCnt, hu.trace⟩⟩
  obtain ⟨hpt, -, -, hrb⟩ := h
  have hmatch : headerMatches (complement s.seq) (gather (complement s.seq) u) = true := by
    simp [headerMatches, hq, hu.seq, toNat_add_toNat_complement]
  simp [readDone, hpt, hrb, rxCompByte, hmatch]

/-- The header of the receiver's own SEQ brings it to the data read (R404 to R406). -/
theorem runEvents_rx_header {s : State} (p : BlockSize) (h : Awaits .rxaRd s) :
    ∃ v, runEvents ((header p s.seq).map .rx) s = .next v ∧ AwaitsTail v ∧ InBlock p s v := by
  obtain ⟨v₁, hstart, hawaits₁, hin₁⟩ := takes_rx_start p h
  obtain ⟨v₂, hseq, hawaits₂, hq, hin₂⟩ := takes_rx_seq s.seq hawaits₁ hin₁
  obtain ⟨v, hcomplement, hv, hin⟩ := takes_rx_complement hawaits₂ hq hin₂
  exact ⟨v, (runEvents_cons hstart).trans ((runEvents_cons hseq).trans (runEvents_cons hcomplement)), hv, hin⟩

/-! ## The tail -/

/-- A LinkRead that has received the bytes `d` one after another (20_memory.md R120). -/
def gatherAll (d : List Byte) (s : State) : State :=
  { s with hid := { s.hid with rb := s.hid.rb ++ d, rk := s.hid.rk + d.length } }

theorem gatherAll_gather (b : Byte) (d : List Byte) (s : State) : gatherAll d (gather b s) = gatherAll (b :: d) s := by
  simp [gatherAll, gather, Nat.add_assoc, Nat.add_comm 1]

/-- The data read takes its P + T bytes one after another, and the last one completes it (20_memory.md R120; R408). -/
theorem runEvents_rx_data {d : List Byte} {s : State} (hpt : s.hid.pt = .rxdRd) (hd : d ≠ [])
    (hn : s.hid.rn = s.hid.rk + d.length) (htail : (s.hid.rb ++ d).length = tailLength s) :
    runEvents (d.map .rx) s = .next (rxDataComplete (s.hid.rb ++ d) (gatherAll d s)) := by
  have hr : s.hid.pt.isRead = true := by rw [hpt]; rfl
  induction d generalizing s with
  | nil => contradiction
  | cons b d ih =>
    cases d with
    | nil =>
      have hdone : readDone (gather b s) b = .next (rxDataComplete (s.hid.rb ++ [b]) (gatherAll [b] s)) := by
        simp only [readDone, gather_hid, hpt]
        exact if_pos htail
      exact runEvents_cons (((takes_rx hr).2 hn.symm _).mpr hdone)
    | cons b' d =>
      have hmore : s.hid.rk + 1 ≠ s.hid.rn := by simp [hn]
      have hrest := ih (s := gather b s) hpt (List.cons_ne_nil b' d) (by simp [hn]; omega)
        (by rwa [gather_hid, List.append_assoc]) hr
      rw [List.map_cons, runEvents_cons ((takes_rx hr).1 hmore), hrest, gatherAll_gather, gather_hid,
        List.append_assoc, List.singleton_append]

/-- RXTRL over a payload followed by its own trailer is that trailer's value (R254; R408). -/
theorem tailTrailer_append_trailer {payload : List Byte} {p : BlockSize} (u : Bool) (hp : payload.length = p.bytes) :
    tailTrailer p (trailerLen u) (payload ++ trailer u payload) = trailerReg u payload := by
  cases u
  case false => simp [tailTrailer, trailerLen, trailer, trailerReg, ← hp]
  case true =>
    have happend := ((bigEndian_eq_iff (crc16 payload 0) _ _).mp rfl).symm
    simpa [tailTrailer, trailerLen, trailer, trailerReg, bigEndian, ← hp] using happend

/-- R408's comparison is FRM.CHK's, over the payload received and RXTRL. -/
theorem tailValid_takeTail {u : Bool} {s : State} (ht : s.hid.t = trailerLen u) (d : List Byte) :
    tailValid (takeTail d s) = trailerAgrees u (d.take s.hid.p.bytes) (tailTrailer s.hid.p (trailerLen u) d) := by
  rw [tailValid, takeTail]
  cases u <;> simp [ht, trailerLen, trailerAgrees]

/-- A payload followed by its own trailer is accepted. -/
theorem rxDataComplete_trailer {payload : List Byte} {u : Bool} {s : State} (ht : s.hid.t = trailerLen u)
    (hp : payload.length = s.hid.p.bytes) :
    rxDataComplete (payload ++ trailer u payload) s = acceptBlock (takeTail (payload ++ trailer u payload) s) := by
  refine if_pos ?_
  rw [tailValid_takeTail ht, List.take_left' hp, tailTrailer_append_trailer u hp, trailerAgrees_trailerReg]

/-- The payload of a complete tail is what Buf[0..P-1] then holds (R408). -/
theorem bufRun_takeTail {d : List Byte} {s : State} (h : s.hid.p.bytes ≤ d.length) :
    bufRun (takeTail d s) s.hid.p.bytes = d.take s.hid.p.bytes := by
  have hlen : (d.take s.hid.p.bytes).length = s.hid.p.bytes := List.length_take_of_le h
  refine List.ext_getElem (by rw [bufRun_length, hlen]) fun i _ hi => ?_
  simp [bufRun, bufByte_takeTail, bufByte_bufReceive, List.getElem?_eq_getElem hi]

theorem InBlock.gatherAll {p : BlockSize} {s v : State} (h : InBlock p s v) (d : List Byte) : InBlock p s (gatherAll d v) :=
  ⟨h.size, h.mode, h.seq, h.phase, h.byteCnt, h.trace⟩

theorem InBlock.takeTail {p : BlockSize} {s v : State} (h : InBlock p s v) (d : List Byte) : InBlock p s (takeTail d v) :=
  ⟨h.size, h.mode, h.seq, h.phase, h.byteCnt, h.trace⟩

/-- A payload followed by its trailer in the receiver's own mode is taken whole and accepted, and stands in Buf[0..P-1] (R408). -/
theorem runEvents_rx_tail {payload : List Byte} {p : BlockSize} {s v : State} (hv : AwaitsTail v) (hin : InBlock p s v)
    (hp : payload.length = p.bytes) :
    ∃ w, runEvents ((payload ++ trailer s.status.useCrc payload).map .rx) v = .next (acceptBlock w) ∧ InBlock p s w ∧
      bufRun w p.bytes = payload := by
  obtain ⟨hpt, hn, hk, hrb⟩ := hv
  have hpv : payload.length = v.hid.p.bytes := by rw [hp, hin.size]
  have haccepted := rxDataComplete_trailer (payload := payload)
    (s := gatherAll (payload ++ trailer s.status.useCrc payload) v) hin.mode hpv
  generalize hd : payload ++ trailer s.status.useCrc payload = d at haccepted
  have hlen : d.length = tailLength v := by
    rw [← hd, List.length_append, trailer_length, hpv, tailLength, hin.mode]
  have hne : d ≠ [] := by
    have hpos := v.hid.p.bytes_bounds
    rw [tailLength] at hlen
    exact List.ne_nil_of_length_pos (by omega)
  refine ⟨takeTail d (gatherAll d v), ?run, (hin.gatherAll d).takeTail d, ?buffer⟩
  case run =>
    rw [runEvents_rx_data hpt hne (by rw [hn, hk, hlen, Nat.zero_add]) (by rw [hrb, List.nil_append, hlen]), hrb,
      List.nil_append, haccepted]
  case buffer =>
    have hbuf : bufRun (takeTail d (gatherAll d v)) v.hid.p.bytes = d.take v.hid.p.bytes :=
      bufRun_takeTail (s := gatherAll d v) (hlen ▸ Nat.le_add_right _ _)
    rw [← hin.size, hbuf, ← hd, List.take_left' hpv]

/-! ## The whole frame -/

/-- The ACK of an accepted block leaves, and the command ends (R409). -/
theorem takes_txtake_acceptBlock (w : State) :
    ∃ t, Takes .txtake (acceptBlock w) t ∧ Ends .block w.status.phase t ∧ t.seq = w.seq + 1 ∧ t.errCnt = 0#8 ∧
      t.trace = w.trace ++ [ACK] ∧ t.rxLen = BitVec.ofNat 11 w.hid.p.bytes ∧
      t.byteCnt = w.byteCnt + BitVec.ofNat 32 w.hid.p.bytes ∧ ∀ n, bufRun t n = bufRun w n :=
  ⟨blockTaken (sendByte ACK (acceptBlock w)), (takes_txtake rfl rfl).2 rfl, ⟨rfl, rfl, rfl, rfl, rfl⟩, rfl, rfl, rfl, rfl, rfl,
    fun _ => rfl⟩

theorem toNat_ofNat_bytes (p : BlockSize) : (BitVec.ofNat 11 p.bytes).toNat = p.bytes := by
  cases p <;> rfl

/-- Settles O40: header, tail and ACK one after another. -/
theorem receiverAcceptsTheSendersFrame : Obligations.ReceiverAcceptsTheSendersFrame := by
  intro p chunk c s _ hle hawaits
  obtain ⟨v, hheader, hv, hin⟩ := runEvents_rx_header p hawaits
  obtain ⟨w, htail, hw, hpayload⟩ := runEvents_rx_tail hv hin (pad_length c hle)
  obtain ⟨t, hack, hends, hseq, herr, htrace, hlen, hcount, hbuf⟩ := takes_txtake_acceptBlock w
  rw [hw.phase] at hends
  rw [hw.size] at hlen hcount
  refine ⟨t, ?run, hends, by rw [hseq, hw.seq], herr, by rw [htrace, hw.trace], by rw [hlen, toNat_ofNat_bytes],
    by rw [hcount, hw.byteCnt], by rw [hbuf, hpayload]⟩
  case run =>
    rw [frame, List.append_assoc, List.map_append, List.append_assoc, runEvents_append hheader, runEvents_append htail]
    exact runEvents_cons hack

end Sys2Proof.Machine
end

section
/-! PROOF. A command's acceptance, its immediate completion and the session's opening (spec/42_sequencer_common.md R302 to R305,
R311). -/

namespace Sys2Proof.Machine

/-! ## The step that accepts a command -/

/-- An idle block accepts the command a word stands for (R302). -/
theorem submit_of_decode {w : Word} {i : Instr} {s : State} (hb : s.status.busy = false) (hd : decode w = .ok i) :
    submit w s = exec i (accept (fieldB w) (fieldH w) s) := by
  simp [submit, acceptWord, hb, hd]

/-- Settles O5: the CMD write put first is the event taken, and its target is CMD. -/
theorem stepRunsTheDecodedCommand : Obligations.StepRunsTheDecodedCommand := by
  refine ⟨fun w i rest s hb hd => ?step, fun _ _ _ => rfl⟩
  case step =>
    have htake : takeInput s.hid.pt (.hostWr 32 0x0C#8 w :: rest) = some (.hostWr 32 0x0C#8 w, rest) := takeInput_cons rfl
    calc step (withInputs (.hostWr 32 0x0C#8 w :: rest) s)
      _ = submit w (withInputs rest s) := step_of_takeInput_some (s := withInputs (_ :: rest) s) htake
      _ = exec i (accept (fieldB w) (fieldH w) (withInputs rest s)) := submit_of_decode hb hd

/-! ## Complete and session open -/

/-- Settles O7: the two fields of STATUS are those of `statusWord_fields`. -/
theorem completeEndsTheCommand : Obligations.CompleteEndsTheCommand := by
  intro code s
  obtain ⟨-, -, hresult, hstate, -⟩ := statusWord_fields (complete code s)
  exact ⟨rfl, hstate, hresult, rfl⟩

/-- SESSCFG has CTRL's layout with IE's bit 0 (R37). -/
theorem sessCfgWord_of_ctrl (c : Ctrl) :
    (SessCfg.mk c.mode c.crcPref c.pad c.retry).word = c.word &&& 0xFFFFFFF7#32 := by
  refine BitVec.eq_of_getLsbD_eq fun i hi => ?_
  rw [BitVec.getLsbD_and, getLsbD_sessCfgWord, getLsbD_ctrlWord]
  simp only [BitVec.getLsbD_append]
  interval_cases i <;> simp [bit]

/-- Settles O9: what session open writes is its definition, and SESSCFG's word is `sessCfgWord_of_ctrl`. -/
theorem sessionOpenLatches : Obligations.SessionOpenLatches := fun s => ⟨rfl, sessCfgWord_of_ctrl s.ctrl⟩

/-! ## The checks -/

/-- Every command answers a next state at acceptance. -/
theorem exec_next (i : Instr) (s : State) : ∃ t, exec i s = .next t := by
  cases i with
  | frmHdr size q => simp only [exec, execFrmHdr]; split <;> exact ⟨_, rfl⟩
  | frmTrl size u => simp only [exec, execFrmTrl]; split <;> exact ⟨_, rfl⟩
  | frmChk size u => simp only [exec, execFrmChk]; split <;> exact ⟨_, rfl⟩
  | txNeg => simp only [exec, execTxNeg]; split <;> exact ⟨_, rfl⟩
  | txBlk => simp only [exec, execTxBlk]; split <;> [skip; split] <;> exact ⟨_, rfl⟩
  | txEot => simp only [exec, execTxEot]; split <;> exact ⟨_, rfl⟩
  | rxNeg => simp only [exec, execRxNeg]; split <;> exact ⟨_, rfl⟩
  | rxBlk => simp only [exec, execRxBlk]; split <;> exact ⟨_, rfl⟩
  | _ => exact ⟨_, rfl⟩

/-- The sender's data commands need phase TX (R303). -/
theorem exec_of_phase_ne_tx {i : Instr} {s : State} (hi : i = .txBlk ∨ i = .txEot) (hp : s.status.phase ≠ .tx) :
    exec i s = .next (complete .badCmd s) := by
  rcases hi with rfl | rfl
  · rw [exec, execTxBlk, if_pos hp]
  · rw [exec, execTxEot, if_pos hp]

/-- RX.BLK needs phase RX (R303). -/
theorem exec_of_phase_ne_rx {s : State} (hp : s.status.phase ≠ .rx) : exec .rxBlk s = .next (complete .badCmd s) := by
  rw [exec, execRxBlk, if_pos hp]

/-- A session opens in mode 0 or 1 only (R302). -/
theorem exec_of_mode_illegal {i : Instr} {s : State} (hi : i = .txNeg ∨ i = .rxNeg) (h0 : s.ctrl.mode ≠ 0#2)
    (h1 : s.ctrl.mode ≠ 1#2) : exec i s = .next (complete .invalidMode s) := by
  have hm : ¬modeLegal s.ctrl.mode = true := fun h => ((modeLegal_iff _).mp h).elim h0 h1
  rcases hi with rfl | rfl
  · rw [exec, execTxNeg, if_neg hm]
  · rw [exec, execRxNeg, if_neg hm]

/-- P_tx in bytes (R302). -/
theorem txSize_bytes (c : SessCfg) : (txSize c).bytes = if c.mode = 0#2 then 128 else 1024 := by
  unfold txSize
  split <;> rfl

/-- In phase TX, TX.BLK needs TXLEN in 1..P (R302). -/
theorem exec_txBlk_of_txLen_illegal {s : State} (hp : s.status.phase = .tx)
    (hlen : ¬(1 ≤ s.txLen.toNat ∧ s.txLen.toNat ≤ (txSize s.sessCfg).bytes)) :
    exec .txBlk s = .next (complete .badLength s) := by
  rw [exec, execTxBlk, if_neg (not_not_intro hp), if_neg (mt (txLenLegal_iff _ _).mp hlen)]

/-- Settles O8: one lemma per check; the FRM sizes and the count are those of O18 to O20 and O14. -/
theorem acceptanceChecksDecide : Obligations.AcceptanceChecksDecide := by
  intro i s
  obtain ⟨t, ht⟩ := exec_next i s
  have answer {u : State} (h : exec i s = .next u) : t = u := Host.Outcome.next.inj (ht.symm.trans h)
  refine ⟨t, ht, fun hi hp => answer (exec_of_phase_ne_tx hi hp), ?rxPhase,
    fun hi h0 h1 => answer (exec_of_mode_illegal hi h0 h1), ?size, ?count, ?txLen⟩
  case rxPhase => rintro rfl hp; exact answer (exec_of_phase_ne_rx hp)
  case size =>
    rintro size q u (rfl | rfl | rfl) h h'
    · exact answer ((frmHdrBuildsTheHeader.2 size q s).1 h h')
    · exact answer ((frmTrlBuildsTheTrailer.2 size u s).1 h h')
    · exact answer ((frmChkVerifiesTheTrailer.2 size u s).1 h h')
  case count => rintro n rfl hn; exact answer ((engFeedbufFeedsARun.2 n s).1 hn)
  case txLen =>
    rintro rfl hp hlen
    rw [← txSize_bytes] at hlen
    exact answer (exec_txBlk_of_txLen_illegal hp hlen)

/-! ## The immediate commands -/

/-- Everything an immediate command can do in its accepting step, with what it may write (R208 to R212, R259 to R261). -/
inductive Completes (s : State) : Instr → State → Prop
  | rejected {i : Instr} (code : ResultCode) : Completes s i (complete code s)
  | engine {i : Instr} (hi : ∀ size q, i ≠ .frmHdr size q) (crc : Half) (csum : Byte) :
      Completes s i (complete .ok { s with crc := crc, csum := csum })
  | header (size : Half) (q : Byte) (hdr : BitVec 24) : Completes s (.frmHdr size q) (complete .ok { s with hdr := hdr })
  | trailer (size : Half) (u : Bool) (crc : Half) (csum : Byte) (trl : Half) :
      Completes s (.frmTrl size u) (complete .ok { s with crc := crc, csum := csum, trl := trl })
  | check (size : Half) (u : Bool) (crc : Half) (csum : Byte) (valid : Bool) :
      Completes s (.frmChk size u)
        (complete .ok { s with crc := crc, csum := csum, status := { s.status with valid := valid } })

theorem exec_completes {i : Instr} (s : State) (hi : isImmediate i = true) : ∃ t, exec i s = .next t ∧ Completes s i t := by
  cases i with
  | engClr => exact ⟨_, rfl, .engine (by nofun) 0 0⟩
  | engLdcrc c => exact ⟨_, rfl, .engine (by nofun) c s.csum⟩
  | engLdsum b => exact ⟨_, rfl, .engine (by nofun) s.crc b⟩
  | engFeed b => exact ⟨_, rfl, .engine (by nofun) _ _⟩
  | engFeedbuf n =>
    refine ⟨_, rfl, ?_⟩
    split
    · exact .engine (by nofun) _ _
    · exact .rejected .badLength
  | frmHdr size q =>
    simp only [exec, execFrmHdr]
    split
    · exact ⟨_, rfl, .rejected .invalidMode⟩
    · exact ⟨_, rfl, .header size q _⟩
  | frmTrl size u =>
    simp only [exec, execFrmTrl]
    split
    · exact ⟨_, rfl, .rejected .invalidMode⟩
    · exact ⟨_, rfl, .trailer size u _ _ _⟩
  | frmChk size u =>
    simp only [exec, execFrmChk]
    split
    · exact ⟨_, rfl, .rejected .invalidMode⟩
    · exact ⟨_, rfl, .check size u _ _ _⟩
  | _ => cases hi

/-- Settles O10: the frame of each of the five ways an immediate command completes. -/
theorem immediateCommandsCompleteAtOnce : Obligations.ImmediateCommandsCompleteAtOnce := by
  intro i s hi
  obtain ⟨t, ht, hc⟩ := exec_completes s hi
  refine ⟨t, ht, ?_⟩
  cases hc with
  | rejected code =>
    exact ⟨rfl, rfl, rfl, rfl, fun _ => rfl, fun _ => rfl, fun _ => rfl, fun _ => ⟨rfl, rfl⟩, fun _ => rfl⟩
  | engine hne crc csum =>
    exact ⟨rfl, rfl, rfl, rfl, fun _ => rfl, fun _ => rfl, fun _ => rfl, fun ⟨size, q, h⟩ => absurd h (hne size q),
      fun _ => rfl⟩
  | header size q hdr =>
    exact ⟨rfl, rfl, rfl, rfl, fun h => absurd rfl (h size q), fun _ => rfl, fun _ => rfl, fun _ => ⟨rfl, rfl⟩,
      fun _ => rfl⟩
  | trailer size u crc csum trl =>
    exact ⟨rfl, rfl, rfl, rfl, fun _ => rfl, fun h => absurd rfl (h size u), fun _ => rfl, nofun, fun _ => rfl⟩
  | check size u crc csum valid =>
    exact ⟨rfl, rfl, rfl, rfl, fun _ => rfl, fun _ => rfl, fun h => absurd rfl (h size u), nofun, fun _ => rfl⟩

end Sys2Proof.Machine
end

section
/-! PROOF. The abort, the peer's double cancel, the cancel memory, the retry budget and PHASE (spec/42_sequencer_common.md R301,
R306 to R310). -/

namespace Sys2Proof.Machine

/-! ## The abort -/

/-- A LinkRead whose last tick comes lets the command go on as its timeout says (20_memory.md R120). -/
theorem takes_readTimeout {s : State} (hr : s.hid.pt.isRead = true) (ht : s.hid.tmr.toNat ≤ 1) :
    Takes .tick s (readTimeout s) := by
  have h := (takes_tick (.inl hr)).2 ht
  rwa [if_pos hr] at h

/-- A LinkWrite whose last tick comes is abandoned, and TXTO says so (20_memory.md R121). -/
theorem takes_writeTimeout {s : State} (hw : s.hid.pt.isWrite = true) (ht : s.hid.tmr.toNat ≤ 1) :
    Takes .tick s (writeDone (setTxto s)) := by
  have h := (takes_tick (.inr hw)).2 ht
  rwa [if_neg fun hr => Point.not_read_and_write _ ⟨hr, hw⟩] at h

/-- The abort's write, complete or abandoned, ends the command (R306). -/
theorem writeDone_canWr {s : State} {code : ResultCode} (hpt : s.hid.pt = .canWr code) :
    writeDone s = finishAbort code s := by
  simp [writeDone, hpt]

/-- Settles O26: the two CANs leave one after the other, and either end of the write is `finishAbort`. -/
theorem abortSendsTwoCans : Obligations.AbortSendsTwoCans := by
  refine ⟨fun code s => ⟨rfl, rfl, rfl, rfl, rfl, rfl, rfl, rfl⟩,
    fun code s hpt hws => ⟨fun hwj => ?sent, fun ht => ?timedOut⟩⟩
  case sent =>
    have hfirst : Takes .txtake s (sendByte CAN s) :=
      (takes_txtake (by rw [hpt]; rfl) (by rw [hws, hwj]; rfl)).1 (by rw [hws, hwj]; nofun)
    have hsecond : Takes .txtake (sendByte CAN s) (writeDone (sendByte CAN (sendByte CAN s))) :=
      (takes_txtake (by rw [sendByte_hid, hpt]; rfl) (by rw [sendByte_hid, hws, hwj]; rfl)).2
        (by rw [sendByte_hid, hws, hwj]; rfl)
    rw [writeDone_canWr (by rw [sendByte_hid, sendByte_hid, hpt])] at hsecond
    exact ⟨_, _, hfirst, hsecond, List.append_assoc _ [CAN] [CAN], ⟨rfl, rfl, rfl, rfl, rfl⟩, rfl⟩
  case timedOut =>
    have htick := takes_writeTimeout (by rw [hpt]; rfl) ht
    rw [writeDone_canWr (by rw [setTxto_hid, hpt])] at htick
    exact ⟨_, htick, rfl, ⟨rfl, rfl, rfl, rfl, rfl⟩, rfl⟩

/-! ## The peer's double cancel -/

/-- The control positions are the five of R309. -/
theorem Point.isControl_iff (pt : Point) :
    pt.isControl = true ↔ pt = .txnRd ∨ pt = .txbRd ∨ pt = .txeRd ∨ pt = .rxnRd ∨ pt = .rxaRd := by
  cases pt <;> simp [Point.isControl]

/-- A CAN after a CAN at any control position ends the command (R307). -/
theorem readDone_double_cancel {s : State} (hc : s.hid.pt.isControl = true) (hrb : s.hid.rb = [])
    (hseen : s.status.canSeen = true) : readDone (gather CAN s) CAN = .next (endPeerCancel (gather CAN s)) := by
  rcases (Point.isControl_iff _).mp hc with hpt | hpt | hpt | hpt | hpt
  all_goals
    simp [readDone, hpt, hrb, hseen, cancelKind, txNegByte, txBlkByte, txEotByte, rxNegByte, rxStartByte]

/-- Settles O27, from the byte's continuation at a control position. -/
theorem doubleCancelEndsTheCommand : Obligations.DoubleCancelEndsTheCommand := by
  intro pt s hc hawaits hseen
  obtain ⟨rfl, -, -, hrb⟩ := id hawaits
  exact ⟨_, takes_rx_of_awaits hawaits (Point.isRead_of_isControl hc) (readDone_double_cancel hc hrb hseen),
    ⟨rfl, rfl, rfl, rfl, rfl⟩, rfl, rfl, rfl, rfl⟩

/-! ## The cancel memory -/

/-- A failure keeps CANSEEN if the retry does. -/
theorem failThen_canSeen {code : ResultCode} {retry : State → State} {s : State}
    (h : ∀ u, (retry u).status.canSeen = u.status.canSeen) :
    (failThen code retry s).status.canSeen = s.status.canSeen := by
  rcases failThen_cases code retry s with ⟨-, he⟩ | ⟨-, he⟩ <;> rw [he]
  · rfl
  · exact h _

theorem txBlkFailed_canSeen (s : State) : (txBlkFailed s).status.canSeen = s.status.canSeen := by
  unfold txBlkFailed
  split <;> rfl

/-- The cancel that ends the command finds CANSEEN set by its first CAN; any other byte is noted, and what follows keeps it
(R309). -/
theorem cancelCheck_canSeen {s first other : State} {b : Byte} (hfirst : first.status.canSeen = decide (b = CAN))
    (hother : other.status.canSeen = decide (b = CAN)) :
    (match cancelKind b s.status.canSeen with
      | .peerCancel => endPeerCancel s
      | .firstCan => first
      | .other => other).status.canSeen = decide (b = CAN) := by
  rcases cancelKind_cases b s.status.canSeen with ⟨rfl, hseen, hk⟩ | ⟨-, -, hk⟩ | ⟨-, hk⟩ <;> rw [hk]
  · exact hseen
  · exact hfirst
  · exact hother

theorem txNegByte_canSeen (b : Byte) (s : State) : (txNegByte b s).status.canSeen = decide (b = CAN) := by
  refine cancelCheck_canSeen rfl ?_
  split
  · rfl
  split
  · rfl
  split
  · rfl
  · exact failThen_canSeen fun _ => rfl

theorem txBlkByte_canSeen (b : Byte) (s : State) : (txBlkByte b s).status.canSeen = decide (b = CAN) := by
  refine cancelCheck_canSeen (txBlkFailed_canSeen _) ?_
  split
  · rfl
  · exact txBlkFailed_canSeen _

theorem txEotByte_canSeen (b : Byte) (s : State) : (txEotByte b s).status.canSeen = decide (b = CAN) := by
  refine cancelCheck_canSeen (failThen_canSeen fun _ => rfl) ?_
  split
  · rfl
  · exact failThen_canSeen fun _ => rfl

theorem rxNegByte_canSeen (b : Byte) (s : State) : (rxNegByte b s).status.canSeen = decide (b = CAN) := by
  refine cancelCheck_canSeen rfl ?_
  split
  · rfl
  split
  · rfl
  · exact failThen_canSeen fun _ => rfl

theorem rxStartByte_canSeen (b : Byte) (s : State) : (rxStartByte b s).status.canSeen = decide (b = CAN) := by
  refine cancelCheck_canSeen rfl ?_
  split
  · rfl
  split
  · rfl
  · exact failThen_canSeen fun _ => rfl

/-- The byte of a control position sets CANSEEN or clears it (R309). -/
theorem readDone_control_canSeen {s : State} (b : Byte) (hc : s.hid.pt.isControl = true) (hrb : s.hid.rb = []) :
    ∃ t, readDone (gather b s) b = .next t ∧ t.status.canSeen = decide (b = CAN) := by
  rcases (Point.isControl_iff _).mp hc with hpt | hpt | hpt | hpt | hpt
  all_goals simp only [readDone, gather_hid, hpt, hrb]
  · exact ⟨_, rfl, txNegByte_canSeen b _⟩
  · exact ⟨_, rfl, txBlkByte_canSeen b _⟩
  · exact ⟨_, rfl, txEotByte_canSeen b _⟩
  · exact ⟨_, rfl, rxNegByte_canSeen b _⟩
  · exact ⟨_, rfl, rxStartByte_canSeen b _⟩

/-- A link event that is no byte at a control position leaves CANSEEN (R309). -/
theorem canSeen_of_link {e : Event} {s t : State} (hl : e.isLink = true) (hen : Event.enabled s.hid.pt e = true)
    (h : handle e s = .next t) (hno : (∀ b, e ≠ .rx b) ∨ s.hid.pt.isControl = false) :
    t.status.canSeen = s.status.canSeen := by
  obtain ⟨v, hv, hc⟩ := (handle_link hl hen h).passed
  exact (hc.elim (congrArg fun x => x.status.canSeen) Resumes.canSeen_eq).trans (hv.canSeen hno)

/-! ## Session open at the host port -/

/-- An accepting step leaves PHASE and CANSEEN, or opens a session, which clears both (R304). -/
theorem Accepts.session_cases {i : Instr} {s t : State} (ht : Accepts s i t) :
    (t.status.phase = s.status.phase ∧ t.status.canSeen = s.status.canSeen) ∨
      (t.status.phase = .idle ∧ t.status.canSeen = false ∧
        (i = .txNeg ∧ t.hid.pt = .txnRd ∨ i = .rxNeg ∧ t.hid.pt = .rxnWr)) := by
  cases ht with
  | txNeg => exact .inr ⟨rfl, rfl, .inl ⟨rfl, rfl⟩⟩
  | rxNeg => exact .inr ⟨rfl, rfl, .inr ⟨rfl, rfl⟩⟩
  | _ => exact .inl ⟨rfl, rfl⟩

/-- A host write leaves PHASE and CANSEEN, or is a command word that opens a session. -/
theorem HostMove.session_cases {v : Word} {off : Byte} {s t : State} (hm : HostMove v s off t) :
    (t.status.phase = s.status.phase ∧ t.status.canSeen = s.status.canSeen) ∨
      (off = 0x0C#8 ∧ s.status.busy = false ∧ t.status.phase = .idle ∧ t.status.canSeen = false ∧
        (decode v = .ok .txNeg ∧ t.hid.pt = .txnRd ∨ decode v = .ok .rxNeg ∧ t.hid.pt = .rxnWr)) := by
  cases hm with
  | command hb hd ht =>
    refine ht.session_cases.imp_right fun ⟨hphase, hseen, hi⟩ => ⟨rfl, hb, hphase, hseen, ?_⟩
    exact hi.imp (fun ⟨h, hpt⟩ => ⟨h ▸ hd, hpt⟩) fun ⟨h, hpt⟩ => ⟨h ▸ hd, hpt⟩
  | _ => exact .inl ⟨rfl, rfl⟩

/-- A host read leaves STATUS and ERRCNT. -/
theorem hostRead_kept (width : Nat) (off : Byte) (s : State) :
    (hostRead width off s).status = s.status ∧ (hostRead width off s).errCnt = s.errCnt := by
  obtain ⟨v, a, he⟩ := hostRead_eq width off s
  rw [he]
  exact ⟨rfl, rfl⟩

/-- Settles O29: a link event writes CANSEEN by a byte at a control position only, and the host port by a session open only. -/
theorem cancelMemoryDiscipline : Obligations.CancelMemoryDiscipline := by
  refine ⟨Point.isControl_iff, fun b s t h hr hno => ?elsewhere, fun pt b s hc hawaits => ?control, fun s t h => ?tick,
    fun _ _ _ => rfl, fun _ => rfl, fun e s t hen h hne => ?writers⟩
  case elsewhere =>
    have hen : Event.enabled s.hid.pt (.rx b) = true := hr
    exact canSeen_of_link rfl hen ((takes_iff hen).mp h) (.inr hno)
  case tick => exact canSeen_of_link rfl rfl ((takes_iff rfl).mp h) (.inl nofun)
  case control =>
    obtain ⟨rfl, -, -, hrb⟩ := id hawaits
    obtain ⟨t, hdone, hseen⟩ := readDone_control_canSeen b hc hrb
    exact ⟨t, takes_rx_of_awaits hawaits (Point.isRead_of_isControl hc) hdone, hseen⟩
  case writers =>
    have hh := (takes_iff hen).mp h
    cases e with
    | hostWr width off v =>
      rcases hostWrite_cases hh with rfl | ⟨rfl, hm⟩
      · exact absurd rfl hne
      · rcases hm.session_cases with ⟨-, hkept⟩ | ⟨rfl, hb, -, hseen, hd⟩
        · exact absurd hkept hne
        · exact .inr (.inl ⟨v, rfl, hb, hseen, hd.imp And.left And.left⟩)
    | hostRd width off => cases hh; exact absurd (by rw [(hostRead_kept width off s).1]) hne
    | reset => cases hh; exact .inr (.inr ⟨rfl, rfl⟩)
    | rx b =>
      refine .inl ⟨⟨b, rfl⟩, ?_⟩
      by_contra hno
      exact hne (canSeen_of_link rfl hen hh (.inr (Bool.eq_false_iff.mpr hno)))
    | txtake => exact absurd (canSeen_of_link rfl hen hh (.inl nofun)) hne
    | tick => exact absurd (canSeen_of_link rfl hen hh (.inl nofun)) hne

/-! ## PHASE -/

/-- Where a continuation writes PHASE (R301). -/
theorem Resumes.phase_cases {v t : State} (ht : Resumes v t) :
    t.status.phase = v.status.phase ∨
      (t.status.phase = .tx ∧ v.hid.pt = .txnRd ∧ t.status.result = .negotiated) ∨
      (t.status.phase = .rx ∧ v.hid.pt = .rxnRd ∧ t.hid.pt = .rxsRd) ∨
      (t.status.phase = .idle ∧ t.hid.pt = .idle ∧
        (t.status.result = .succeeded ∨ t.status.result = .cancelled ∨ v.hid.pt = .canWr t.status.result)) := by
  cases ht with
  | negotiated u hpt => exact .inr (.inl ⟨rfl, hpt, rfl⟩)
  | rxNegotiated p hpt => exact .inr (.inr (.inl ⟨rfl, hpt, rfl⟩))
  | succeeded => exact .inr (.inr (.inr ⟨rfl, rfl, .inl rfl⟩))
  | peerCancel => exact .inr (.inr (.inr ⟨rfl, rfl, .inr (.inl rfl)⟩))
  | aborted code hpt => exact .inr (.inr (.inr ⟨rfl, rfl, .inr (.inr hpt)⟩))
  | _ => exact .inl rfl

/-- Settles O54: a continuation writes PHASE where `Resumes.phase_cases` says, and the host port by a session open only. -/
theorem phaseChangesOnlyAtNamedPoints : Obligations.PhaseChangesOnlyAtNamedPoints := by
  intro e s t hen h hne
  have hh := (takes_iff hen).mp h
  by_cases hl : e.isLink = true
  case pos =>
    obtain ⟨v, hv, hc⟩ := (handle_link hl hen hh).passed
    rw [← unstored_field (fun x => x.status.phase) hv.rest] at hne
    rw [← unstored_field (fun x => x.hid.pt) hv.rest]
    rcases hc with rfl | ht
    · exact absurd rfl hne
    · exact (ht.phase_cases.resolve_left hne).imp_right (Or.imp_right (And.imp_right (.inr ∘ .inr)))
  case neg =>
    cases e with
    | hostWr width off v =>
      rcases hostWrite_cases hh with rfl | ⟨rfl, hm⟩
      · exact absurd rfl hne
      · rcases hm.session_cases with ⟨hkept, -⟩ | ⟨rfl, hb, hphase, -, hd⟩
        · exact absurd hkept hne
        · exact .inr (.inr ⟨hphase, .inr (.inl ⟨v, rfl, hb, hd⟩)⟩)
    | hostRd width off => cases hh; exact absurd (by rw [(hostRead_kept width off s).1]) hne
    | reset => cases hh; exact .inr (.inr ⟨rfl, .inl rfl⟩)
    | _ => exact absurd rfl hl

/-! ## The retry budget -/

/-- The commands whose acceptance clears ERRCNT (R310). -/
theorem Accepts.errCnt_cases {i : Instr} {s t : State} (ht : Accepts s i t) :
    t.errCnt = s.errCnt ∨
      (t.errCnt = 0#8 ∧ t.status.busy = s.status.busy ∧ (i = .txNeg ∨ i = .rxNeg ∨ i = .txBlk ∨ i = .txEot)) := by
  cases ht with
  | txNeg => exact .inr ⟨rfl, rfl, .inl rfl⟩
  | rxNeg => exact .inr ⟨rfl, rfl, .inr (.inl rfl)⟩
  | txBlk => exact .inr ⟨rfl, rfl, .inr (.inr (.inl rfl))⟩
  | txEot => exact .inr ⟨rfl, rfl, .inr (.inr (.inr rfl))⟩
  | _ => exact .inl rfl

/-- The host port changes ERRCNT by the acceptance of one of those commands only. -/
theorem HostMove.errCnt_cases {v : Word} {off : Byte} {s t : State} (hm : HostMove v s off t) :
    t.errCnt = s.errCnt ∨
      (t.errCnt = 0#8 ∧ off = 0x0C#8 ∧ s.status.busy = false ∧ t.status.busy = true ∧
        (decode v = .ok .txNeg ∨ decode v = .ok .rxNeg ∨ decode v = .ok .txBlk ∨ decode v = .ok .txEot)) := by
  cases hm with
  | command hb hd ht =>
    refine ht.errCnt_cases.imp_right fun ⟨hzero, hbusy, hi⟩ => ⟨hzero, rfl, hb, hbusy, ?_⟩
    rcases hi with rfl | rfl | rfl | rfl <;> simp [hd]
  | _ => exact .inl rfl

/-- A continuation counts one failure, or clears ERRCNT by a sender's ACK, a start byte in RX.NEG or a block accepted (R310). -/
theorem Resumes.errCnt_cases {v t : State} (ht : Resumes v t) :
    t.errCnt = v.errCnt ∨ t.errCnt = v.errCnt + 1 ∨
      (t.errCnt = 0#8 ∧
        (v.hid.pt = .txbRd ∧ t.status.result = .acked ∨ v.hid.pt = .rxnRd ∧ t.hid.pt = .rxsRd ∨
          v.hid.pt = .rxdRd ∧ t.hid.pt = .rxkWr)) := by
  cases ht with
  | acked hpt => exact .inr (.inr ⟨rfl, .inl ⟨hpt, rfl⟩⟩)
  | rxNegotiated p hpt => exact .inr (.inr ⟨rfl, .inr (.inl ⟨hpt, rfl⟩)⟩)
  | accept hpt => exact .inr (.inr ⟨rfl, .inr (.inr ⟨hpt, rfl⟩)⟩)
  | exhausted => exact .inr (.inl rfl)
  | blkExhausted => exact .inr (.inl rfl)
  | retryBlk => exact .inr (.inl rfl)
  | retryNeg => exact .inr (.inl rfl)
  | retryEot => exact .inr (.inl rfl)
  | retryProbe => exact .inr (.inl rfl)
  | retryNak => exact .inr (.inl rfl)
  | retryPurge => exact .inr (.inl rfl)
  | _ => exact .inl rfl

/-- The points where ERRCNT can change are reads (R310). -/
theorem isRead_of_mem_failing :
    ∀ {pt : Point}, pt ∈ [Point.txnRd, .txbRd, .txeRd, .rxnRd, .rxaRd, .rxdRd, .rxxRd] → pt.isRead = true := by
  decide

/-- A link event that can happen at a read is a byte or a tick. -/
theorem tick_or_rx_of_isRead {e : Event} {pt : Point} (hl : e.isLink = true) (hen : Event.enabled pt e = true)
    (hr : pt.isRead = true) : e = .tick ∨ ∃ b, e = .rx b := by
  cases e with
  | rx b => exact .inr ⟨b, rfl⟩
  | tick => exact .inl rfl
  | txtake => exact absurd ⟨hr, hen⟩ pt.not_read_and_write
  | _ => cases hl

/-- Fail() spends one failure of the budget, then aborts or retries (R308). -/
theorem failThen_fails {code : ResultCode} {retry : State → State} {s : State} (again : State → Prop)
    (hcount : (retry (countFailure s)).errCnt = s.errCnt + 1) (hagain : again (retry (countFailure s))) :
    Fails code (again (failThen code retry s)) s (failThen code retry s) := by
  rcases failThen_cases code retry s with ⟨hl, he⟩ | ⟨hl, he⟩ <;> rw [he]
  · exact ⟨rfl, fun _ => ⟨rfl, rfl, rfl, rfl, rfl, rfl, rfl, rfl⟩, fun h => absurd hl (Nat.not_le.mpr h)⟩
  · exact ⟨hcount, fun h => absurd hl (Nat.not_lt.mpr h), fun _ => hagain⟩

/-- TX.BLK's failure spends one too, and emits its progress event (R354). -/
theorem txBlkFailed_fails (s : State) :
    Fails .ackTimeout (WritesNext .txbWr s.hid.fr s (txBlkFailed s)) s (txBlkFailed s) := by
  unfold txBlkFailed exhausted
  split
  next h =>
    exact ⟨rfl, fun _ => ⟨rfl, rfl, rfl, rfl, rfl, rfl, rfl, rfl⟩,
      fun hlt => absurd (of_decide_eq_true h) (Nat.not_le.mpr hlt)⟩
  next h => exact ⟨rfl, fun hle => absurd (decide_eq_true hle) h, fun _ => ⟨rfl, rfl, rfl, rfl, rfl, rfl, rfl, rfl⟩⟩

/-- Settles O28: where ERRCNT changes, by the cases of each event's move; then the timeout of each control position. -/
theorem timeoutSpendsTheBudget : Obligations.TimeoutSpendsTheBudget := by
  refine ⟨fun e s t hen h hne => ?changes, fun s ht => ?timeouts⟩
  case changes =>
    have hh := (takes_iff hen).mp h
    by_cases hl : e.isLink = true
    case pos =>
      obtain ⟨v, hv, hc⟩ := (handle_link hl hen hh).passed
      have hpt : v.hid.pt = s.hid.pt := unstored_field (fun x => x.hid.pt) hv.rest
      rw [← unstored_field State.errCnt hv.rest] at hne ⊢
      rcases hc with rfl | hr
      · exact absurd rfl hne
      rcases hr.errCnt_cases.resolve_left hne with hadd | ⟨hzero, hpoint⟩
      · have hmem := not_imp_comm.mp hr.errCnt_eq hne
        rw [hpt] at hmem
        exact .inl ⟨hadd, tick_or_rx_of_isRead hl hen (isRead_of_mem_failing hmem), hmem⟩
      · rw [hpt] at hpoint
        exact .inr ⟨hzero, .inr (.inr hpoint)⟩
    case neg =>
      cases e with
      | hostWr width off v =>
        rcases hostWrite_cases hh with rfl | ⟨rfl, hm⟩
        · exact absurd rfl hne
        · obtain ⟨hzero, rfl, hb, hbusy, hd⟩ := hm.errCnt_cases.resolve_left hne
          exact .inr ⟨hzero, .inr (.inl ⟨v, rfl, hb, hbusy, hd⟩)⟩
      | hostRd width off => cases hh; exact absurd (hostRead_kept width off s).2 hne
      | reset => cases hh; exact .inr ⟨rfl, .inl rfl⟩
      | _ => exact absurd rfl hl
  case timeouts =>
    have htakes (hc : s.hid.pt.isControl = true) : Takes .tick s (readTimeout s) :=
      takes_readTimeout (Point.isRead_of_isControl hc) ht
    refine ⟨fun hpt => ⟨_, htakes (by rw [hpt]; rfl), ?txNeg⟩, fun hpt => ⟨_, htakes (by rw [hpt]; rfl), ?txBlk⟩,
      fun hpt => ⟨_, htakes (by rw [hpt]; rfl), ?txEot⟩, fun hpt => ⟨_, htakes (by rw [hpt]; rfl), ?rxNeg⟩,
      fun hpt => ⟨_, htakes (by rw [hpt]; rfl), ?rxStart⟩⟩
    all_goals simp only [readTimeout, hpt]
    case txNeg => exact failThen_fails (ReadsNext .txnRd 1 s.sessTmo s) rfl ⟨rfl, rfl, rfl, rfl, rfl, rfl, rfl, rfl, rfl⟩
    case txBlk => exact txBlkFailed_fails s
    case txEot => exact failThen_fails (WritesNext .txeWr [EOT] s) rfl ⟨rfl, rfl, rfl, rfl, rfl, rfl, rfl, rfl⟩
    case rxNeg =>
      exact failThen_fails (fun t => WritesNext .rxnWr [t.hid.lastProbe] s t) rfl
        ⟨rfl, rfl, rfl, rfl, rfl, rfl, rfl, rfl⟩
    case rxStart => exact failThen_fails (WritesNext .rxn2Wr [NAK] s) rfl ⟨rfl, rfl, rfl, rfl, rfl, rfl, rfl, rfl⟩

end Sys2Proof.Machine
end

section
/-! PROOF. A silent peer ends TX.NEG on tick number Limit × max(TIMEOUT, 1) (spec/42_sequencer_common.md R308, R313;
spec/43_sender.md R351). -/

namespace Sys2Proof.Machine

/-- The ticks of one negotiation round, max(STMO, 1). -/
def roundTicks (s : State) : Nat := max s.sessTmo.toNat 1

/-- In `t` TX.NEG, which first read in `s`, has heard `n` ticks and no byte: ERRCNT rounds are over, and TMR counts the rest of
the round that runs (R351; 60_exceptions.md R521). -/
structure Silent (n : Nat) (s t : State) : Prop where
  pt : t.hid.pt = .txnRd
  trace : t.trace = s.trace
  sessCfg : t.sessCfg = s.sessCfg
  sessTmo : t.sessTmo = s.sessTmo
  tmr : max t.hid.tmr.toNat 1 ≤ roundTicks s
  elapsed : n + max t.hid.tmr.toNat 1 = (t.errCnt.toNat + 1) * roundTicks s

theorem silent_zero {s : State} (hpt : s.hid.pt = .txnRd) (herr : s.errCnt = 0#8) (htmr : s.hid.tmr = s.sessTmo) :
    Silent 0 s s := by
  refine ⟨hpt, rfl, rfl, rfl, ?_, ?_⟩ <;> simp [roundTicks, herr, htmr]

theorem Silent.limit_eq {n : Nat} {s t : State} (h : Silent n s t) : limit t = limit s := limit_congr h.sessCfg

/-- A tick inside a round counts TMR down. -/
theorem Silent.counted {n : Nat} {s t : State} (h : Silent n s t) (ht : 1 < t.hid.tmr.toNat) :
    Silent (n + 1) s (countTick t) := by
  have htmr : (countTick t).hid.tmr.toNat + 1 = t.hid.tmr.toNat := by
    rw [countTick_hid]
    bv_omega
  have hle := h.tmr
  have hn := h.elapsed
  refine ⟨h.pt, h.trace, h.sessCfg, h.sessTmo, by omega, ?_⟩
  rw [countTick_errCnt, ← hn]
  omega

/-- The tick that ends a round reaches the read's timeout, which is one failure (R351). -/
theorem Silent.takes_timeout {n : Nat} {s t : State} (h : Silent n s t) (ht : t.hid.tmr.toNat ≤ 1) :
    Takes .tick t (failThen .negTimeout (readOne .txnRd) t) ∧ n + 1 = (t.errCnt.toNat + 1) * roundTicks s := by
  have htakes := takes_readTimeout (s := t) (by rw [h.pt]; rfl) ht
  simp only [readTimeout, h.pt] at htakes
  have hn := h.elapsed
  exact ⟨htakes, by omega⟩

/-- A round that leaves budget is followed by the next, with a full timer. -/
theorem Silent.nextRound {n : Nat} {s t : State} (h : Silent n s t) (hn : n + 1 = (t.errCnt.toNat + 1) * roundTicks s)
    (hl : t.errCnt.toNat + 1 < limit t) : Silent (n + 1) s (readOne .txnRd (countFailure t)) := by
  have hcount : (readOne .txnRd (countFailure t)).errCnt.toNat = t.errCnt.toNat + 1 := countFailure_errCnt_toNat (by omega)
  have htmr : max (readOne .txnRd (countFailure t)).hid.tmr.toNat 1 = roundTicks s := by rw [roundTicks, ← h.sessTmo]; rfl
  exact ⟨rfl, h.trace, h.sessCfg, h.sessTmo, htmr.le, by rw [htmr, hn, hcount, Nat.succ_mul (_ + 1)]⟩

/-- Before the budget's last tick the negotiation waits on. -/
theorem Silent.tick {n : Nat} {s t : State} (h : Silent n s t) (hn : n + 1 < limit s * roundTicks s) :
    ∃ u, Takes .tick t u ∧ Silent (n + 1) s u := by
  rcases Nat.lt_or_ge 1 t.hid.tmr.toNat with ht | ht
  · exact ⟨_, (takes_tick (.inl (by rw [h.pt]; rfl))).1 ht, h.counted ht⟩
  · obtain ⟨htakes, hround⟩ := h.takes_timeout ht
    have hl : t.errCnt.toNat + 1 < limit t := by
      rw [hround, ← h.limit_eq] at hn
      exact Nat.lt_of_mul_lt_mul_right hn
    rcases failThen_cases .negTimeout (readOne .txnRd) t with ⟨hex, -⟩ | ⟨-, he⟩
    · exact absurd hex (Nat.not_le.mpr hl)
    · rw [he] at htakes
      exact ⟨_, htakes, h.nextRound hround hl⟩

/-- The budget's last tick ends its last round. -/
theorem Silent.last_round {n : Nat} {s t : State} (h : Silent n s t) (hn : n + 1 = limit s * roundTicks s) :
    t.hid.tmr.toNat ≤ 1 := by
  by_contra ht
  have hle := h.tmr
  have helapsed := h.elapsed
  have hlow : limit s * roundTicks s < (t.errCnt.toNat + 1) * roundTicks s := by omega
  have hhigh : (t.errCnt.toNat + 1) * roundTicks s < (limit s + 1) * roundTicks s := by
    rw [Nat.succ_mul (limit s)]
    omega
  have hgt := Nat.lt_of_mul_lt_mul_right hlow
  have hlt := Nat.lt_of_mul_lt_mul_right hhigh
  omega

/-- The budget's last tick starts the abort (R306, R308). -/
theorem Silent.last_tick {n : Nat} {s t : State} (h : Silent n s t) (hn : n + 1 = limit s * roundTicks s) :
    ∃ u, Takes .tick t u ∧ u.hid.pt = .canWr .negTimeout ∧ u.hid.ws = [CAN, CAN] ∧ u.errCnt.toNat = limit s := by
  obtain ⟨htakes, hround⟩ := h.takes_timeout (h.last_round hn)
  have hl : t.errCnt.toNat + 1 = limit t := by
    rw [h.limit_eq]
    exact Nat.eq_of_mul_eq_mul_right (by simp [roundTicks]) (hround.symm.trans hn)
  rcases failThen_cases .negTimeout (readOne .txnRd) t with ⟨-, he⟩ | ⟨hlt, -⟩
  · rw [he] at htakes
    exact ⟨_, htakes, rfl, rfl, (countFailure_errCnt_toNat (by omega)).trans (hl.trans h.limit_eq)⟩
  · omega

/-- `n` ticks, fewer than the budget's, leave the negotiation waiting. -/
theorem runEvents_silent {n : Nat} {s : State} (h : Silent 0 s s) (hn : n < limit s * roundTicks s) :
    ∃ t, runEvents (List.replicate n .tick) s = .next t ∧ Silent n s t := by
  induction n with
  | zero => exact ⟨s, rfl, h⟩
  | succ n ih =>
    obtain ⟨t, hrun, ht⟩ := ih (by omega)
    obtain ⟨u, htick, hu⟩ := ht.tick hn
    exact ⟨u, by rw [List.replicate_succ', runEvents_append hrun, runEvents_cons htick]; rfl, hu⟩

/-- Settles O34, by induction on the ticks: all but the last leave a silent negotiation, and the last aborts it. -/
theorem silentPeerEndsNegotiation : Obligations.SilentPeerEndsNegotiation := by
  intro n s hawaits herr htmr
  obtain ⟨hpt, -⟩ := hawaits
  have hstart := silent_zero hpt herr htmr
  refine ⟨fun hn => ?waiting, fun hn => ?ended⟩
  case waiting =>
    obtain ⟨t, hrun, ht⟩ := runEvents_silent hstart hn
    exact ⟨t, hrun, ht.pt, ht.trace⟩
  case ended =>
    cases n with
    | zero => exact absurd hn (Nat.mul_pos (limit_pos s) (Nat.lt_of_lt_of_le Nat.one_pos (le_max_right _ _))).ne
    | succ n =>
      obtain ⟨t, hrun, ht⟩ := runEvents_silent (n := n) hstart (Nat.lt_of_succ_le hn.le)
      obtain ⟨u, htick, hu, hws, hcount⟩ := ht.last_tick hn
      refine ⟨u, ?_, hu, hws, hcount⟩
      rw [List.replicate_succ', runEvents_append hrun, runEvents_cons htick]
      rfl

end Sys2Proof.Machine
end

section
/-! PROOF. The sender's commands: their acceptance, every reply and the timeout (spec/43_sender.md R351 to R355). -/

namespace Sys2Proof.Machine

/-! ## CancelCheck and the wait for a reply -/

/-- Any byte but CAN passes CancelCheck (R309). -/
theorem cancelKind_of_ne {b : Byte} (h : b ≠ CAN) (seen : Bool) : cancelKind b seen = .other := if_neg h

/-- A LinkWrite whose end starts the read of the reply at `pt` does so complete or abandoned alike (20_memory.md R121). -/
theorem takes_write_then_readOne {pt : Point} {s : State} (hw : s.hid.pt.isWrite = true)
    (hdone : ∀ u : State, u.hid.pt = s.hid.pt → writeDone u = readOne pt u) :
    (∀ b, s.hid.ws[s.hid.wj]? = some b → s.hid.wj + 1 = s.hid.ws.length →
      ∃ t, Takes .txtake s t ∧ ReadsNext pt 1 s.sessTmo s t ∧ t.trace = s.trace ++ [b]) ∧
    (s.hid.tmr.toNat ≤ 1 → ∃ t, Takes .tick s t ∧ ReadsNext pt 1 s.sessTmo s t ∧ t.status.txto = true) := by
  refine ⟨fun b hb hlast => ?taken, fun ht => ?abandoned⟩
  case taken =>
    have htakes := (takes_txtake hw hb).2 hlast
    rw [hdone (sendByte b s) rfl] at htakes
    exact ⟨_, htakes, ⟨rfl, rfl, rfl, rfl, rfl, rfl, rfl, rfl, rfl⟩, rfl⟩
  case abandoned =>
    have htakes := takes_writeTimeout hw ht
    rw [hdone (setTxto s) rfl] at htakes
    exact ⟨_, htakes, ⟨rfl, rfl, rfl, rfl, rfl, rfl, rfl, rfl, rfl⟩, rfl⟩

/-! ## TX.NEG (R351) -/

theorem exec_txNeg_of_mode_legal {s : State} (h : s.ctrl.mode = 0#2 ∨ s.ctrl.mode = 1#2) :
    exec .txNeg s = .next (readOne .txnRd (sessionOpen (startCmd .txNeg s))) := by
  rw [exec, execTxNeg, if_pos ((modeLegal_iff _).mpr h)]

theorem takes_rx_txNeg {s : State} (h : Awaits .txnRd s) (b : Byte) : Takes (.rx b) s (txNegByte b (gather b s)) := by
  obtain ⟨hpt, -, -, hrb⟩ := id h
  exact takes_rx_of_awaits h rfl (by simp [readDone, hpt, hrb])

theorem txNegByte_second_can {s : State} (h : s.status.canSeen = true) : txNegByte CAN s = endPeerCancel s := by
  simp [txNegByte, cancelKind, h]

theorem txNegByte_first_can {s : State} (h : s.status.canSeen = false) :
    txNegByte CAN s = readOne .txnRd (noteCan CAN s) := by
  simp [txNegByte, cancelKind, h]

theorem txNegByte_nak (s : State) : txNegByte NAK s = txNegotiated false (noteCan NAK s) := rfl

theorem txNegByte_crq (s : State) : txNegByte CRQ s = txNegotiated true (noteCan CRQ s) := rfl

theorem txNegByte_eot (s : State) : txNegByte EOT s = abortWithCancel .declined (noteCan EOT s) := rfl

/-- A byte that is no answer to a sender's wait for the receiver is a failed round (R351). -/
theorem txNegByte_other {b : Byte} (hcan : b ≠ CAN) (hnak : b ≠ NAK) (hcrq : b ≠ CRQ) (heot : b ≠ EOT) (s : State) :
    txNegByte b s = txNegTimeout (noteCan b s) := by
  simp [txNegByte, txNegTimeout, cancelKind_of_ne hcan, hnak, hcrq, heot]

theorem txNegTimeout_fails (s : State) :
    Fails .negTimeout (ReadsNext .txnRd 1 s.sessTmo s (txNegTimeout s)) s (txNegTimeout s) :=
  failThen_fails (ReadsNext .txnRd 1 s.sessTmo s) rfl ⟨rfl, rfl, rfl, rfl, rfl, rfl, rfl, rfl, rfl⟩

/-- Settles O30: the accepting step, then the reply byte by what `txNegByte` does with it, then the timeout's failure. -/
theorem txNegNegotiates : Obligations.TxNegNegotiates := by
  refine ⟨fun h b => decode_eq_ok_iff.mpr ⟨fieldOp_packWord h b _, rfl⟩,
    fun s => ⟨exec_of_mode_illegal (.inl rfl), exec_txNeg_of_mode_legal⟩, fun b s hawaits => ?reply, fun s hpt ht => ?timeout⟩
  case reply =>
    refine ⟨_, takes_rx_txNeg hawaits b, ?secondCan, ?firstCan, ?nak, ?crq, ?eot, ?other⟩
    case secondCan =>
      rintro rfl hseen
      rw [txNegByte_second_can (s := gather CAN s) hseen]
      exact ⟨⟨rfl, rfl, rfl, rfl, rfl⟩, rfl⟩
    case firstCan =>
      rintro rfl hseen
      rw [txNegByte_first_can (s := gather CAN s) hseen]
      exact ⟨⟨rfl, rfl, rfl, rfl, rfl, rfl, rfl, rfl, rfl⟩, rfl, rfl⟩
    case nak => rintro rfl; rw [txNegByte_nak]; exact ⟨⟨rfl, rfl, rfl, rfl, rfl⟩, rfl, rfl, rfl⟩
    case crq => rintro rfl; rw [txNegByte_crq]; exact ⟨⟨rfl, rfl, rfl, rfl, rfl⟩, rfl, rfl, rfl⟩
    case eot => rintro rfl; rw [txNegByte_eot]; exact ⟨⟨rfl, rfl, rfl, rfl, rfl, rfl, rfl, rfl⟩, rfl, rfl⟩
    case other =>
      intro hcan hnak hcrq heot
      refine ⟨?_, (txNegByte_canSeen b _).trans (decide_eq_false hcan)⟩
      rw [txNegByte_other hcan hnak hcrq heot]
      exact txNegTimeout_fails (noteCan b (gather b s))
  case timeout =>
    have htakes := takes_readTimeout (by rw [hpt]; rfl) ht
    simp only [readTimeout, hpt] at htakes
    exact ⟨_, htakes, txNegTimeout_fails s, failThen_canSeen fun _ => rfl⟩

/-! ## TX.BLK's accepting step (R353) -/

theorem exec_txBlk_of_txLen_legal {s : State} (hp : s.status.phase = .tx) (hlen : 1 ≤ s.txLen.toNat)
    (hmax : s.txLen.toNat ≤ (txSize s.sessCfg).bytes) :
    exec .txBlk s = .next (sendFrame (buildFrame (startCmd .txBlk s))) := by
  rw [exec, execTxBlk, if_neg (not_not_intro hp), if_pos ((txLenLegal_iff _ _).mpr ⟨hlen, hmax⟩)]

/-- The payload is TXLEN buffer bytes and the padding (R253). -/
theorem txPayload_eq (s : State) : txPayload s = (List.range s.txLen.toNat).map (bufByte s) ++
    List.replicate ((txSize s.sessCfg).bytes - s.txLen.toNat) s.sessCfg.pad := by
  rw [txPayload, pad, bufRun_length, bufRun]

theorem txPayload_startCmd (c : LinkCmd) (s : State) : txPayload (startCmd c s) = txPayload s := rfl

/-- The frame build, field by field: the accumulators run from 0 over the payload (R353). -/
theorem buildFrame_eq (s : State) :
    buildFrame s =
      { s with
        totCnt := s.totCnt + 1
        errCnt := 0
        crc := crc16 (txPayload s) 0
        csum := checksum (txPayload s) 0
        trl := trailerReg s.status.useCrc (txPayload s)
        hdr := headerReg (txSize s.sessCfg) s.seq
        hid := { s.hid with
          fr := header (txSize s.sessCfg) s.seq ++ txPayload s ++ trailer s.status.useCrc (txPayload s) } } := by
  simp only [buildFrame, latchTrailer, feedAll, clearEngine, trailerReg]

/-- Settles O31: the two rejections, and the frame build over the payload written out. -/
theorem txBlkBuildsTheFrame : Obligations.TxBlkBuildsTheFrame := by
  refine ⟨fun h b => decode_eq_ok_iff.mpr ⟨fieldOp_packWord h b _, rfl⟩, fun s => ?accept⟩
  intro p pl fr
  refine ⟨exec_of_phase_ne_tx (.inl rfl), exec_txBlk_of_txLen_illegal, fun hp hlen hmax => ?_⟩
  have hpl : txPayload s = pl := txPayload_eq s
  rw [exec_txBlk_of_txLen_legal hp hlen hmax, buildFrame_eq, txPayload_startCmd, hpl]
  rfl

/-! ## TX.BLK's reply (R354) -/

theorem takes_rx_txBlk {s : State} (h : Awaits .txbRd s) (b : Byte) : Takes (.rx b) s (txBlkByte b (gather b s)) := by
  obtain ⟨hpt, -, -, hrb⟩ := id h
  exact takes_rx_of_awaits h rfl (by simp [readDone, hpt, hrb])

theorem txBlkByte_second_can {s : State} (h : s.status.canSeen = true) : txBlkByte CAN s = endPeerCancel s := by
  simp [txBlkByte, cancelKind, h]

theorem txBlkByte_ack (s : State) : txBlkByte ACK s = txBlkAcked (noteCan ACK s) := rfl

/-- Every other reply is a failed attempt (R354). -/
theorem txBlkByte_failed {b : Byte} {s : State} (h : b = CAN ∧ s.status.canSeen = false ∨ b ≠ CAN ∧ b ≠ ACK) :
    txBlkByte b s = txBlkFailed (noteCan b s) := by
  rcases h with ⟨rfl, hseen⟩ | ⟨hcan, hack⟩
  · simp [txBlkByte, cancelKind, hseen]
  · simp [txBlkByte, cancelKind_of_ne hcan, hack]

/-- A failed attempt leaves SEQ and SUCCNT and emits its one progress event after the failure is counted (R354). -/
theorem txBlkFailed_counters (s : State) :
    (txBlkFailed s).seq = s.seq ∧ (txBlkFailed s).succCnt = s.succCnt ∧
      (txBlkFailed s).progress = s.progress ++ [⟨s.totCnt, s.succCnt, s.errCnt + 1⟩] := by
  unfold txBlkFailed
  split <;> exact ⟨rfl, rfl, rfl⟩

/-- Settles O32: the frame's write, then the reply byte by what `txBlkByte` does with it, then the timeout's failure. -/
theorem txBlkAwaitsTheReply : Obligations.TxBlkAwaitsTheReply := by
  refine ⟨fun s hpt => takes_write_then_readOne (by rw [hpt]; rfl) fun u hu => ?written,
    fun b s hawaits => ⟨_, takes_rx_txBlk hawaits b, ?secondCan, ?ack, ?failed⟩, fun s hpt ht => ?timeout⟩
  case written => simp only [writeDone, hu, hpt]
  case secondCan =>
    rintro rfl hseen
    rw [txBlkByte_second_can (s := gather CAN s) hseen]
    exact ⟨⟨rfl, rfl, rfl, rfl, rfl⟩, rfl, rfl⟩
  case ack =>
    rintro rfl
    rw [txBlkByte_ack]
    exact ⟨⟨rfl, rfl, rfl, rfl, rfl⟩, rfl, rfl, rfl, rfl, rfl⟩
  case failed =>
    intro hb
    refine ⟨?_, txBlkByte_canSeen b _, ?_⟩ <;> rw [txBlkByte_failed (s := gather b s) hb]
    · exact txBlkFailed_fails (noteCan b (gather b s))
    · exact txBlkFailed_counters (noteCan b (gather b s))
  case timeout =>
    have htakes := takes_readTimeout (by rw [hpt]; rfl) ht
    simp only [readTimeout, hpt] at htakes
    obtain ⟨hseq, -, hprogress⟩ := txBlkFailed_counters s
    exact ⟨_, htakes, txBlkFailed_fails s, txBlkFailed_canSeen s, hseq, hprogress⟩

/-! ## TX.EOT (R355) -/

theorem exec_txEot_of_phase_tx {s : State} (hp : s.status.phase = .tx) :
    exec .txEot s = .next (sendEot (clearErrors (startCmd .txEot s))) := by
  rw [exec, execTxEot, if_neg (not_not_intro hp)]

theorem takes_rx_txEot {s : State} (h : Awaits .txeRd s) (b : Byte) : Takes (.rx b) s (txEotByte b (gather b s)) := by
  obtain ⟨hpt, -, -, hrb⟩ := id h
  exact takes_rx_of_awaits h rfl (by simp [readDone, hpt, hrb])

theorem txEotByte_second_can {s : State} (h : s.status.canSeen = true) : txEotByte CAN s = endPeerCancel s := by
  simp [txEotByte, cancelKind, h]

theorem txEotByte_ack (s : State) : txEotByte ACK s = complete .succeeded (setPhase .idle (noteCan ACK s)) := rfl

/-- Every other reply is a failed attempt (R355). -/
theorem txEotByte_failed {b : Byte} {s : State} (h : b = CAN ∧ s.status.canSeen = false ∨ b ≠ CAN ∧ b ≠ ACK) :
    txEotByte b s = txEotFailed (noteCan b s) := by
  rcases h with ⟨rfl, hseen⟩ | ⟨hcan, hack⟩
  · simp [txEotByte, cancelKind, hseen]
  · simp [txEotByte, cancelKind_of_ne hcan, hack]

theorem txEotFailed_fails (s : State) :
    Fails .ackTimeout (WritesNext .txeWr [EOT] s (txEotFailed s)) s (txEotFailed s) :=
  failThen_fails (WritesNext .txeWr [EOT] s) rfl ⟨rfl, rfl, rfl, rfl, rfl, rfl, rfl, rfl⟩

/-- TX.EOT goes on from its reply with no progress event and the sequence and block counters as they were (R355). -/
theorem Resumes.counters_eq_of_txeRd {v t : State} (ht : Resumes v t) (hpt : v.hid.pt = .txeRd) :
    t.progress = v.progress ∧ t.seq = v.seq ∧ t.succCnt = v.succCnt ∧ t.totCnt = v.totCnt := by
  have hblk : v.hid.pt ≠ .txbRd := by rw [hpt]; nofun
  exact ⟨ht.progress_eq hblk, ht.seq_eq hblk (by rw [hpt]; nofun), ht.succCnt_eq hblk (by rw [hpt]; nofun),
    linkFixed_field State.totCnt (linkFixed_of_resumes ht)⟩

theorem txEotByte_counters {s : State} (b : Byte) (hpt : s.hid.pt = .txeRd) :
    (txEotByte b s).progress = s.progress ∧ (txEotByte b s).seq = s.seq ∧ (txEotByte b s).succCnt = s.succCnt ∧
      (txEotByte b s).totCnt = s.totCnt := by
  obtain ⟨w, rfl | ⟨-, c, rfl⟩, hr⟩ := txEotByte_resumes b hpt
  · exact hr.counters_eq_of_txeRd hpt
  · exact hr.counters_eq_of_txeRd (v := noteCan c s) hpt

/-- Settles O33: the accepting step, EOT's write, then the reply byte by what `txEotByte` does with it, then the timeout's
failure. -/
theorem txEotEndsTheTransfer : Obligations.TxEotEndsTheTransfer := by
  refine ⟨fun h b => decode_eq_ok_iff.mpr ⟨fieldOp_packWord h b _, rfl⟩,
    fun s => ⟨exec_of_phase_ne_tx (.inr rfl), exec_txEot_of_phase_tx⟩,
    fun s hpt => takes_write_then_readOne (by rw [hpt]; rfl) fun u hu => ?written,
    fun b s hawaits => ?reply, fun s hpt ht => ?timeout⟩
  case written => simp only [writeDone, hu, hpt]
  case reply =>
    obtain ⟨hprogress, hseq, hsucc, htot⟩ := txEotByte_counters (s := gather b s) b hawaits.1
    refine ⟨_, takes_rx_txEot hawaits b, hprogress, hseq, hsucc, htot, ?secondCan, ?ack, ?failed⟩
    case secondCan =>
      rintro rfl hseen
      rw [txEotByte_second_can (s := gather CAN s) hseen]
      exact ⟨⟨rfl, rfl, rfl, rfl, rfl⟩, rfl⟩
    case ack =>
      rintro rfl
      rw [txEotByte_ack]
      exact ⟨⟨rfl, rfl, rfl, rfl, rfl⟩, rfl, rfl⟩
    case failed =>
      intro hb
      refine ⟨?_, txEotByte_canSeen b _⟩
      rw [txEotByte_failed (s := gather b s) hb]
      exact txEotFailed_fails (noteCan b (gather b s))
  case timeout =>
    have htakes := takes_readTimeout (by rw [hpt]; rfl) ht
    simp only [readTimeout, hpt] at htakes
    exact ⟨_, htakes, txEotFailed_fails s, failThen_canSeen fun _ => rfl,
      (txEotFailed_resumes hpt).progress_eq (by rw [hpt]; nofun)⟩

end Sys2Proof.Machine
end

section
/-! PROOF. The receiver's commands: their acceptance, every byte of a negotiation and of a block, the timeouts, and what follows
their writes (spec/44_receiver.md R401 to R411). -/

namespace Sys2Proof.Machine

/-! ## The byte a read waits for -/

/-- The byte that a fresh one-byte read waits for is the one its point's continuation `k` gets (20_memory.md R120). -/
theorem takes_rx_then {pt : Point} {k : Byte → State → State} {s : State} (h : Awaits pt s) (hr : pt.isRead = true)
    (hdone : ∀ (c : Byte) (u : State), u.hid.pt = pt → readDone u c = .next (k (u.hid.rb.headD c) u)) (b : Byte) :
    Takes (.rx b) s (k b (gather b s)) := by
  obtain ⟨hpt, -, -, hrb⟩ := id h
  have hhead : (gather b s).hid.rb.headD b = b := by rw [gather_hid, hrb]; rfl
  exact takes_rx_of_awaits h hr (by rw [hdone b (gather b s) hpt, hhead])

/-! ## A start byte -/

/-- The two start bytes are those of the two block sizes (R251). -/
theorem exists_start {b : Byte} (h : b = SOH ∨ b = STX) :
    ∃ p : BlockSize, b = p.start ∧ (if b = SOH then .classic else .extended) = p := by
  rcases h with rfl | rfl
  · exact ⟨.classic, rfl, rfl⟩
  · exact ⟨.extended, rfl, rfl⟩

theorem BlockSize.start_ne_can (p : BlockSize) : p.start ≠ CAN := by
  cases p <;> decide

theorem sizeOfStart_eq_none {b : Byte} (hsoh : b ≠ SOH) (hstx : b ≠ STX) : sizeOfStart b = none :=
  (if_neg hsoh).trans (if_neg hstx)

/-! ## The receiver's failures -/

theorem failPurge_fails (s : State) : Fails .integrity (ReadsNext .rxpRd 1 1#16 s (failPurge s)) s (failPurge s) :=
  failThen_fails (ReadsNext .rxpRd 1 1#16 s) rfl ⟨rfl, rfl, rfl, rfl, rfl, rfl, rfl, rfl, rfl⟩

theorem rxStartTimeout_fails (s : State) :
    Fails .integrity (WritesNext .rxn2Wr [NAK] s (rxStartTimeout s)) s (rxStartTimeout s) :=
  failThen_fails (WritesNext .rxn2Wr [NAK] s) rfl ⟨rfl, rfl, rfl, rfl, rfl, rfl, rfl, rfl⟩

/-- A failed block is not counted as received (R410). -/
theorem failPurge_counters (s : State) :
    (failPurge s).rxLen = s.rxLen ∧ (failPurge s).byteCnt = s.byteCnt ∧ (failPurge s).succCnt = s.succCnt := by
  rw [failPurge]
  rcases failThen_cases .integrity startPurge s with ⟨-, he⟩ | ⟨-, he⟩ <;> rw [he] <;> exact ⟨rfl, rfl, rfl⟩

/-! ## RX.NEG (R401) -/

/-- The probe sent under the session's configuration after so many failures (R401). -/
def probeAfter (c : SessCfg) (errCnt : Byte) : Byte :=
  if c.crcPref = true ∧ errCnt.toNat < c.retry.toNat / 2 then CRQ else NAK

theorem probeByte_eq (s : State) : probeByte s = probeAfter s.sessCfg s.errCnt := by
  simp only [probeByte, probeAfter, Bool.and_eq_true, decide_eq_true_eq]

/-- The command goes from `s` to a negotiation round: its probe, chosen by ERRCNT as it then stands, is LASTPROBE and is being
sent (R401). -/
abbrev Probes (s t : State) : Prop :=
  WritesNext .rxnWr [probeAfter s.sessCfg t.errCnt] s t ∧ t.hid.lastProbe = probeAfter s.sessCfg t.errCnt

theorem sendProbe_probes (s : State) : Probes s (sendProbe s) :=
  ⟨⟨rfl, congrArg (fun b => [b]) (probeByte_eq s), rfl, rfl, rfl, rfl, rfl, rfl⟩, probeByte_eq s⟩

theorem rxNegTimeout_fails (s : State) : Fails .negTimeout (Probes s (rxNegTimeout s)) s (rxNegTimeout s) :=
  failThen_fails (Probes s) rfl (sendProbe_probes (countFailure s))

/-- The accepting step opens the session and sends the first probe (R302, R401). -/
theorem exec_rxNeg_of_mode_legal {s : State} (h : s.ctrl.mode = 0#2 ∨ s.ctrl.mode = 1#2) :
    exec .rxNeg s = .next (sendProbe (sessionOpen (startCmd .rxNeg s))) := by
  rw [exec, execRxNeg, if_pos ((modeLegal_iff _).mpr h)]

/-- The first probe written out: no failure is counted yet (R304, R401). -/
theorem sendProbe_sessionOpen (s : State) :
    sendProbe (sessionOpen (startCmd .rxNeg s)) =
      let probe := if s.ctrl.crcPref = true ∧ 0 < s.ctrl.retry.toNat / 2 then CRQ else NAK
      { sessionOpen s with
        hid := { s.hid with
          pt := .rxnWr, cmd := some .rxNeg, lastProbe := probe, ws := [probe], wj := 0, tmr := s.timeout } } := by
  rw [sendProbe, probeByte_eq]
  rfl

/-- LASTPROBE is the probe sent until the reply to it comes (R401). -/
theorem lastProbe_eq_of_link {e : Event} {s t : State} (hl : e.isLink = true) (hen : Event.enabled s.hid.pt e = true)
    (h : Takes e s t) (hpt : s.hid.pt ≠ .rxnRd) : t.hid.lastProbe = s.hid.lastProbe := by
  obtain ⟨v, hv, hc⟩ := (handle_link hl hen ((takes_iff hen).mp h)).passed
  rw [← unstored_field (fun x => x.hid.pt) hv.rest] at hpt
  rw [← unstored_field (fun x => x.hid.lastProbe) hv.rest]
  exact hc.elim (congrArg fun x : State => x.hid.lastProbe) fun ht => ht.lastProbe_eq hpt

theorem takes_rx_rxNeg {s : State} (h : Awaits .rxnRd s) (b : Byte) : Takes (.rx b) s (rxNegByte b (gather b s)) :=
  takes_rx_then h rfl (fun c u hu => by simp only [readDone, hu]) b

theorem rxNegByte_second_can {s : State} (h : s.status.canSeen = true) : rxNegByte CAN s = endPeerCancel s := by
  simp [rxNegByte, cancelKind, h]

theorem rxNegByte_first_can {s : State} (h : s.status.canSeen = false) : rxNegByte CAN s = sendProbe (noteCan CAN s) := by
  simp [rxNegByte, cancelKind, h]

theorem rxNegByte_start (p : BlockSize) (s : State) : rxNegByte p.start s = rxNegotiated p (noteCan p.start s) := by
  cases p <;> rfl

theorem rxNegByte_eot (s : State) : rxNegByte EOT s = eotEnd (noteCan EOT s) := rfl

/-- A byte that is no answer to a receiver's probe is a failed round (R401). -/
theorem rxNegByte_other {b : Byte} (hcan : b ≠ CAN) (hsoh : b ≠ SOH) (hstx : b ≠ STX) (heot : b ≠ EOT) (s : State) :
    rxNegByte b s = rxNegTimeout (noteCan b s) := by
  simp [rxNegByte, rxNegTimeout, cancelKind_of_ne hcan, sizeOfStart_eq_none hsoh hstx, heot]

/-- Settles O35: the accepting step, the probe's write, then the reply byte by what `rxNegByte` does with it, then the timeout's
failure. -/
theorem rxNegNegotiates : Obligations.RxNegNegotiates := by
  refine ⟨fun h b => decode_eq_ok_iff.mpr ⟨fieldOp_packWord h b _, rfl⟩,
    fun s => ⟨exec_of_mode_illegal (.inr rfl), fun h => ?accept⟩, fun s hpt => ?probe, fun b s hawaits => ?reply,
    fun s hpt ht => ?timeout⟩
  case accept => rw [exec_rxNeg_of_mode_legal h, sendProbe_sessionOpen]
  case probe =>
    have hw : s.hid.pt.isWrite = true := by rw [hpt]; rfl
    have hne : s.hid.pt ≠ .rxnRd := by rw [hpt]; nofun
    have hdone (u : State) (hu : u.hid.pt = s.hid.pt) : writeDone u = readOne .rxnRd u := by
      simp only [writeDone, hu, hpt]
    obtain ⟨htaken, habandoned⟩ := takes_write_then_readOne hw hdone
    refine ⟨fun b hb hlast => ?_, fun ht => ?_⟩
    · obtain ⟨t, htakes, hreads, htrace⟩ := htaken b hb hlast
      exact ⟨t, htakes, hreads, lastProbe_eq_of_link (e := .txtake) rfl hw htakes hne, htrace⟩
    · obtain ⟨t, htakes, hreads, htxto⟩ := habandoned ht
      exact ⟨t, htakes, hreads, lastProbe_eq_of_link rfl rfl htakes hne, htxto⟩
  case reply =>
    refine ⟨_, takes_rx_rxNeg hawaits b, ?secondCan, ?firstCan, ?start, ?eot, ?other⟩
    case secondCan =>
      rintro rfl hseen
      rw [rxNegByte_second_can (s := gather CAN s) hseen]
      exact ⟨⟨rfl, rfl, rfl, rfl, rfl⟩, rfl⟩
    case firstCan =>
      rintro rfl hseen
      rw [rxNegByte_first_can (s := gather CAN s) hseen]
      obtain ⟨hwrites, hlast⟩ := sendProbe_probes (noteCan CAN (gather CAN s))
      exact ⟨hwrites, hlast, rfl, rfl⟩
    case start =>
      intro hb
      obtain ⟨p, rfl, hp⟩ := exists_start hb
      rw [rxNegByte_start]
      exact ⟨⟨rfl, rfl, rfl, rfl, rfl, rfl, rfl, rfl, rfl⟩, hp.symm, rfl, rfl, rfl, rfl, decide_eq_false p.start_ne_can⟩
    case eot => rintro rfl; rw [rxNegByte_eot]; exact ⟨⟨rfl, rfl, rfl, rfl, rfl, rfl, rfl, rfl⟩, rfl, rfl⟩
    case other =>
      intro hcan hsoh hstx heot
      refine ⟨?_, (rxNegByte_canSeen b _).trans (decide_eq_false hcan)⟩
      rw [rxNegByte_other hcan hsoh hstx heot]
      exact rxNegTimeout_fails (noteCan b (gather b s))
  case timeout =>
    have htakes := takes_readTimeout (by rw [hpt]; rfl) ht
    simp only [readTimeout, hpt] at htakes
    exact ⟨_, htakes, (rxNegTimeout_resumes hpt).canSeen_eq, rxNegTimeout_fails s⟩

/-! ## RX.BLK and its start byte (R403, R404) -/

theorem exec_rxBlk_of_phase_rx {s : State} (hp : s.status.phase = .rx) :
    exec .rxBlk s = .next (awaitStart (startCmd .rxBlk s)) := by
  rw [exec, execRxBlk, if_neg (not_not_intro hp)]

theorem takes_rx_rxStart {s : State} (h : Awaits .rxaRd s) (b : Byte) : Takes (.rx b) s (rxStartByte b (gather b s)) :=
  takes_rx_then h rfl (fun c u hu => by simp only [readDone, hu]) b

theorem rxStartByte_second_can {s : State} (h : s.status.canSeen = true) : rxStartByte CAN s = endPeerCancel s := by
  simp [rxStartByte, cancelKind, h]

theorem rxStartByte_first_can {s : State} (h : s.status.canSeen = false) :
    rxStartByte CAN s = awaitStart (noteCan CAN s) := by
  simp [rxStartByte, cancelKind, h]

theorem rxStartByte_eot (s : State) : rxStartByte EOT s = eotEnd (noteCan EOT s) := rfl

/-- A byte that starts nothing is a failure, and the rest of what comes is purged (R404, R410). -/
theorem rxStartByte_other {b : Byte} (hcan : b ≠ CAN) (heot : b ≠ EOT) (hsoh : b ≠ SOH) (hstx : b ≠ STX) (s : State) :
    rxStartByte b s = failPurge (noteCan b s) := by
  simp [rxStartByte, cancelKind_of_ne hcan, sizeOfStart_eq_none hsoh hstx, heot]

/-- Settles O36: the accepting step, then the start byte by what `rxStartByte` does with it, then the timeout's failure. -/
theorem rxBlkAwaitsAStartByte : Obligations.RxBlkAwaitsAStartByte := by
  refine ⟨fun h b => decode_eq_ok_iff.mpr ⟨fieldOp_packWord h b _, rfl⟩,
    fun s => ⟨exec_of_phase_ne_rx, exec_rxBlk_of_phase_rx⟩,
    fun b s hawaits => ⟨_, takes_rx_rxStart hawaits b, ?secondCan, ?firstCan, ?eot, ?start, ?other⟩,
    fun s hpt ht => ?timeout⟩
  case secondCan =>
    rintro rfl hseen
    rw [rxStartByte_second_can (s := gather CAN s) hseen]
    exact ⟨⟨rfl, rfl, rfl, rfl, rfl⟩, rfl⟩
  case firstCan =>
    rintro rfl hseen
    rw [rxStartByte_first_can (s := gather CAN s) hseen]
    exact ⟨⟨rfl, rfl, rfl, rfl, rfl, rfl, rfl, rfl, rfl⟩, rfl, rfl⟩
  case eot => rintro rfl; rw [rxStartByte_eot]; exact ⟨⟨rfl, rfl, rfl, rfl, rfl, rfl, rfl, rfl⟩, rfl, rfl⟩
  case start =>
    intro hb
    obtain ⟨p, rfl, hp⟩ := exists_start hb
    rw [rxStartByte_start]
    exact ⟨⟨rfl, rfl, rfl, rfl, rfl, rfl, rfl, rfl, rfl⟩, hp.symm, rfl, decide_eq_false p.start_ne_can, rfl⟩
  case other =>
    intro hcan heot hsoh hstx
    refine ⟨?_, (rxStartByte_canSeen b _).trans (decide_eq_false hcan)⟩
    rw [rxStartByte_other hcan heot hsoh hstx]
    exact failPurge_fails (noteCan b (gather b s))
  case timeout =>
    have htakes := takes_readTimeout (by rw [hpt]; rfl) ht
    simp only [readTimeout, hpt] at htakes
    exact ⟨_, htakes, rxStartTimeout_fails s, (rxStartTimeout_resumes hpt).canSeen_eq⟩

/-! ## The header's sequence bytes and the drain (R405 to R407) -/

theorem takes_rx_rxSeq {s : State} (h : Awaits .rxsRd s) (b : Byte) : Takes (.rx b) s (rxSeqByte b (gather b s)) :=
  takes_rx_then h rfl (fun c u hu => by simp only [readDone, hu]) b

theorem takes_rx_rxComp {s : State} (h : Awaits .rxcRd s) (b : Byte) : Takes (.rx b) s (rxCompByte b (gather b s)) :=
  takes_rx_then h rfl (fun c u hu => by simp only [readDone, hu]) b

/-- The pair is a number and its complement, and the number is SEQ (R406). -/
theorem headerMatches_iff (q : Byte) (s : State) :
    headerMatches q s = true ↔ s.hid.q1.toNat + q.toNat = 0xFF ∧ s.hid.q1 = s.seq := by
  rw [headerMatches, Bool.and_eq_true, decide_eq_true_eq, decide_eq_true_eq]

theorem drain_reads (s : State) : ReadsNext .rxxRd (s.hid.p.bytes + s.hid.t.bytes) s.sessTmo s (drain s) :=
  ⟨rfl, rfl, rfl, rfl, rfl, rfl, rfl, rfl, rfl⟩

theorem readData_reads (s : State) : ReadsNext .rxdRd (s.hid.p.bytes + s.hid.t.bytes) s.sessTmo s (readData s) :=
  ⟨rfl, rfl, rfl, rfl, rfl, rfl, rfl, rfl, rfl⟩

/-- A header byte that does not come drains the block (R405, R407). -/
theorem takes_tick_header {s : State} (hpt : s.hid.pt = .rxsRd ∨ s.hid.pt = .rxcRd) (ht : s.hid.tmr.toNat ≤ 1) :
    Takes .tick s (drain s) := by
  have htakes (hr : s.hid.pt.isRead = true) : Takes .tick s (readTimeout s) := takes_readTimeout hr ht
  rcases hpt with hpt | hpt <;> simpa only [readTimeout, hpt] using htakes (by rw [hpt]; rfl)

/-- Settles O37: the two sequence bytes, the timeouts of their reads, and the two ends of the drain, both one failure. -/
theorem headerMismatchDrains : Obligations.HeaderMismatchDrains := by
  refine ⟨fun p s => rfl, fun b s hawaits => ?seq, fun b s hawaits => ?complement,
    fun s hpt ht => ⟨_, takes_tick_header hpt ht, drain_reads s⟩,
    fun s hpt => ⟨fun b hk => ?drained, fun ht => ?drainTimeout⟩⟩
  case seq =>
    exact ⟨_, takes_rx_rxSeq hawaits b, ⟨rfl, rfl, rfl, rfl, rfl, rfl, rfl, rfl, rfl⟩, rfl, rfl, rfl⟩
  case complement =>
    have htakes := takes_rx_rxComp hawaits b
    rw [rxCompByte] at htakes
    split at htakes
    next hmatch =>
      exact ⟨_, htakes, rfl, rfl, fun _ => readData_reads (gather b s),
        fun hno => absurd ((headerMatches_iff b (gather b s)).mp hmatch) hno⟩
    next hmatch =>
      exact ⟨_, htakes, rfl, rfl, fun hyes => absurd ((headerMatches_iff b (gather b s)).mpr hyes) hmatch,
        fun _ => drain_reads (gather b s)⟩
  case drained =>
    have htakes : Takes (.rx b) s (failPurge (gather b s)) :=
      ((takes_rx (by rw [hpt]; rfl)).2 hk _).mpr (by simp only [readDone, gather_hid, hpt])
    have hresumes : Resumes (gather b s) (failPurge (gather b s)) := failPurge_resumes (.inr (.inr hpt))
    exact ⟨_, htakes, failPurge_fails (gather b s), hresumes.buf_eq, hresumes.canSeen_eq⟩
  case drainTimeout =>
    have htakes := takes_readTimeout (by rw [hpt]; rfl) ht
    simp only [readTimeout, hpt] at htakes
    have hresumes : Resumes s (failPurge s) := failPurge_resumes (.inr (.inr hpt))
    exact ⟨_, htakes, failPurge_fails s, hresumes.buf_eq, hresumes.canSeen_eq⟩

/-! ## The tail of a block (R408) -/

/-- P + T bytes are a payload of P bytes and a trailer of one or two. -/
theorem tail_cases {d : List Byte} {p : BlockSize} {t : TrailerLen} (h : d.length = p.bytes + t.bytes) :
    (t = .one ∧ ∃ payload a, d = payload ++ [a] ∧ payload.length = p.bytes) ∨
      (t = .two ∧ ∃ payload a b, d = payload ++ [a, b] ∧ payload.length = p.bytes) := by
  cases t with
  | one =>
    have hne : d ≠ [] := List.ne_nil_of_length_pos (h ▸ Nat.succ_pos _)
    exact .inl ⟨rfl, d.dropLast, d.getLast hne, (List.dropLast_concat_getLast hne).symm,
      by rw [List.length_dropLast, h]; rfl⟩
  | two => exact .inr ⟨rfl, exists_append_pair h⟩

theorem tailTrailer_one {payload : List Byte} {p : BlockSize} (a : Byte) (hp : payload.length = p.bytes) :
    tailTrailer p .one (payload ++ [a]) = a.setWidth 16 := by
  simp [tailTrailer, ← hp]

theorem tailTrailer_two {payload : List Byte} {p : BlockSize} (a b : Byte) (hp : payload.length = p.bytes) :
    tailTrailer p .two (payload ++ [a, b]) = a ++ b := by
  simp [tailTrailer, ← hp]

/-- RXTRL is the trailer's bytes as a number, the first most significant (10_state.md R48). -/
theorem tailTrailer_toNat {d : List Byte} {p : BlockSize} {t : TrailerLen} (h : d.length = p.bytes + t.bytes) :
    (tailTrailer p t d).toNat = (d.drop p.bytes).foldl (fun n (x : Byte) => n * 256 + x.toNat) 0 := by
  rcases tail_cases h with ⟨rfl, payload, a, rfl, hp⟩ | ⟨rfl, payload, a, b, rfl, hp⟩
  · rw [tailTrailer_one a hp, List.drop_left' hp, BitVec.toNat_setWidth_of_le (by omega)]
    simp
  · rw [tailTrailer_two a b hp, List.drop_left' hp, BitVec.toNat_append,
      ← Nat.shiftLeft_add_eq_or_of_lt b.isLt, Nat.shiftLeft_eq]
    simp

/-- R408's comparison of the accumulator with RXTRL is R255's verification of the tail. -/
theorem trailerAgrees_tailTrailer {d : List Byte} {p : BlockSize} {t : TrailerLen} (h : d.length = p.bytes + t.bytes) :
    trailerAgrees (decide (t = .two)) (d.take p.bytes) (tailTrailer p t d) = (verify (decide (t = .two)) d p).1 := by
  rcases tail_cases h with ⟨rfl, payload, a, rfl, hp⟩ | ⟨rfl, payload, a, b, rfl, hp⟩
  · rw [tailTrailer_one a hp, verify_append _ _ hp, List.take_left' hp]
    simp [trailerAgrees, trailer, low_byte_setWidth, eq_comm]
  · rw [tailTrailer_two a b hp, verify_append _ _ hp, List.take_left' hp]
    simp [trailerAgrees, trailer, bigEndian_eq_iff]

/-- A complete tail is valid exactly if R255 says so. -/
theorem tailValid_eq_verify {d : List Byte} {s : State} (h : d.length = tailLength s) :
    tailValid (takeTail d s) = (verify (decide (s.hid.t = .two)) d s.hid.p).1 := by
  have ht : s.hid.t = trailerLen (decide (s.hid.t = .two)) := by cases s.hid.t <;> rfl
  rw [tailValid_takeTail ht, ← ht, trailerAgrees_tailTrailer h]

/-! What a complete tail leaves in RXTRL and the accumulators, and that SEQ stays (R408). -/

@[simp] theorem takeTail_crc (d : List Byte) (s : State) : (takeTail d s).crc = crc16 (d.take s.hid.p.bytes) 0 := rfl
@[simp] theorem takeTail_csum (d : List Byte) (s : State) : (takeTail d s).csum = checksum (d.take s.hid.p.bytes) 0 := rfl
@[simp] theorem takeTail_rxTrl (d : List Byte) (s : State) : (takeTail d s).rxTrl = tailTrailer s.hid.p s.hid.t d := rfl
@[simp] theorem takeTail_seq (d : List Byte) (s : State) : (takeTail d s).seq = s.seq := rfl
@[simp] theorem takeTail_hid (d : List Byte) (s : State) : (takeTail d s).hid = s.hid := rfl

/-- A complete tail's payload fills Buf[0..P-1], and the rest of the buffer stays (R408). -/
theorem bufByte_takeTail_of_le {d : List Byte} {s : State} (h : s.hid.p.bytes ≤ d.length) (i : Nat) :
    bufByte (takeTail d s) i =
      if i < s.hid.p.bytes then ((d.take s.hid.p.bytes)[i]?).getD 0 else bufByte s i := by
  have hlen : (d.take s.hid.p.bytes).length = s.hid.p.bytes := List.length_take_of_le h
  rw [bufByte_takeTail, bufByte_bufReceive]
  split
  next hi => rw [List.getElem?_eq_getElem (hlen.symm ▸ hi), Option.getD_some, Option.getD_some]
  next hi => rw [List.getElem?_eq_none (by omega), Option.getD_none]

/-- A valid block is counted and acknowledged (R408, R409). -/
theorem rxDataComplete_accepts {d : List Byte} {s : State} (h : tailValid (takeTail d s) = true) :
    WritesNext .rxkWr [ACK] s (rxDataComplete d s) ∧ (rxDataComplete d s).rxLen.toNat = s.hid.p.bytes ∧
      (rxDataComplete d s).byteCnt = s.byteCnt + BitVec.ofNat 32 s.hid.p.bytes ∧
      (rxDataComplete d s).succCnt = s.succCnt + 1 ∧ (rxDataComplete d s).errCnt = 0#8 := by
  rw [rxDataComplete, if_pos h]
  exact ⟨⟨rfl, rfl, rfl, rfl, rfl, rfl, rfl, rfl⟩, toNat_ofNat_bytes s.hid.p, rfl, rfl, rfl⟩

/-- Any other block is a failure and is not counted (R408, R410). -/
theorem rxDataComplete_fails {d : List Byte} {s : State} (h : tailValid (takeTail d s) = false) :
    Fails .integrity (ReadsNext .rxpRd 1 1#16 s (rxDataComplete d s)) s (rxDataComplete d s) ∧
      (rxDataComplete d s).rxLen = s.rxLen ∧ (rxDataComplete d s).byteCnt = s.byteCnt ∧
      (rxDataComplete d s).succCnt = s.succCnt := by
  rw [rxDataComplete, if_neg (Bool.eq_false_iff.mp h)]
  exact ⟨failPurge_fails (takeTail d s), failPurge_counters (takeTail d s)⟩

/-- The byte that completes the data read decides the block (R408). -/
theorem takes_rx_rxData {s : State} {b : Byte} (hpt : s.hid.pt = .rxdRd) (hk : s.hid.rk + 1 = s.hid.rn)
    (hd : (s.hid.rb ++ [b]).length = tailLength s) :
    Takes (.rx b) s (rxDataComplete (s.hid.rb ++ [b]) (gather b s)) := by
  refine ((takes_rx (by rw [hpt]; rfl)).2 hk _).mpr ?_
  simp only [readDone, gather_hid, hpt]
  exact if_pos hd

/-- Settles O38: what the complete read stores stands whatever follows; the comparison decides between the accepting step and
the failure; a timeout stores the bytes that came and is a failure. -/
theorem dataReadVerifiesTheBlock : Obligations.DataReadVerifiesTheBlock := by
  refine ⟨fun b s hpt hk hlen => ?complete, fun s hpt ht => ?timeout⟩
  case complete =>
    intro d pl valid
    have hd : d.length = tailLength s := by rw [List.length_append]; exact hlen
    have hpoint : (takeTail d (gather b s)).hid.pt = .rxdRd := by rw [takeTail_hid, gather_hid, hpt]
    have hresumes : Resumes (takeTail d (gather b s)) (rxDataComplete d (gather b s)) := rxDataComplete_resumes d hpt
    have hvalid : tailValid (takeTail d (gather b s)) = valid := tailValid_eq_verify (s := gather b s) hd
    refine ⟨_, takes_rx_rxData hpt hk hd, ?rxTrl, ?crc, ?csum, ?seq, fun i => ?buffer, fun hv => ?accepted,
      fun hv => ?failed⟩
    case rxTrl => rw [hresumes.rxTrl_eq, takeTail_rxTrl]; exact tailTrailer_toNat hd
    case crc => rw [hresumes.crc_eq, takeTail_crc, gather_hid]
    case csum => rw [hresumes.csum_eq, takeTail_csum, gather_hid]
    case seq => rw [hresumes.seq_eq (by rw [hpoint]; nofun) (by rw [hpoint]; nofun), takeTail_seq, gather_seq]
    case buffer =>
      rw [hresumes.bufByte_eq]
      exact bufByte_takeTail_of_le (s := gather b s) (hd ▸ Nat.le_add_right _ _) i
    case accepted => exact rxDataComplete_accepts (s := gather b s) (hvalid.trans hv)
    case failed => exact rxDataComplete_fails (s := gather b s) (hvalid.trans hv)
  case timeout =>
    have htakes := takes_readTimeout (by rw [hpt]; rfl) ht
    simp only [readTimeout, hpt] at htakes
    have hpoint : (bufReceive s.hid.rb s).hid.pt = .rxdRd := hpt
    have hresumes : Resumes (bufReceive s.hid.rb s) (rxDataTimeout s.hid.rb s) := failPurge_resumes (.inr (.inl hpt))
    obtain ⟨hlen, hbytes, hsucc⟩ := failPurge_counters (bufReceive s.hid.rb s)
    refine ⟨_, htakes, failPurge_fails (bufReceive s.hid.rb s), hresumes.rxTrl_eq, hresumes.crc_eq, hresumes.csum_eq, hlen,
      hbytes, hsucc, hresumes.seq_eq (by rw [hpoint]; nofun) (by rw [hpoint]; nofun), fun i => ?_⟩
    rw [hresumes.bufByte_eq, bufByte_bufReceive]

/-! ## The ends of the receiver's writes (R409 to R411) -/

/-- A LinkWrite ends with its last byte taken or with its last tick, and either way the command goes on as its point says
(20_memory.md R121). -/
theorem takes_write_then {e : Event} {s : State} {k : State → State} {P : State → Prop} (hw : s.hid.pt.isWrite = true)
    (he : (e = .tick ∧ s.hid.tmr.toNat ≤ 1) ∨
      (e = .txtake ∧ (∃ b, s.hid.ws[s.hid.wj]? = some b) ∧ s.hid.wj + 1 = s.hid.ws.length))
    (hdone : ∀ u : State, u.hid.pt = s.hid.pt → writeDone u = k u)
    (hP : ∀ u : State, u = setTxto s ∨ (∃ b, u = sendByte b s) → P (k u)) : ∃ t, Takes e s t ∧ P t := by
  rcases he with ⟨rfl, ht⟩ | ⟨rfl, ⟨b, hb⟩, hlast⟩
  · exact ⟨_, hdone (setTxto s) rfl ▸ takes_writeTimeout hw ht, hP _ (.inl rfl)⟩
  · exact ⟨_, hdone (sendByte b s) rfl ▸ (takes_txtake hw hb).2 hlast, hP _ (.inr ⟨b, rfl⟩)⟩

/-- Settles O39: whichever event ends the write, the continuation is that of its point. -/
theorem receiverWritesLeadOn : Obligations.ReceiverWritesLeadOn := by
  intro e s he
  refine ⟨fun hpt => takes_write_then (k := blockTaken) (by rw [hpt]; rfl) he (fun u hu => ?blockDone) ?block,
    fun hpt => takes_write_then (k := awaitStart) (by rw [hpt]; rfl) he (fun u hu => ?nakDone) ?nak,
    fun hpt => takes_write_then (k := transferEnded) (by rw [hpt]; rfl) he (fun u hu => ?eotDone) ?eot⟩
  case blockDone => simp only [writeDone, hu, hpt]
  case nakDone => simp only [writeDone, hu, hpt]
  case eotDone => simp only [writeDone, hu, hpt]
  case block => rintro u (rfl | ⟨b, rfl⟩) <;> exact ⟨⟨rfl, rfl, rfl, rfl, rfl⟩, rfl⟩
  case nak => rintro u (rfl | ⟨b, rfl⟩) <;> exact ⟨⟨rfl, rfl, rfl, rfl, rfl, rfl, rfl, rfl, rfl⟩, rfl⟩
  case eot => rintro u (rfl | ⟨b, rfl⟩) <;> exact ⟨⟨rfl, rfl, rfl, rfl, rfl⟩, rfl, rfl⟩

end Sys2Proof.Machine
end

section
/-! PROOF. The timer, and the steps that always answer a next state (spec/60_exceptions.md R500, R520, R521). -/

namespace Sys2Proof.Machine

/-! ## The timer -/

/-- A tick while nothing waits does nothing (R520). -/
theorem onTick_of_idle {s : State} (hpt : s.hid.pt = .idle) : onTick s = s := by
  simp [onTick, hpt, Point.isRead, Point.isWrite]

/-- `s` with TMR lower by `n` ticks. -/
def countTicks (n : Nat) (s : State) : State :=
  { s with hid := { s.hid with tmr := s.hid.tmr - BitVec.ofNat 16 n } }

theorem countTicks_zero (s : State) : countTicks 0 s = s := by
  simp [countTicks]

theorem countTick_countTicks (n : Nat) (s : State) : countTick (countTicks n s) = countTicks (n + 1) s := by
  simp only [countTick, countTicks, BitVec.ofNat_add, sub_sub]
  rfl

/-- Down to 0, TMR counts down without a wrap. -/
theorem countTicks_tmr_toNat {n : Nat} {s : State} (hn : n ≤ s.hid.tmr.toNat) :
    (countTicks n s).hid.tmr.toNat = s.hid.tmr.toNat - n := by
  have hlt := s.hid.tmr.isLt
  have hle : BitVec.ofNat 16 n ≤ s.hid.tmr := by
    rw [BitVec.le_def, BitVec.toNat_ofNat]
    exact (Nat.mod_le _ _).trans hn
  rw [countTicks, BitVec.toNat_sub_of_le hle, BitVec.toNat_ofNat, Nat.mod_eq_of_lt (by omega)]

/-- Before its last tick a waiting primitive only counts down (R521). -/
theorem runEvents_ticks {n : Nat} {s : State} (hpt : s.hid.pt.isRead = true ∨ s.hid.pt.isWrite = true)
    (hn : n < max s.hid.tmr.toNat 1) : runEvents (List.replicate n .tick) s = .next (countTicks n s) := by
  induction n with
  | zero => rw [countTicks_zero]; rfl
  | succ n ih =>
    have htmr : 1 < (countTicks n s).hid.tmr.toNat := by
      rw [countTicks_tmr_toNat (by omega)]
      omega
    have htick := (takes_tick (s := countTicks n s) hpt).1 htmr
    rw [countTick_countTicks] at htick
    rw [List.replicate_succ', runEvents_append (ih (by omega)), runEvents_cons htick]
    rfl

/-- Settles O24, by induction on the ticks that only count down, after which TMR is at most 1. -/
theorem timerEndsOnTheLastTick : Obligations.TimerEndsOnTheLastTick := by
  refine ⟨fun s hpt => ?idle, fun n s hpt hn => ⟨runEvents_ticks hpt hn, fun hlast => ?last⟩⟩
  case idle => exact (takes_iff rfl).mpr (congrArg Host.Outcome.next (onTick_of_idle hpt))
  case last =>
    have htmr : (countTicks n s).hid.tmr.toNat ≤ 1 := by
      rw [countTicks_tmr_toNat (by omega)]
      omega
    exact (takes_tick (s := countTicks n s) hpt).2 htmr

/-! ## No step stops -/

/-- A register write answers a next state. -/
theorem writeReg_next (r : Reg) (v : Word) (s : State) : ∃ t, writeReg r v s = .next t := by
  cases r
  case cmd =>
    rcases submit_cases v s with ⟨-, he⟩ | ⟨-, ⟨op, -, he⟩ | ⟨i, -, he⟩⟩
    · exact ⟨_, he⟩
    · exact ⟨_, he⟩
    · obtain ⟨t, ht⟩ := exec_next i (accept (fieldB v) (fieldH v) s)
      exact ⟨t, he.trans ht⟩
  all_goals exact ⟨_, rfl⟩

theorem hostWrite_next (width : Nat) (off : Byte) (v : Word) (s : State) : ∃ t, hostWrite width off v s = .next t := by
  unfold hostWrite
  split
  · exact ⟨s, rfl⟩
  · exact writeReg_next _ v s

/-- A read that returned stops nothing but at the data read, which needs all its P + T bytes (R408). -/
theorem readDone_next {s : State} (b : Byte) (h : s.hid.pt = .rxdRd → s.hid.rb.length = tailLength s) :
    ∃ t, readDone s b = .next t := by
  unfold readDone
  split
  case h_8 hpt => exact ⟨_, if_pos (h hpt)⟩
  all_goals exact ⟨_, rfl⟩

/-- A byte that comes to a waiting read: the invariant has the read return with exactly the bytes it asks for (R120). -/
theorem onRx_next {s : State} (b : Byte) (hi : BlockInv s) (hr : s.hid.pt.isRead = true) : ∃ t, onRx b s = .next t := by
  rcases onRx_cases b s with ⟨hk, ho⟩ | ⟨-, ho⟩
  · rw [ho]
    refine readDone_next b fun (hpt : s.hid.pt = .rxdRd) => ?_
    obtain ⟨hn, hlen, -⟩ := hi.linkOk.1 hr
    calc (gather b s).hid.rb.length
      _ = s.hid.rb.length + 1 := by simp
      _ = readCount s s.hid.pt := by rw [← hlen, hk, hn]
      _ = tailLength (gather b s) := by rw [hpt]; rfl
  · exact ⟨_, ho⟩

/-- A waiting write has a byte to present (R121). -/
theorem onTake_next {s : State} (hi : BlockInv s) (hw : s.hid.pt.isWrite = true) : ∃ t, onTake s = .next t := by
  rcases onTake_cases s with ⟨hnone, -⟩ | ⟨b, -, ⟨-, ho⟩ | ⟨-, ho⟩⟩
  · exact absurd (hi.linkOk.2 hw).2 (Nat.not_lt.mpr (List.getElem?_eq_none_iff.mp hnone))
  · exact ⟨_, ho⟩
  · exact ⟨_, ho⟩

theorem handle_next {e : Event} {s : State} (hi : BlockInv s) (hen : Event.enabled s.hid.pt e = true) :
    ∃ t, handle e s = .next t := by
  cases e with
  | hostWr width off v => exact hostWrite_next width off v s
  | rx b => exact onRx_next b hi hen
  | txtake => exact onTake_next hi hen
  | hostRd width off => exact ⟨_, rfl⟩
  | tick => exact ⟨_, rfl⟩
  | reset => exact ⟨_, rfl⟩

/-- Settles O60: a step takes nothing or handles one enabled event, and the invariant shuts out the two faults. -/
theorem noStepStops : Obligations.NoStepStops := by
  intro s hi
  rcases step_cases (s := s) rfl with ⟨-, he⟩ | ⟨e, pre, post, -, hen, -, he⟩
  · exact ⟨s, he⟩
  · rw [he]
    exact handle_next (s := withInputs (pre ++ post) s) hi hen

end Sys2Proof.Machine
end

section
/-! PROOF. DONE, OVR and the interrupt (spec/60_exceptions.md R506 to R508). -/

namespace Sys2Proof.Machine

/-! ## The overrun flag -/

/-- A host write leaves OVR, sets it by an ignored CMD write, or clears it by a 1 written to STATUS bit 2 (R507, R508). -/
theorem HostMove.ovr_cases {v : Word} {off : Byte} {s t : State} (hm : HostMove v s off t) :
    t.status.ovr = s.status.ovr ∨ (off = 0x0C#8 ∧ s.status.busy = true ∧ t.status.ovr = true) ∨
      (off = 0x10#8 ∧ t.status.ovr = (s.status.ovr && !v.getLsbD 2)) := by
  cases hm with
  | status => exact .inr (.inr ⟨rfl, rfl⟩)
  | overrun hb => exact .inr (.inl ⟨rfl, hb, rfl⟩)
  | command hb hd ht =>
    obtain ⟨-, -, -, -, -, -, -, -, -, -, hovr, -⟩ := ht.fixed_eq
    exact .inl hovr
  | _ => exact .inl rfl

/-- Everything an event can do to OVR (R507). -/
theorem handle_ovr_cases {e : Event} {s t : State} (hen : Event.enabled s.hid.pt e = true) (h : handle e s = .next t) :
    t.status.ovr = s.status.ovr ∨ (s.status.busy = true ∧ t.status.ovr = true ∧ ∃ v, e = .hostWr 32 0x0C#8 v) ∨
      (∃ v, e = .hostWr 32 0x10#8 v ∧ t.status.ovr = (s.status.ovr && !v.getLsbD 2)) ∨
      (e = .reset ∧ t.status.ovr = false) := by
  by_cases hl : e.isLink = true
  case pos =>
    obtain ⟨v, hv, hc⟩ := (handle_link hl hen h).passed
    have hcont : t.status.ovr = v.status.ovr :=
      hc.elim (fun he => by rw [he]) fun ht => linkFixed_field (fun x => x.status.ovr) (linkFixed_of_resumes ht)
    exact .inl (hcont.trans (unstored_field (fun x => x.status.ovr) hv.rest))
  case neg =>
    cases e with
    | hostWr width off v =>
      rcases hostWrite_cases h with rfl | ⟨rfl, hm⟩
      · exact .inl rfl
      · rcases hm.ovr_cases with hkept | ⟨rfl, hb, hset⟩ | ⟨rfl, hcleared⟩
        · exact .inl hkept
        · exact .inr (.inl ⟨hb, hset, v, rfl⟩)
        · exact .inr (.inr (.inl ⟨v, rfl, hcleared⟩))
    | hostRd width off => cases h; exact .inl (by rw [(hostRead_kept width off s).1])
    | reset => cases h; exact .inr (.inr (.inr ⟨rfl, rfl⟩))
    | _ => exact absurd rfl hl

/-! ## Write-1-to-clear -/

/-- STATUS takes a write while a command runs as while none does (R507). -/
theorem takes_statusWrite (v : Word) (s : State) :
    Takes (.hostWr 32 0x10#8 v) s { s with status := Status.write v s.status } :=
  takes_hostWr (r := .status) rfl rfl rfl

/-- Settles O47: the write by its definition, DONE from the invariant's control clause, and OVR by its cases. -/
theorem statusWriteClears : Obligations.StatusWriteClears := by
  refine ⟨fun v s => ?write, fun s hi hb => ?done, fun e s t hen h => ?ovr⟩
  case write => simpa [Status.write, Bool.and_comm] using takes_statusWrite v s
  case done =>
    obtain ⟨-, -, -, hrun, -⟩ := hi.pointOk.control
    exact (hrun hb).1
  case ovr =>
    rcases handle_ovr_cases hen ((takes_iff hen).mp h) with
      hkept | ⟨hb, hset, hv⟩ | ⟨v, rfl, hcleared⟩ | ⟨rfl, hzero⟩
    · rw [hkept]
      exact ⟨fun h0 h1 => absurd (h0.symm.trans h1) nofun, fun h1 h0 => absurd (h0.symm.trans h1) nofun⟩
    · exact ⟨fun _ _ => ⟨hb, hv⟩, fun _ h0 => absurd (h0.symm.trans hset) nofun⟩
    · rw [hcleared]
      refine ⟨fun h0 h1 => ?_, fun h1 h0 => .inr ⟨v, rfl, ?_⟩⟩
      · rw [h0] at h1; cases h1
      · simpa [h1] using h0
    · exact ⟨fun _ h1 => absurd (hzero.symm.trans h1) nofun, fun _ _ => .inl rfl⟩

/-! ## The interrupt -/

/-- Settles O48, from the write of STATUS and from the write of an idle block's CTRL. -/
theorem interruptFollowsDone : Obligations.InterruptFollowsDone := by
  refine ⟨fun _ => rfl, fun _ _ _ => rfl, fun v s hv => ⟨_, takes_statusWrite v s, ?cleared⟩,
    fun v s hb => ⟨_, takes_hostWr_of_idle .ctrl hb rfl rfl rfl, rfl⟩⟩
  case cleared => simp [irq, Status.write, hv]

end Sys2Proof.Machine
end

section
/-! PROOF. The phase each result leaves (spec/60_exceptions.md R502). -/

namespace Sys2Proof.Machine

/-! ## R502's table -/

/-- The phase a command that ends with the code leaves, from the phase it was submitted in (R502). -/
def ResultCode.phaseAfter : ResultCode → Phase → Phase
  | .negotiated, _ => .tx
  | .acked, _ => .tx
  | .block, _ => .rx
  | .succeeded, _ => .idle
  | .negTimeout, _ => .idle
  | .cancelled, _ => .idle
  | .declined, _ => .idle
  | .ackTimeout, _ => .idle
  | .integrity, _ => .idle
  | .ok, ph => ph
  | .invalidMode, ph => ph
  | .badCmd, ph => ph
  | .badLength, ph => ph
  | .none, ph => ph

/-- A command submitted in phase `ph` has ended, in the phase of its result. -/
def EndsByTable (ph : Phase) (t : State) : Prop := ∃ code, code ≠ .none ∧ Ends code (code.phaseAfter ph) t

theorem endsByTable_complete {code : ResultCode} {ph : Phase} {u : State} (hcode : code ≠ .none)
    (hph : u.status.phase = code.phaseAfter ph) : EndsByTable ph (complete code u) :=
  ⟨code, hcode, rfl, rfl, rfl, rfl, hph⟩

/-! ## The accepting step -/

/-- An accepting step leaves its command running, or ends it with OK or a rejection, PHASE as it was (R302, R311). -/
theorem exec_ends {i : Instr} {s t : State} (h : exec i s = .next t) :
    t.status.busy = s.status.busy ∨ EndsByTable s.status.phase t := by
  have ended {code : ResultCode} {u : State} (hcode : code ≠ .none)
      (hph : u.status.phase = code.phaseAfter s.status.phase) :
      (complete code u).status.busy = s.status.busy ∨ EndsByTable s.status.phase (complete code u) :=
    .inr (endsByTable_complete hcode hph)
  cases i with
  | engClr => cases h; exact ended nofun rfl
  | engLdcrc c => cases h; exact ended nofun rfl
  | engLdsum b => cases h; exact ended nofun rfl
  | engFeed b => cases h; exact ended nofun rfl
  | engFeedbuf n => simp only [exec, execEngFeedbuf] at h; split at h <;> cases h <;> exact ended nofun rfl
  | frmHdr size q => simp only [exec, execFrmHdr] at h; split at h <;> cases h <;> exact ended nofun rfl
  | frmTrl size u => simp only [exec, execFrmTrl] at h; split at h <;> cases h <;> exact ended nofun rfl
  | frmChk size u => simp only [exec, execFrmChk] at h; split at h <;> cases h <;> exact ended nofun rfl
  | txNeg =>
    simp only [exec, execTxNeg] at h
    split at h <;> cases h
    · exact .inl rfl
    · exact ended nofun rfl
  | txBlk =>
    simp only [exec, execTxBlk] at h
    split at h
    · cases h; exact ended nofun rfl
    · split at h <;> cases h
      · exact .inl rfl
      · exact ended nofun rfl
  | txEot =>
    simp only [exec, execTxEot] at h
    split at h <;> cases h
    · exact ended nofun rfl
    · exact .inl rfl
  | rxNeg =>
    simp only [exec, execRxNeg] at h
    split at h <;> cases h
    · exact .inl rfl
    · exact ended nofun rfl
  | rxBlk =>
    simp only [exec, execRxBlk] at h
    split at h <;> cases h
    · exact ended nofun rfl
    · exact .inl rfl

/-- A CMD write leaves a command running, or ends the one it submits. -/
theorem submit_ends {v : Word} {s t : State} (h : submit v s = .next t) :
    t.status.busy = true ∨ EndsByTable s.status.phase t := by
  rcases submit_cases v s with ⟨hb, he⟩ | ⟨-, ⟨op, -, he⟩ | ⟨i, -, he⟩⟩ <;> rw [he] at h
  · cases h; exact .inl hb
  · cases h; exact .inr (endsByTable_complete nofun rfl)
  · exact exec_ends h

/-! ## A running command -/

/-- The abort's write carries an abort code, which closes the session (R306). -/
theorem phaseAfter_of_cmdFits_canWr {code : ResultCode} {c : Option LinkCmd} (h : cmdFits (.canWr code) c = true)
    (ph : Phase) : code ≠ .none ∧ code.phaseAfter ph = .idle := by
  cases code
  case negTimeout | declined | ackTimeout | integrity => exact ⟨nofun, rfl⟩
  all_goals cases h

/-- A continuation leaves its command running, or ends it in the phase of its result; the two results that leave PHASE alone,
ACKED and BLOCK, end at points of that phase. -/
theorem Resumes.ends {v t : State} (ht : Resumes v t) (h : PointOk v) (ph : Phase) :
    t.status.busy = v.status.busy ∨ EndsByTable ph t := by
  cases ht with
  | peerCancel => exact .inr (endsByTable_complete nofun rfl)
  | negotiated => exact .inr (endsByTable_complete nofun rfl)
  | succeeded => exact .inr (endsByTable_complete nofun rfl)
  | acked hpt =>
    obtain ⟨-, hf⟩ := h.waiting hpt
    exact .inr (endsByTable_complete nofun (beq_iff_eq.mp hf.phase))
  | blockTaken hpt =>
    obtain ⟨-, hf⟩ := h.waiting hpt
    exact .inr (endsByTable_complete nofun (beq_iff_eq.mp hf.phase))
  | aborted code hpt =>
    obtain ⟨-, hf⟩ := h.waiting hpt
    obtain ⟨hcode, hidle⟩ := phaseAfter_of_cmdFits_canWr hf.cmd ph
    exact .inr (endsByTable_complete hcode hidle.symm)
  | _ => exact .inl rfl

/-- A link event leaves a command running, or ends it in the phase of its result. -/
theorem LinkMove.ends {e : Event} {s t : State} (hm : LinkMove s e t) (hi : BlockInv s) (ph : Phase) :
    t.status.busy = s.status.busy ∨ EndsByTable ph t := by
  cases hm with
  | resumed hv ht =>
    rw [← unstored_field (fun x => x.status.busy) hv.unstored_eq]
    exact ht.ends (hv.pointOk hi.pointOk) ph
  | _ => exact .inl rfl

/-- No host write ends a running command. -/
theorem HostMove.busy_of_busy {v : Word} {off : Byte} {s t : State} (hm : HostMove v s off t) (hb : s.status.busy = true) :
    t.status.busy = true := by
  cases hm with
  | badCmd hidle => exact absurd (hb.symm.trans hidle) nofun
  | command hidle => exact absurd (hb.symm.trans hidle) nofun
  | _ => exact hb

/-- Whatever the event, reset apart, a running command runs on or ends in the phase of its result. -/
theorem handle_ends {e : Event} {s t : State} (hi : BlockInv s) (hen : Event.enabled s.hid.pt e = true)
    (h : handle e s = .next t) (hne : e ≠ .reset) (hb : s.status.busy = true) (ph : Phase) :
    t.status.busy = true ∨ EndsByTable ph t := by
  by_cases hl : e.isLink = true
  case pos => exact hb ▸ (handle_link hl hen h).ends hi ph
  case neg =>
    cases e with
    | hostWr width off v =>
      rcases hostWrite_cases h with rfl | ⟨-, hm⟩
      · exact .inl hb
      · exact .inl (hm.busy_of_busy hb)
    | hostRd width off => cases h; exact .inl (by rw [(hostRead_kept width off s).1, hb])
    | reset => exact absurd rfl hne
    | _ => exact absurd rfl hl

/-- Settles O55: the command that ends is the running one or the one submitted, and either ends by the table. -/
theorem resultFixesThePhase : Obligations.ResultFixesThePhase := by
  intro e s t hi hen h hne hrun hidle
  have hh := (takes_iff hen).mp h
  have hends : t.status.busy = true ∨ EndsByTable s.status.phase t := by
    rcases hrun with hb | ⟨v, rfl⟩
    · exact handle_ends hi hen hh hne hb _
    · exact submit_ends hh
  obtain ⟨code, hcode, hres, -, hdone, -, hphase⟩ := hends.resolve_left (by rw [hidle]; nofun)
  rw [hres, hphase]
  refine ⟨?tx, ?rx, ?closed, ?kept, hcode, hdone⟩
  case tx => rintro (rfl | rfl) <;> rfl
  case rx => rintro rfl; rfl
  case closed => rintro (rfl | rfl | rfl | rfl | rfl | rfl) <;> rfl
  case kept => rintro (rfl | rfl | rfl | rfl) <;> rfl

end Sys2Proof.Machine
end

section
/-! PROOF. The block's state after a reset (spec/70_reset_and_hazards.md R600, R601). -/

namespace Sys2Proof.Machine

/-- A reset event leaves what the host reads, an unwritten buffer byte apart, as it is right after power-up (R600). -/
theorem regValue_resetBlock {r : Reg} (hr : r ≠ .bufData) (s : State) :
    regValue r (resetBlock s) = regValue r State.reset := by
  cases r with
  | bufData => exact absurd rfl hr
  | _ => rfl

/-- Settles O49: the event's registers are those of `State.reset`, by `regValue_resetBlock`, and R600's table is read off there. -/
theorem resetLeavesTheResetValues : Obligations.ResetLeavesTheResetValues := by
  intro s
  refine ⟨resetBlock s, (takes_iff rfl).mpr rfl, rfl, rfl, rfl, rfl, rfl, fun u hu => ?_⟩
  have hu' : u = resetBlock s ∨ u = State.reset := by simpa using hu
  have hreads : ∀ r ≠ Reg.bufData, regValue r u = regValue r State.reset := by
    rcases hu' with rfl | rfl
    · exact fun r hr => regValue_resetBlock hr s
    · exact fun _ _ => rfl
  have hrest : (∀ i, u.buf.get? i = none) ∧ u.hid.pt = .idle ∧ irq u = false := by
    rcases hu' with rfl | rfl <;> exact ⟨fun _ => rfl, rfl, rfl⟩
  refine ⟨fun x hx => ?row, hrest⟩
  have hrow : x.1 ≠ .bufData ∧ regValue x.1 State.reset = x.2 := by
    revert x
    decide
  rw [hreads x.1 hrow.1, hrow.2]

/-- Settles O58: the state after reset is one fixed state, and each part of the invariant is evaluated there. -/
theorem resetMeetsTheInvariant : Obligations.ResetMeetsTheInvariant := by
  unfold Obligations.ResetMeetsTheInvariant
  decide

end Sys2Proof.Machine
end

section
/-! PROOF. A running session reads its latched configuration, never CTRL or TIMEOUT (spec/70_reset_and_hazards.md R605): every
operation of the sequencer but SessionOpen commutes with a change of those two registers. -/

namespace Sys2Proof.Machine

/-! ## A change of CTRL and TIMEOUT -/

/-- The state with CTRL and TIMEOUT replaced. -/
def reconfigure (c : Ctrl) (tmo : Half) (s : State) : State := { s with ctrl := c, timeout := tmo }

/-- The outcome with `f` applied to its next state. -/
def mapNext (f : State → State) : Host.Outcome State Fault Refusal → Host.Outcome State Fault Refusal
  | .next s => .next (f s)
  | .fault r => .fault r
  | .refused r => .refused r

@[simp] theorem mapNext_next (f : State → State) (s : State) : mapNext f (.next s) = .next (f s) := rfl

section Commutes
variable (c : Ctrl) (tmo : Half) (s : State)

@[simp] theorem reconfigure_hid : (reconfigure c tmo s).hid = s.hid := rfl

/-! ## The failures -/

/-- Fail() counts against SESSCFG's limit (R308): it commutes when what follows the failure does. -/
theorem failThen_reconfigure (code : ResultCode) {retry : State → State}
    (hretry : ∀ v, retry (reconfigure c tmo v) = reconfigure c tmo (retry v) := by intro _; rfl) :
    failThen code retry (reconfigure c tmo s) = reconfigure c tmo (failThen code retry s) := by
  unfold failThen
  rw [apply_ite (reconfigure c tmo), ← hretry]
  rfl

theorem txNegTimeout_reconfigure : txNegTimeout (reconfigure c tmo s) = reconfigure c tmo (txNegTimeout s) :=
  failThen_reconfigure c tmo s .negTimeout

theorem txEotFailed_reconfigure : txEotFailed (reconfigure c tmo s) = reconfigure c tmo (txEotFailed s) :=
  failThen_reconfigure c tmo s .ackTimeout

theorem rxNegTimeout_reconfigure : rxNegTimeout (reconfigure c tmo s) = reconfigure c tmo (rxNegTimeout s) :=
  failThen_reconfigure c tmo s .negTimeout

theorem rxStartTimeout_reconfigure : rxStartTimeout (reconfigure c tmo s) = reconfigure c tmo (rxStartTimeout s) :=
  failThen_reconfigure c tmo s .integrity

theorem txBlkFailed_reconfigure : txBlkFailed (reconfigure c tmo s) = reconfigure c tmo (txBlkFailed s) := by
  unfold txBlkFailed
  rw [apply_ite (reconfigure c tmo)]
  rfl

theorem failPurge_reconfigure : failPurge (reconfigure c tmo s) = reconfigure c tmo (failPurge s) :=
  failThen_reconfigure c tmo s .integrity

theorem purgeTimeout_reconfigure : purgeTimeout (reconfigure c tmo s) = reconfigure c tmo (purgeTimeout s) := by
  unfold purgeTimeout
  rw [apply_ite (reconfigure c tmo), apply_ite (reconfigure c tmo)]
  rfl

/-! ## The byte read at each point -/

/-- A byte at a control position: CancelCheck reads CANSEEN alone (R309). -/
theorem control_reconfigure {b : Byte} {first first' other other' : State} (hfirst : first' = reconfigure c tmo first)
    (hother : other' = reconfigure c tmo other) :
    (match cancelKind b s.status.canSeen with
      | .peerCancel => endPeerCancel (reconfigure c tmo s)
      | .firstCan => first'
      | .other => other') =
    reconfigure c tmo (match cancelKind b s.status.canSeen with
      | .peerCancel => endPeerCancel s
      | .firstCan => first
      | .other => other) := by
  split
  · rfl
  · exact hfirst
  · exact hother

theorem txNegByte_reconfigure (b : Byte) : txNegByte b (reconfigure c tmo s) = reconfigure c tmo (txNegByte b s) := by
  refine control_reconfigure c tmo s rfl ?_
  split
  · rfl
  split
  · rfl
  split
  · rfl
  · exact txNegTimeout_reconfigure c tmo (noteCan b s)

theorem txBlkByte_reconfigure (b : Byte) : txBlkByte b (reconfigure c tmo s) = reconfigure c tmo (txBlkByte b s) := by
  refine control_reconfigure c tmo s (txBlkFailed_reconfigure c tmo (noteCan b s)) ?_
  split
  · rfl
  · exact txBlkFailed_reconfigure c tmo (noteCan b s)

theorem txEotByte_reconfigure (b : Byte) : txEotByte b (reconfigure c tmo s) = reconfigure c tmo (txEotByte b s) := by
  refine control_reconfigure c tmo s (txEotFailed_reconfigure c tmo (noteCan b s)) ?_
  split
  · rfl
  · exact txEotFailed_reconfigure c tmo (noteCan b s)

theorem rxNegByte_reconfigure (b : Byte) : rxNegByte b (reconfigure c tmo s) = reconfigure c tmo (rxNegByte b s) := by
  refine control_reconfigure c tmo s rfl ?_
  split
  · rfl
  split
  · rfl
  · exact rxNegTimeout_reconfigure c tmo (noteCan b s)

theorem rxStartByte_reconfigure (b : Byte) :
    rxStartByte b (reconfigure c tmo s) = reconfigure c tmo (rxStartByte b s) := by
  refine control_reconfigure c tmo s rfl ?_
  split
  · rfl
  split
  · rfl
  · exact failPurge_reconfigure c tmo (noteCan b s)

theorem rxCompByte_reconfigure (b : Byte) : rxCompByte b (reconfigure c tmo s) = reconfigure c tmo (rxCompByte b s) := by
  unfold rxCompByte
  rw [apply_ite (reconfigure c tmo)]
  rfl

theorem rxDataComplete_reconfigure (d : List Byte) :
    rxDataComplete d (reconfigure c tmo s) = reconfigure c tmo (rxDataComplete d s) := by
  unfold rxDataComplete
  rw [apply_ite (reconfigure c tmo), ← failPurge_reconfigure]
  rfl

/-! ## The return of a primitive -/

theorem readDone_reconfigure (b : Byte) :
    readDone (reconfigure c tmo s) b = mapNext (reconfigure c tmo) (readDone s b) := by
  unfold readDone
  rw [reconfigure_hid]
  cases s.hid.pt with
  | txnRd => exact congrArg _ (txNegByte_reconfigure c tmo s _)
  | txbRd => exact congrArg _ (txBlkByte_reconfigure c tmo s _)
  | txeRd => exact congrArg _ (txEotByte_reconfigure c tmo s _)
  | rxnRd => exact congrArg _ (rxNegByte_reconfigure c tmo s _)
  | rxaRd => exact congrArg _ (rxStartByte_reconfigure c tmo s _)
  | rxcRd => exact congrArg _ (rxCompByte_reconfigure c tmo s _)
  | rxdRd =>
    simp only [apply_ite (mapNext (reconfigure c tmo)), rxDataComplete_reconfigure]
    rfl
  | rxxRd => exact congrArg _ (failPurge_reconfigure c tmo s)
  | _ => rfl

theorem readTimeout_reconfigure : readTimeout (reconfigure c tmo s) = reconfigure c tmo (readTimeout s) := by
  unfold readTimeout
  rw [reconfigure_hid]
  cases s.hid.pt with
  | txnRd => exact txNegTimeout_reconfigure c tmo s
  | txbRd => exact txBlkFailed_reconfigure c tmo s
  | txeRd => exact txEotFailed_reconfigure c tmo s
  | rxnRd => exact rxNegTimeout_reconfigure c tmo s
  | rxaRd => exact rxStartTimeout_reconfigure c tmo s
  | rxdRd => exact failPurge_reconfigure c tmo (bufReceive s.hid.rb s)
  | rxxRd => exact failPurge_reconfigure c tmo s
  | rxpRd => exact purgeTimeout_reconfigure c tmo s
  | _ => rfl

theorem writeDone_reconfigure : writeDone (reconfigure c tmo s) = reconfigure c tmo (writeDone s) := by
  unfold writeDone
  rw [reconfigure_hid]
  cases s.hid.pt <;> rfl

/-! ## The link events -/

theorem onRx_reconfigure (b : Byte) : onRx b (reconfigure c tmo s) = mapNext (reconfigure c tmo) (onRx b s) := by
  unfold onRx
  rw [apply_ite (mapNext (reconfigure c tmo)), ← readDone_reconfigure]
  rfl

theorem onTake_reconfigure : onTake (reconfigure c tmo s) = mapNext (reconfigure c tmo) (onTake s) := by
  unfold onTake
  rw [reconfigure_hid]
  cases s.hid.ws[s.hid.wj]? with
  | none => rfl
  | some b =>
    simp only [apply_ite (mapNext (reconfigure c tmo)), mapNext_next, ← writeDone_reconfigure]
    rfl

theorem onTick_reconfigure : onTick (reconfigure c tmo s) = reconfigure c tmo (onTick s) := by
  unfold onTick
  simp only [apply_ite (reconfigure c tmo), ← readTimeout_reconfigure, ← writeDone_reconfigure]
  rfl

/-- A link or timer event goes the same way under any CTRL and TIMEOUT, and leaves both (R605). -/
theorem handle_reconfigure {e : Event} (he : e.isLink = true) :
    handle e (reconfigure c tmo s) = mapNext (reconfigure c tmo) (handle e s) := by
  cases e with
  | rx b => exact onRx_reconfigure c tmo s b
  | txtake => exact onTake_reconfigure c tmo s
  | tick => exact congrArg _ (onTick_reconfigure c tmo s)
  | hostWr width off v => cases he
  | hostRd width off => cases he
  | reset => cases he

/-! ## The accepting step -/

/-- The acceptance of any command but the two that open a session goes the same way under any CTRL and TIMEOUT (R304, R605). -/
theorem exec_reconfigure {i : Instr} (htx : i ≠ .txNeg) (hrx : i ≠ .rxNeg) :
    exec i (reconfigure c tmo s) = mapNext (reconfigure c tmo) (exec i s) := by
  cases i with
  | engFeedbuf n =>
    simp only [exec, execEngFeedbuf, mapNext_next, apply_ite (reconfigure c tmo)]
    rfl
  | frmHdr size q =>
    simp only [exec, execFrmHdr]
    cases sizeOperand size <;> rfl
  | frmTrl size u =>
    simp only [exec, execFrmTrl]
    cases sizeOperand size <;> rfl
  | frmChk size u =>
    simp only [exec, execFrmChk]
    cases sizeOperand size <;> rfl
  | txNeg => exact absurd rfl htx
  | txBlk =>
    simp only [exec, execTxBlk, apply_ite (mapNext (reconfigure c tmo))]
    rfl
  | txEot =>
    simp only [exec, execTxEot, apply_ite (mapNext (reconfigure c tmo))]
    rfl
  | rxNeg => exact absurd rfl hrx
  | rxBlk =>
    simp only [exec, execRxBlk, apply_ite (mapNext (reconfigure c tmo))]
    rfl
  | _ => rfl

end Commutes

/-! ## The obligation -/

/-- Settles O57: link events and acceptances commute with a change of CTRL and TIMEOUT; irq's IE is read off its definition. -/
theorem latchedConfigurationOnly : Obligations.LatchedConfigurationOnly := by
  refine ⟨fun e c tmo s t hkind hen h => ?link, fun i c tmo s t htx hrx h => ?acceptance, fun _ _ => rfl⟩
  case link =>
    have hlink : e.isLink = true := by rcases hkind with ⟨b, rfl⟩ | rfl | rfl <;> rfl
    have hhandle : handle e (reconfigure c tmo s) = .next (reconfigure c tmo t) := by
      rw [handle_reconfigure c tmo s hlink, (takes_iff hen).mp h, mapNext_next]
    exact (takes_iff (s := reconfigure c tmo s) hen).mpr hhandle
  case acceptance =>
    have hexec : exec i (reconfigure c tmo s) = .next (reconfigure c tmo t) := by
      rw [exec_reconfigure c tmo s htx hrx, h, mapNext_next]
    exact hexec

end Sys2Proof.Machine
end
